-- ==== Sys2Proof/Word.lean ====
section
/-! DEFINITION. The bit-vector types of the hardware. Bits are used only where the spec treats a value as bits: bytes
(R10), the 16-bit offset (R100) and the 32-bit hashed sequence (R24). Positions and lengths are natural numbers, as
R14 allows ("a model may therefore use unbounded naturals for them without changing any result"). -/

namespace Sys2Proof

/-- A byte: an unsigned integer in 0..255 (R10). -/
abbrev Byte := BitVec 8

/-- The width of the offset field and of register `OFF` (R24, R100). -/
abbrev Half := BitVec 16

/-- The width of register `SEQ4` and of the hash arithmetic (R24, R141). -/
abbrev Word := BitVec 32

end Sys2Proof
end

