-- ==== Sys2Proof/Syntax.lean ====
section
/-! DEFINITION. The instructions: one constructor for each row of spec/opcode_table.json.

The operands of a sequence are the assembled ones of R98 to R100: the literal bytes, the offset and the match length
(already including the 4). The operands of an internal operation are those its rule gives it. -/

namespace Sys2Proof

inductive Instr where
  -- sequences of the stream: the four `SEQ` rows (R91, R228) and the two `LAST` rows (R97, R227)
  | seq (lits : List Byte) (off : Half) (mlen : Nat)
  | seqXL (lits : List Byte) (off : Half) (mlen : Nat)
  | seqXM (lits : List Byte) (off : Half) (mlen : Nat)
  | seqXLM (lits : List Byte) (off : Half) (mlen : Nat)
  /-- `x` is the low nibble of the token byte, which the decoder ignores (R105, R206). -/
  | last (x : BitVec 4) (lits : List Byte)
  | lastXL (x : BitVec 4) (lits : List Byte)
  -- elements of the stream (R102)
  | lenextCont
  | lenextEnd (v : Byte)
  | literal (b : Byte)
  | offset (off : Half)
  -- host commands (R254 to R258)
  | nop
  | compress
  | decompress
  | decompressInto
  -- internal operations of the length codec (R121 to R123)
  | encodeLength (n : Nat)
  | sel (n : Nat)
  | decodeLength (sel : BitVec 4) (bias room : Nat)
  -- internal operations of the match finder (R141 to R145)
  | hash4 (v : Word)
  | htLookupInsert (h pos : Nat)
  | matchVerify (c p : Nat)
  | matchExtend (c p : Nat)
  | findMatch
  -- internal operations of the token encoder (R172, R173)
  | emitSeq (a b : Nat) (off : Half) (mlen : Nat)
  | emitLast (a : Nat)
  -- internal operations of the token decoder (R200 to R205)
  | fetchToken
  | readLitlen
  | endTest
  | readOffset
  | readMatchlen
  | parseSequence
  -- internal operations of the output writer (R220, R221)
  | copyLiterals
  | copyMatch
  deriving DecidableEq, Repr

end Sys2Proof
end

