-- ==== Sys2Proof/WellFormed.lean ====
section
/-! DEFINITION. Which instructions are well formed: the operand constraints of the opcode table's rows. -/

namespace Sys2Proof

/-- A literal length that its 4-bit selector holds, with no extension (R102: L in 0..14). -/
abbrev plainLits (lits : List Byte) : Bool := decide (lits.length < 15)

/-- A match length that its 4-bit selector holds, with no extension (R99, R102: M in 0..14). -/
abbrev plainMatch (mlen : Nat) : Bool := decide (4 ≤ mlen) && decide (mlen < 19)

/-- A match length that needs an extension (R99, R102: M = 15). -/
abbrev longMatch (mlen : Nat) : Bool := decide (19 ≤ mlen)

/-- The operand constraints. An offset of 0 is encodable (R101: "encodable range 0..65535"), so a `SEQ` that holds it is
a well-formed instruction, which raises `InvalidOffset` when it runs (R103). -/
def wellFormed : Instr → Bool
  | .seq lits _ mlen => plainLits lits && plainMatch mlen
  | .seqXL lits _ mlen => !plainLits lits && plainMatch mlen
  | .seqXM lits _ mlen => plainLits lits && longMatch mlen
  | .seqXLM lits _ mlen => !plainLits lits && longMatch mlen
  | .last _ lits => plainLits lits
  | .lastXL _ lits => !plainLits lits
  | .lenextCont => true
  | .lenextEnd v => decide (v ≠ 255#8)
  | .literal _ => true
  | .offset _ => true
  | .nop => true
  | .compress => true
  | .decompress => true
  | .decompressInto => true
  | .encodeLength _ => true
  | .sel _ => true
  | .decodeLength _ bias _ => decide (bias = 0) || decide (bias = 4)
  | .hash4 _ => true
  | .htLookupInsert _ _ => true
  | .matchVerify c p => decide (c < p)
  | .matchExtend c p => decide (c < p)
  | .findMatch => true
  | .emitSeq a b off mlen => decide (a ≤ b) && decide (off ≠ 0#16) && decide (4 ≤ mlen)
  | .emitLast _ => true
  | .fetchToken => true
  | .readLitlen => true
  | .endTest => true
  | .readOffset => true
  | .readMatchlen => true
  | .parseSequence => true
  | .copyLiterals => true
  | .copyMatch => true

end Sys2Proof
end

