-- ==== Sys2Proof/Decode.lean ====
section
/-! DEFINITION. The stream encoding (spec/30_encoding.md, spec/40_length_codec.md): decoding, total on any bytes and
rejecting by name, and encoding.

Nothing in a byte says which row of the opcode table it belongs to: the rows are told apart by where the byte stands
(the rows' "select" entries, R97, R107). `Ctx` is that place. -/

namespace Sys2Proof

/-! ### The fields of a sequence -/

/-- `SEL(n)`, the selector of a length (R122). -/
def selOf (n : Nat) : Nat := if n < 15 then n else 15

/-- The extension bytes of a length (R121): nothing below 15; else `(n - 15) / 255` bytes 255, then the remainder. -/
def extBytes (n : Nat) : List Byte :=
  if n < 15 then []
  else List.replicate ((n - 15) / 255) 255#8 ++ [BitVec.ofNat 8 ((n - 15) % 255)]

/-- The token byte with literal selector `l` and low nibble `m` (R92, R171). -/
def tokenByte (l m : Nat) : Byte := BitVec.ofNat 8 (16 * l + m)

/-- `t[7:4]`, the literal length selector (R10, R92). -/
def litSel (t : Byte) : Nat := t.toNat / 16

/-- `t[3:0]`, the match length selector (R10, R92). -/
def matchSel (t : Byte) : Nat := t.toNat % 16

/-- The two bytes of an offset, low byte first (R60). -/
def offsetBytes (off : Half) : List Byte :=
  [BitVec.ofNat 8 (off.toNat % 256), BitVec.ofNat 8 (off.toNat / 256)]

/-- `offset = b0 + 256 * b1` (R60, R100). -/
def offsetOf (b0 b1 : Byte) : Half := BitVec.ofNat 16 (b0.toNat + 256 * b1.toNat)

/-- The bytes of a sequence with a match, fields in the order of R91, R172. -/
def sequenceBytes (lits : List Byte) (off : Half) (mlen : Nat) : List Byte :=
  tokenByte (selOf lits.length) (selOf (mlen - 4)) ::
    (extBytes lits.length ++ lits ++ offsetBytes off ++ extBytes (mlen - 4))

/-- The bytes of a final sequence with low nibble `x` (R97, R173). -/
def finalBytes (x : BitVec 4) (lits : List Byte) : List Byte :=
  tokenByte (selOf lits.length) x.toNat :: (extBytes lits.length ++ lits)

/-! ### Reading lengths -/

/-- Reads extension bytes onto `n`: 255 means add and continue, anything else add and stop (R93, R120). `none` when the
bytes end before the terminator. -/
def takeExt : Nat → List Byte → Option (Nat × List Byte)
  | _, [] => none
  | n, b :: bs => if b = 255#8 then takeExt (n + 255) bs else some (n + b.toNat, bs)

/-- A length from its selector and the bytes that follow (R98, R99): extension bytes only after selector 15. -/
def takeLength (sel : Nat) (bs : List Byte) : Option (Nat × List Byte) :=
  if sel = 15 then takeExt 15 bs else some (sel, bs)

/-- How `DECODE_LENGTH` ends (R123): a value, or one of its two errors, each with the number of bytes consumed. -/
inductive Scan where
  | value (n used : Nat)
  | overflow (used : Nat)
  | truncated (used : Nat)
  deriving DecidableEq, Repr

/-- The loop of `DECODE_LENGTH` (R123): `n` is the accumulator, `used` the bytes consumed so far. The test against the
room comes after each byte and before the fetch of the next. -/
def scanExt (bias room n used : Nat) : List Byte → Scan
  | [] => .truncated used
  | b :: bs =>
    if n + b.toNat + bias > room then .overflow (used + 1)
    else if b = 255#8 then scanExt bias room (n + b.toNat) (used + 1) bs
    else .value (n + b.toNat) (used + 1)

/-- `DECODE_LENGTH(sel, bias, room)` over the bytes that follow (R123). -/
def scanLength (sel bias room : Nat) (bs : List Byte) : Scan :=
  if sel + bias > room then .overflow 0
  else if sel = 15 then scanExt bias room sel 0 bs
  else .value sel 0

/-! ### Decoding -/

/-- Where in the machine a byte stands: written to `CMD`, or at a field of the stream (R102, R107). -/
inductive Ctx where
  | command | sequence | lenext | literal | offset
  deriving DecidableEq, Repr

/-- Why no instruction is read. Every reason but the last is that the bytes end inside a field (R208). -/
inductive Reject where
  | noToken | literalExtensionCut | literalsCut | offsetCut | matchExtensionCut | noElement
  /-- A value that does not fit the two bits of `CMD.OP` (R32). -/
  | notACommand
  deriving DecidableEq, Repr

/-- The command a value of `CMD.OP` names (R32). -/
def decodeCommand (op : BitVec 2) : Instr :=
  match op.toNat with
  | 0 => .nop
  | 1 => .compress
  | 2 => .decompress
  | _ => .decompressInto

/-- The `SEQ` row of a token byte, by which selectors are 15 (R102). -/
def seqInstr (t : Byte) (lits : List Byte) (off : Half) (mlen : Nat) : Instr :=
  if litSel t = 15 then
    if matchSel t = 15 then .seqXLM lits off mlen else .seqXL lits off mlen
  else
    if matchSel t = 15 then .seqXM lits off mlen else .seq lits off mlen

/-- The `LAST` row of a token byte (R102). -/
def lastInstr (t : Byte) (lits : List Byte) : Instr :=
  if litSel t = 15 then .lastXL (BitVec.ofNat 4 (matchSel t)) lits
  else .last (BitVec.ofNat 4 (matchSel t)) lits

/-- The part of a sequence after its literals (R107): no byte left, the sequence was the final one; else an offset and,
after it, the match length. -/
def decodeMatch (t : Byte) (lits : List Byte) : List Byte → Except Reject (Instr × List Byte)
  | [] => .ok (lastInstr t lits, [])
  | [_] => .error .offsetCut
  | b0 :: b1 :: bs =>
    match takeLength (matchSel t) bs with
    | none => .error .matchExtensionCut
    | some (m, rest) => .ok (seqInstr t lits (offsetOf b0 b1) (m + 4), rest)

/-- One whole sequence from the bytes from its token byte to the end of the input (R91, R97, R107). -/
def decodeSequence : List Byte → Except Reject (Instr × List Byte)
  | [] => .error .noToken
  | t :: bs =>
    match takeLength (litSel t) bs with
    | none => .error .literalExtensionCut
    | some (l, bs) =>
      if bs.length < l then .error .literalsCut
      else decodeMatch t (bs.take l) (bs.drop l)

/-- The decoder: the instruction at the head of the bytes, and the bytes after it. -/
def decode (c : Ctx) (bs : List Byte) : Except Reject (Instr × List Byte) :=
  match c, bs with
  | .command, b :: bs =>
    if b.toNat < 4 then .ok (decodeCommand (BitVec.ofNat 2 b.toNat), bs) else .error .notACommand
  | .command, [] => .error .noElement
  | .sequence, bs => decodeSequence bs
  | .lenext, b :: bs => .ok (if b = 255#8 then .lenextCont else .lenextEnd b, bs)
  | .lenext, [] => .error .noElement
  | .literal, b :: bs => .ok (.literal b, bs)
  | .literal, [] => .error .noElement
  | .offset, b0 :: b1 :: bs => .ok (.offset (offsetOf b0 b1), bs)
  | .offset, _ => .error .offsetCut

/-! ### Encoding -/

/-- The bytes of an instruction. An internal operation has none (R102: "nothing decodes to them"). A command is the
byte whose low two bits are `CMD.OP` (R32). -/
def encode : Instr → Option (List Byte)
  | .seq lits off mlen => some (sequenceBytes lits off mlen)
  | .seqXL lits off mlen => some (sequenceBytes lits off mlen)
  | .seqXM lits off mlen => some (sequenceBytes lits off mlen)
  | .seqXLM lits off mlen => some (sequenceBytes lits off mlen)
  | .last x lits => some (finalBytes x lits)
  | .lastXL x lits => some (finalBytes x lits)
  | .lenextCont => some [255#8]
  | .lenextEnd v => some [v]
  | .literal b => some [b]
  | .offset off => some (offsetBytes off)
  | .nop => some [0#8]
  | .compress => some [1#8]
  | .decompress => some [2#8]
  | .decompressInto => some [3#8]
  | .encodeLength _ => none
  | .sel _ => none
  | .decodeLength _ _ _ => none
  | .hash4 _ => none
  | .htLookupInsert _ _ => none
  | .matchVerify _ _ => none
  | .matchExtend _ _ => none
  | .findMatch => none
  | .emitSeq _ _ _ _ => none
  | .emitLast _ => none
  | .fetchToken => none
  | .readLitlen => none
  | .endTest => none
  | .readOffset => none
  | .readMatchlen => none
  | .parseSequence => none
  | .copyLiterals => none
  | .copyMatch => none

/-- The place an instruction is decoded at; an internal operation has none. -/
def ctxOf : Instr → Option Ctx
  | .seq _ _ _ => some .sequence
  | .seqXL _ _ _ => some .sequence
  | .seqXM _ _ _ => some .sequence
  | .seqXLM _ _ _ => some .sequence
  | .last _ _ => some .sequence
  | .lastXL _ _ => some .sequence
  | .lenextCont => some .lenext
  | .lenextEnd _ => some .lenext
  | .literal _ => some .literal
  | .offset _ => some .offset
  | .nop => some .command
  | .compress => some .command
  | .decompress => some .command
  | .decompressInto => some .command
  | .encodeLength _ => none
  | .sel _ => none
  | .decodeLength _ _ _ => none
  | .hash4 _ => none
  | .htLookupInsert _ _ => none
  | .matchVerify _ _ => none
  | .matchExtend _ _ => none
  | .findMatch => none
  | .emitSeq _ _ _ _ => none
  | .emitLast _ => none
  | .fetchToken => none
  | .readLitlen => none
  | .endTest => none
  | .readOffset => none
  | .readMatchlen => none
  | .parseSequence => none
  | .copyLiterals => none
  | .copyMatch => none

/-- `ext(n)`, the number of extension bytes of a length (R127). -/
def extSize (n : Nat) : Nat := if n < 15 then 0 else (n - 15) / 255 + 1

/-! ### The opcode table's words -/

/-- The place a word of the opcode table is read at (log entry 14): words of up to two bits, and the byte values 1 to 3,
are values of `CMD.OP`; two bytes are an offset; every other byte is a token byte. -/
def tableCtx (nbits w : Nat) : Ctx :=
  if nbits ≤ 2 then .command
  else if nbits ≤ 8 then (if w = 1 ∨ w = 2 ∨ w = 3 then .command else .sequence)
  else .offset

/-- The bytes of a word of the opcode table, in stream order, and after them (at a token byte) enough zero bytes for the
longest instruction whose operand bytes are all zero. -/
def tableBytes (nbits w : Nat) : List Byte :=
  match tableCtx nbits w with
  | .offset => [BitVec.ofNat 8 w, BitVec.ofNat 8 (w / 256)]
  | .sequence => BitVec.ofNat 8 w :: List.replicate 24 0#8
  | _ => [BitVec.ofNat 8 w]

/-- The instruction the decoder reads from a word of the opcode table (log entry 14). -/
def decodeTableWord (nbits w : Nat) : Option Instr :=
  match decode (tableCtx nbits w) (tableBytes nbits w) with
  | .ok (i, _) => some i
  | .error _ => none

end Sys2Proof
end

