-- ==== Sys2Proof/Config.lean ====
section
/-! DEFINITION. What is fixed when the hardware is built (R6, R7, R8), and the free values.

The format constants of R6 (MINMATCH 4, SEL_MAX 15, EXT_CONT 255, OFFSET_BYTES 2, MAX_DISTANCE 65535, LASTLITERALS 5)
are hard-coded where they are used, as R6 asks ("They are not parameters: a model hard-codes them"). -/

namespace Sys2Proof

/-- The parameters of R7, each a field ("A model should make each a field of its configuration so that a claim can
quantify over it"), the hash function of D3 and U6, and the open parameter MAX_SIZE of R8. A state carries its
configuration, so a statement about every state is a statement about every configuration (log entry 1). What the machine
does at a value of a parameter other than R7's, where no rule says it, is the model's choice (log entry 16). -/
structure Config where
  /-- `MAX_SIZE`, the "configured maximum buffer size" (R8). -/
  maxSize : Nat
  /-- `MFLIMIT`: a match may start only at positions `p` with `p + MFLIMIT <= N` (R7, R146). -/
  mflimit : Nat
  /-- `HASH_LOG`: the hash table has `2^HASH_LOG` entries (R7, R39). -/
  hashLog : Nat
  /-- `HASH_MULT`, the multiplier of the hash function (R7, R141). -/
  hashMult : Word
  /-- The four-byte values at which `HASH4` is not the multiplicative function of R141, each with its bucket: none as R7
  builds the hardware. With them `HASH4` can be any total function into the buckets (R141, D3, U6; log entry 25). -/
  hashExceptions : List (Nat × Nat)
  /-- `CANDIDATE_DEPTH`: the candidates kept per bucket (R7, R142, R149). -/
  candidateDepth : Nat
  /-- `SCAN_STEP`: the cursor's advance after a position with no match (R7, R176). -/
  scanStep : Nat
  /-- `LAZY`: whether a match gives way to a longer one that starts one position later (R7, R148). -/
  lazy : Bool
  /-- `INSERT_INSIDE_MATCH`: whether the positions an emitted match covers are inserted in the hash table (R7, R150). -/
  insertInsideMatch : Bool
  /-- `BACKWARD_EXTEND`: whether a match is extended backward into the pending literals (R7, R150). -/
  backwardExtend : Bool
  /-- `EMPTY_OUTPUT`: what `COMPRESS` emits for an empty input (R7, R177). -/
  emptyOutput : List Byte
  deriving DecidableEq, Repr

/-- The configurations the rules are written for: `MFLIMIT` leaves room for four bytes before the last five (9 is
D00's own rule, spec/90_conflicts.md C9), the hash index is cut from 32 bits and every hash is a bucket (R141), a bucket
keeps a candidate, the scan moves forward without passing the end (R29), and the empty input gives "zero-length output or
a single trivial token" (D8). The values of R7 are one such configuration (log entry 21). -/
abbrev Config.ok (c : Config) : Prop :=
  9 ≤ c.mflimit ∧ c.hashLog ≤ 32 ∧ (∀ p ∈ c.hashExceptions, p.2 < 2 ^ c.hashLog) ∧ 1 ≤ c.candidateDepth ∧
    1 ≤ c.scanStep ∧ c.scanStep ≤ c.mflimit ∧ c.emptyOutput.length ≤ 1

/-- The values R7 takes. DESIGN CHOICE (log entry 1, unsafe): `MAX_SIZE`, which R8 leaves open, is 2^20 here; only
`State.reset` uses it. -/
def Config.spec : Config :=
  { maxSize := 1048576, mflimit := 12, hashLog := 12, hashMult := 2654435761#32, hashExceptions := []
    candidateDepth := 1, scanStep := 1, lazy := false, insertInsideMatch := false, backwardExtend := false
    emptyOutput := [0x00#8] }

/-- FREE VALUE (R45, U4; log entry 4): the byte of IN at a position that nothing has written since the last reset. The
arguments are the era of IN and the position. -/
opaque Config.freeIn : Nat → Nat → Byte

/-- FREE VALUE (R42, R45, U1; log entry 5): the byte of OUT at a position that is part of no result. The arguments are
the era of OUT and the position. -/
opaque Config.freeOut : Nat → Nat → Byte

end Sys2Proof
end

