-- ==== Sys2Proof/Machine/State.lean ====
section
/-! DEFINITION. The state of one codec instance (R20) and the reasons a step can stop. Plain data throughout.

The structure of the state: the host interface registers (R31 to R38), the engine working registers (R22 to R27), what
an operation in progress implies (R123, R140, R176, R205, R224), the three memories IN, OUT and HT (R39 to R43), and
the model's own fields (log entries 1, 6, 7, 22). -/

namespace Sys2Proof.Machine

/-- `STATUS.STATE` (R33). -/
inductive Status where
  | idle | busy | done | error
  deriving DecidableEq, Repr

/-- The three error kinds (R270): a closed set. -/
inductive ErrKind where
  | truncatedInput | invalidOffset | lengthOverflow
  deriving DecidableEq, Repr

/-- The host interface registers CR0 to CR6 (R31). -/
inductive CReg where
  | cmd | status | err | inLen | outLen | outLimit | sizeHint
  deriving DecidableEq, Repr

/-- One move of the host (R259, R310): a register write or read, a byte written to IN, a byte read from OUT, the wait
for `STATUS` to leave BUSY, or a reset. -/
inductive HostMove where
  | write (r : CReg) (v : Nat)
  | read (r : CReg)
  | writeIn (pos : Nat) (b : Byte)
  | readOut (pos : Nat)
  | wait
  | reset
  deriving DecidableEq, Repr

/-- How much of a decompression one step runs (R15, D33; log entry 6): a whole sequence, one operation of R205, or one
field of the stream. -/
inductive Grain where
  | sequence | operation | field
  deriving DecidableEq, Repr

/-- The line of the pseudocode the engine stands at. `rest`: no operation runs. `scan`, `emit`: `COMPRESS` at its loop
head, and with a match found and not yet emitted (R176); `lookahead` stands between them where LAZY is on (R7; log entry
16). `sequence`: `DECOMPRESS` at a token byte, a whole sequence a step. The others are the lines of R205 in order;
`litExt`, `matchExt` and `literals left` are inside `READ_LITLEN`, `READ_MATCHLEN` (R123) and `COPY_LITERALS` (R220), one
field a step. -/
inductive Ctl where
  | rest
  | scan | lookahead | emit
  | sequence
  | fetchToken | readLitlen | litExt | copyLiterals | literals (left : Nat) | endTest | readOffset | readMatchlen
  | matchExt | copyMatch
  deriving DecidableEq, Repr

/-- What an internal operation hands back to its caller (R121 to R145, R204, R205; log entry 12): a bit, a number, a
hash table entry (as `Table` holds it), or the tuple of `PARSE_SEQUENCE` (literals and, unless final, offset and match length). -/
inductive Ret where
  | nothing
  | bit (b : Bool)
  | num (n : Nat)
  | entry (e : List Nat)
  | tuple (lits : List Byte) (mtch : Option (Half × Nat))
  deriving DecidableEq, Repr

/-- Cells by position, for IN and OUT (R41, R42). -/
abbrev Memory := List Host.Cell

/-- The canonical form of a memory: positions strictly rising. An unlisted position holds no known byte (R45), so no
listed byte equals what an unlisted position reads as. -/
abbrev Memory.wf (m : Memory) : Prop := m.Pairwise fun p q => p.1 < q.1

/-- The entries of HT by bucket (R39): the positions kept in a bucket, the newest first. With the `CANDIDATE_DEPTH` of R7
an entry is one position, `[pos]` for `(1, pos)`; an unlisted bucket is `[]`, `valid = 0`. -/
abbrev Table := List (Nat × List Nat)

/-- The canonical form of the table: buckets strictly rising, and none listed that keeps no position. -/
abbrev Table.wf (t : Table) : Prop := (t.Pairwise fun p q => p.1 < q.1) ∧ ∀ p ∈ t, p.2 ≠ []

structure State where
  /-- The configuration of R6 to R8, which no step changes (log entry 1). -/
  cfg : Config
  /-- How much of a decompression one step runs (log entry 6). -/
  grain : Grain
  /-- The line of the pseudocode the engine stands at (R176, R205, R224). -/
  ctl : Ctl
  /-- CR1 `STATUS` (R33). -/
  status : Status
  /-- CR2 `ERR` (R34); `none` is kind 0. -/
  err : Option ErrKind
  /-- CR3 `IN_LEN` (R35). -/
  inLen : Nat
  /-- CR4 `OUT_LEN` (R37). -/
  outLen : Nat
  /-- CR5 `OUT_LIMIT` (R36). -/
  outLimit : Nat
  /-- CR6 `SIZE_HINT` (R38). -/
  sizeHint : Nat
  /-- `IP`, the cursor into IN (R23, R28, R29). -/
  ip : Nat
  /-- `OP`, the current output length (R23). -/
  op : Nat
  /-- `NREG`, the input length (R23). -/
  nreg : Nat
  /-- `ANCHOR`, the first byte not yet emitted (R24). -/
  anchor : Nat
  /-- `SEQ4`, the four bytes at the cursor (R24). -/
  seq4 : Word
  /-- `HIDX`, the hash of `SEQ4` (R24). -/
  hidx : Nat
  /-- `CAND`, the entry read from HT (R24): `[pos]` is `(1, pos)`; `[]` is `valid = 0`, whose position has no meaning (R39;
  log entry 19). -/
  cand : List Nat
  /-- `MLEN`, the match length (R24, R25). -/
  mlen : Nat
  /-- `OFF`, the match offset (R24, R25). -/
  off : Half
  /-- `TOK`, the token byte (R25). -/
  tok : Byte
  /-- `LITLEN`, the literal length (R25). -/
  litlen : Nat
  /-- `LIM`, the output limit (R25). -/
  lim : Nat
  /-- The accumulator of the `DECODE_LENGTH` in progress (R8, R123, R124). -/
  lenAcc : Nat
  /-- The bias of the `DECODE_LENGTH` in progress (R123). -/
  lenBias : Nat
  /-- What the last internal operation handed back (log entry 12). -/
  ret : Ret
  /-- IN (R41). -/
  inMem : Memory
  /-- OUT (R42). -/
  out : Memory
  /-- HT (R39). -/
  ht : Table
  /-- The host's coming moves, first to come first (log entry 7). -/
  host : List HostMove
  /-- The value the host's last read returned (log entry 7). -/
  hostData : Option Nat
  /-- The era of IN: what the free values of IN are applied to (log entries 4, 22). -/
  inEra : Nat
  /-- The era of OUT: what the free values of OUT are applied to (log entries 5, 22). -/
  outEra : Nat
  deriving DecidableEq, Repr

/-- Why the machine stops with a fault. Each is SAFE: the model stops where the spec says no access is made (R68), or
where the position does not exist. No instruction stops so from a state of the invariant. -/
inductive Fault where
  /-- An engine read of IN at a position that is not below `NREG` and inside IN: raised by the operations that read IN.
  R11: "defined only for `0 <= i < len(B)`". Log entry 11. -/
  | inputRange
  /-- An engine read of OUT at a position that is not below `OP`: raised by `COPY_MATCH`. R12: "requires `a < OP`". Log
  entry 11. -/
  | outputRange
  /-- An engine append at `OP = MAX_CSIZE`: raised by every appending operation. R42, R68. Log entry 11. -/
  | outputFull
  /-- A hash table index at or above `2^HASH_LOG`: raised by `HT_LOOKUP_INSERT`. R12, R68. Log entry 11. -/
  | noSuchEntry
  /-- A host access to a position of IN or OUT at or above `MAX_CSIZE`: raised by the host's moves. R41, R42. Log
  entry 20. -/
  | noSuchPosition
  deriving DecidableEq, Repr

/-- Why the machine refuses. Each is SAFE: the model has no transition where the spec says a model has none. -/
inductive Refusal where
  /-- An instruction that has no meaning yet, by its mnemonic in the opcode table: raised by `exec`. -/
  | notModelled (mnemonic : String)
  /-- A start with `IN_LEN` or `OUT_LIMIT` above its legal value: raised by `COMPRESS`, `DECOMPRESS` and
  `DECOMPRESS_INTO`. R251, U2: "the model has no transition for it". Log entry 8. -/
  | illegalStart
  /-- A host access while BUSY other than a read of `STATUS` and a write of `CMD`: raised by the host's moves. R317, U3,
  U5: "the host has no such move in the model". Log entry 9. -/
  | hostAccessWhileBusy
  /-- A register write whose value does not fit the register: raised by the host's moves. R12: "the width of `v` fits the
  register". Log entry 10. -/
  | valueTooWide
  deriving DecidableEq, Repr

/-- The state after reset in a given configuration (R45, R310). DESIGN CHOICE (log entries 2, 3, 6, 7, 22): the spec
leaves the working registers, HT, IN and OUT unspecified; here the registers are 0, HT is all invalid, and IN and OUT
list nothing, so that their bytes are free values. -/
def State.resetIn (c : Config) : State :=
  { cfg := c, grain := .sequence, ctl := .rest
    status := .idle, err := none, inLen := 0, outLen := 0, outLimit := c.maxSize, sizeHint := 0
    ip := 0, op := 0, nreg := 0, anchor := 0, seq4 := 0#32, hidx := 0, cand := [], mlen := 0, off := 0#16
    tok := 0#8, litlen := 0, lim := 0
    lenAcc := 0, lenBias := 0, ret := .nothing
    inMem := [], out := [], ht := []
    host := [], hostData := none, inEra := 0, outEra := 0 }

/-- The machine right after reset (R45, R310), in the configuration of R7 (log entry 1). -/
def State.reset : State := State.resetIn Config.spec

end Sys2Proof.Machine
end

