-- ==== Sys2Proof/Machine/Flags.lean ====
section
/-! DEFINITION. The only flags of the hardware (R30): the codes of `STATUS.STATE` (R33) and `ERR.KIND` (R34), and the
register values a host reads. There are no arithmetic flags. -/

namespace Sys2Proof.Machine

/-- The code of a status (R33). -/
def Status.code : Status → BitVec 2
  | .idle => 0#2
  | .busy => 1#2
  | .done => 2#2
  | .error => 3#2

/-- The code of an error kind (R34, R270). -/
def ErrKind.code : ErrKind → BitVec 2
  | .truncatedInput => 1#2
  | .invalidOffset => 2#2
  | .lengthOverflow => 3#2

/-- `ERR.KIND` (R34): 0 when there is no error. -/
def errCode : Option ErrKind → BitVec 2
  | none => 0#2
  | some e => e.code

/-- The value a host reads from a register (R31 to R38). `CMD` reads as 0 (R32). -/
def State.readReg (s : State) : CReg → Nat
  | .cmd => 0
  | .status => s.status.code.toNat
  | .err => (errCode s.err).toNat
  | .inLen => s.inLen
  | .outLen => s.outLen
  | .outLimit => s.outLimit
  | .sizeHint => s.sizeHint

end Sys2Proof.Machine
end

