-- ==== Sys2Proof/Machine/Ops.lean ====
section
/-! DEFINITION. The named operations over memories and registers (R12), the start of an operation (R251), its two ends,
`finish` (R255) and `raise` (R280), and how an internal operation's outcome becomes a step's. -/

namespace Sys2Proof.Machine

/-! ### Sizes derived from the configuration (R8) -/

/-- `MAX_CSIZE`, the capacity of IN and of OUT. -/
def maxCsize (c : Config) : Nat := c.maxSize + c.maxSize / 255 + 16

/-- `POS_W = ceil(log2(MAX_CSIZE + 1))`: the number of bits of `MAX_CSIZE`. -/
def posW (c : Config) : Nat := Nat.log2 (maxCsize c) + 1

/-- `LEN_W = POS_W + 1`. -/
def lenW (c : Config) : Nat := posW c + 1

/-! ### Cells -/

/-- The value listed at a key, if any. -/
def Cells.read {α : Type} : List (Nat × α) → Nat → Option α
  | [], _ => none
  | (k, v) :: m, a => if k = a then some v else Cells.read m a

/-- Lists a value at a key, in place of what was listed there, keys staying in rising order. -/
def Cells.write {α : Type} : List (Nat × α) → Nat → α → List (Nat × α)
  | [], a, v => [(a, v)]
  | (k, w) :: m, a, v =>
    if a < k then (a, v) :: (k, w) :: m
    else if a = k then (a, v) :: m
    else (k, w) :: Cells.write m a v

/-- Lists a run of values at consecutive keys. -/
def Cells.writeRun {α : Type} : List (Nat × α) → Nat → List α → List (Nat × α)
  | m, _, [] => m
  | m, a, v :: vs => Cells.writeRun (Cells.write m a v) (a + 1) vs

/-- `IN[a]`: the byte written there, or a free value (R45; log entry 4). -/
def State.inAt (s : State) (a : Nat) : Byte := (Cells.read s.inMem a).getD (Config.freeIn s.inEra a)

/-- `HT[h]` (R12, R39): the positions kept in the bucket, the newest first; `[]` is `valid = 0`. -/
def State.bucket (s : State) (h : Nat) : List Nat := (Cells.read s.ht h).getD []

/-- `OUT[a]`: the byte written there, or a free value (R45; log entry 5). -/
def State.outAt (s : State) (a : Nat) : Byte := (Cells.read s.out a).getD (Config.freeOut s.outEra a)

/-- `IN[a..a+n)`. -/
def State.inRun (s : State) : Nat → Nat → List Byte
  | _, 0 => []
  | a, n + 1 => s.inAt a :: s.inRun (a + 1) n

/-- `OUT[a..a+n)`. -/
def State.outRun (s : State) : Nat → Nat → List Byte
  | _, 0 => []
  | a, n + 1 => s.outAt a :: s.outRun (a + 1) n

/-! ### The outcome of an internal operation -/

/-- How an internal operation ends: with a result, with a decode error that is about to be raised, or outside the bounds
of R68. -/
inductive Res (α : Type) where
  | ok (a : α) (s : State)
  | err (e : ErrKind) (s : State)
  | fault (f : Fault)
  deriving DecidableEq, Repr

/-- One operation after another (R12: "nothing after it runs"). -/
def Res.bind {α β : Type} (r : Res α) (f : α → State → Res β) : Res β :=
  match r with
  | .ok a s => f a s
  | .err e s => .err e s
  | .fault f => .fault f

/-! ### Start and end of an operation -/

/-- The start event (R251): `ERR <- 0`, `OUT_LEN <- 0`, `STATUS <- BUSY`, and the engine stands at a line. It is also what
leaves ERROR (R283). Whatever OUT held is no longer a result. -/
def startOp (c : Ctl) (s : State) : State :=
  { s with err := none, outLen := 0, status := .busy, ctl := c, outEra := s.outEra + 1 }

/-- `finish` (R255): `OUT_LEN <- OP`, `STATUS <- DONE`. DESIGN CHOICE (log entry 26, unsafe): the working registers, HT, IN
and OUT outside the result keep what the operation left in them, where R40, R42 and U4 give no value between operations. -/
def finish (s : State) : State := { s with outLen := s.op, status := .done, ctl := .rest }

/-- `raise E` (R280), taking an exception: the operation stops, `OUT_LEN <- 0`, `ERR <- code(E)`, `STATUS <- ERROR`. No
vector, no saved program counter, no mode change. DESIGN CHOICE (log entry 26, unsafe): the working registers, HT, IN and
OUT keep what the operation left in them, where R40, R42 and U4 give no value between operations. -/
def raise (e : ErrKind) (s : State) : State :=
  { s with outLen := 0, err := some e, status := .error, ctl := .rest }

/-- An internal operation as an instruction: its result is delivered, its error is raised. -/
def Res.outcome {α : Type} (r : Res α) (deliver : α → State → State) : Host.Outcome State Fault Refusal :=
  match r with
  | .ok a s => .next (deliver a s)
  | .err e s => .next (raise e s)
  | .fault f => .fault f

/-- Delivers nothing. -/
def quiet : Unit → State → State := fun _ s => s

/-- Delivers a bit, a number, a table entry (log entry 12). -/
def giveBit : Bool → State → State := fun b s => { s with ret := .bit b }
def giveNum : Nat → State → State := fun n s => { s with ret := .num n }
def giveEntry : List Nat → State → State := fun e s => { s with ret := .entry e }

/-- Delivers the tuple of R205. Without a match the sequence was the final one: "stop with success". -/
def giveTuple : List Byte × Option (Half × Nat) → State → State :=
  fun t s =>
    match t.2 with
    | none => finish { s with ret := .tuple t.1 none }
    | some m => { s with ret := .tuple t.1 (some m) }

/-! ### Access to the memories by the engine (R12, R68; log entry 11) -/

/-- `MemRead(IN, a, 1)`. -/
def readIn (a : Nat) (s : State) : Res Byte :=
  if a < s.nreg ∧ a < maxCsize s.cfg then .ok (s.inAt a) s else .fault .inputRange

/-- `MemRead(IN, a, n)` as bytes. -/
def takeIn (a n : Nat) (s : State) : Res (List Byte) :=
  if a + n ≤ s.nreg ∧ a + n ≤ maxCsize s.cfg then .ok (s.inRun a n) s else .fault .inputRange

/-- `IN[IP..NREG)`, the stream bytes not yet consumed. -/
def restIn (s : State) : Res (List Byte) :=
  if s.ip ≤ s.nreg ∧ s.nreg ≤ maxCsize s.cfg then .ok (s.inRun s.ip (s.nreg - s.ip)) s else .fault .inputRange

/-- `MemRead(OUT, a, 1)`, which "requires `a < OP`". -/
def readOut (a : Nat) (s : State) : Res Byte :=
  if a < s.op then .ok (s.outAt a) s else .fault .outputRange

/-- `Append(v)`: `MemWrite(OUT, OP, 1, v); OP <- OP + 1`. -/
def append (v : Byte) (s : State) : Res Unit :=
  if s.op < maxCsize s.cfg then .ok () { s with out := Cells.write s.out s.op v, op := s.op + 1 }
  else .fault .outputFull

/-- Appends bytes in order. -/
def appendAll : List Byte → State → Res Unit
  | [], s => .ok () s
  | v :: vs, s => (append v s).bind fun _ s => appendAll vs s

/-- The room: `LIM - OP` (R16, R123). -/
def room (s : State) : Nat := s.lim - s.op

end Sys2Proof.Machine
end

