-- ==== Sys2Proof/Machine/Commands.lean ====
section
/-! DEFINITION. The host commands (spec/45_host_commands.md): `NOP`, `COMPRESS`, `DECOMPRESS`, `DECOMPRESS_INTO`.

A starting command is the start event (R251) and the assignments at the head of its engine's pseudocode (R176, R226;
log entry 24); the engine then runs, step by step, to `finish` or `raise`. While BUSY a command has no effect (R253). -/

namespace Sys2Proof.Machine

/-- The head of `COMPRESS` (R176): the start event, the registers, and all of HT invalid (R77). -/
def beginCompress (s : State) : State :=
  { startOp .scan s with nreg := s.inLen, ip := 0, op := 0, anchor := 0, ht := [] }

/-- The line `DECOMPRESS` starts at, by the grain (log entry 6). -/
def entryCtl : Grain → Ctl
  | .sequence => .sequence
  | .operation => .fetchToken
  | .field => .fetchToken

/-- The head of `DECOMPRESS` (R224, R226): the start event and the four assignments. -/
def beginDecompress (s : State) : State :=
  { startOp (entryCtl s.grain) s with nreg := s.inLen, ip := 0, op := 0, lim := s.outLimit }

/-- A start outside the contract is refused (R251, U2; log entry 8). -/
def startWhen (legal : Prop) [Decidable legal] (begin_ : State → State) (s : State) :
    Host.Outcome State Fault Refusal :=
  if s.status = .busy then .next s
  else if legal then .next (begin_ s)
  else .refused .illegalStart

/-- `NOP` (R254): "It changes no state in any `STATUS.STATE`". -/
def execNop (s : State) : Host.Outcome State Fault Refusal := .next s

/-- `COMPRESS` (R256): `IN_LEN <= MAX_SIZE` and `OUT_LIMIT <= MAX_SIZE` (R251). -/
def execCompress (s : State) : Host.Outcome State Fault Refusal :=
  startWhen (s.inLen ≤ s.cfg.maxSize ∧ s.outLimit ≤ s.cfg.maxSize) beginCompress s

/-- `DECOMPRESS` (R257): `IN_LEN <= MAX_CSIZE` and `OUT_LIMIT <= MAX_SIZE` (R251). -/
def execDecompress (s : State) : Host.Outcome State Fault Refusal :=
  startWhen (s.inLen ≤ maxCsize s.cfg ∧ s.outLimit ≤ s.cfg.maxSize) beginDecompress s

/-- `DECOMPRESS_INTO` (R230, R258): exactly `DECOMPRESS`; "`SIZE_HINT` is not read". -/
def execDecompressInto (s : State) : Host.Outcome State Fault Refusal :=
  startWhen (s.inLen ≤ maxCsize s.cfg ∧ s.outLimit ≤ s.cfg.maxSize) beginDecompress s

end Sys2Proof.Machine
end

