-- ==== Sys2Proof/Machine/MatchFinder.lean ====
section
/-! DEFINITION. The match finder (spec/41_match_finder.md): `HASH4`, `HT_LOOKUP_INSERT`, `MATCH_VERIFY`, `MATCH_EXTEND`,
`FIND_MATCH`. -/

namespace Sys2Proof.Machine

/-- Four bytes as a little-endian integer (R12, R61). -/
def le32 : List Byte → Word
  | [b0, b1, b2, b3] => BitVec.ofNat 32 (b0.toNat + 2 ^ 8 * b1.toNat + 2 ^ 16 * b2.toNat + 2 ^ 24 * b3.toNat)
  | _ => 0#32

/-- `HASH4(v)` (R141): a 32-bit wrapping multiply, of which the top `HASH_LOG` bits are kept; where the configuration lists
a bucket for `v`, that one (D3, U6; log entry 25). -/
def hash4 (c : Config) (v : Word) : Nat :=
  (Cells.read c.hashExceptions v.toNat).getD ((v * c.hashMult).toNat / 2 ^ (32 - c.hashLog))

/-- `HT_LOOKUP_INSERT(h, pos)` (R142, R319): the lookup comes before the insert, which is unconditional. The bucket keeps
the newest `CANDIDATE_DEPTH` positions; with the depth 1 of R7, `pos` alone. -/
def htLookupInsertOp (h pos : Nat) (s : State) : Res (List Nat) :=
  if h < 2 ^ s.cfg.hashLog then
    .ok (s.bucket h) { s with ht := Cells.write s.ht h (pos :: (s.bucket h).take (s.cfg.candidateDepth - 1)) }
  else .fault .noSuchEntry

/-- `MATCH_VERIFY(c, p)` (R143): not farther than 65535, and four equal bytes. -/
def matchVerifyOp (c p : Nat) (s : State) : Res Bool :=
  if p - c > 65535 then .ok false s
  else (takeIn c 4 s).bind fun x s => (takeIn p 4 s).bind fun y s => .ok (decide (x = y)) s

/-- The loop of `MATCH_EXTEND` (R144), at length `m`; `fuel` bounds its passes and never stops it early when it is at
least `NREG - 5 - (p + m)`. -/
def extendLoop (c p : Nat) : Nat → Nat → State → Res Nat
  | 0, m, s => .ok m s
  | fuel + 1, m, s =>
    if p + m + 5 < s.nreg then
      (readIn (c + m) s).bind fun x s => (readIn (p + m) s).bind fun y s =>
        if x = y then extendLoop c p fuel (m + 1) s else .ok m s
    else .ok m s

/-- `MATCH_EXTEND(c, p)` (R144). -/
def matchExtendOp (c p : Nat) (s : State) : Res Nat := extendLoop c p (s.nreg - p) 4 s

/-- What `FIND_MATCH` does with the candidates (R145), the newest first; `best` is the length of the longest match so far,
0 where there is none. With the depth 1 of R7 there is one candidate at most, and a match with it is taken. With more, the
longest match is, and of equal ones the newest (R149: "prefer the most recently inserted (shorter offset) if it yields
equal or longer match length than older candidates"). -/
def tryCandidates : List Nat → Nat → State → Res Bool
  | [], best, s => .ok (decide (best ≠ 0)) s
  | c :: cs, best, s =>
    (matchVerifyOp c s.ip s).bind fun same s =>
      if same then
        (matchExtendOp c s.ip s).bind fun m s =>
          if best < m then tryCandidates cs m { s with off := BitVec.ofNat 16 (s.ip - c), mlen := m }
          else tryCandidates cs best s
      else tryCandidates cs best s

/-- `FIND_MATCH()` (R145) with the hash function as a parameter: R151 holds "for any hash function". -/
def findMatchWith (hash : Word → Nat) (s : State) : Res Bool :=
  (takeIn s.ip 4 s).bind fun bs s =>
    (htLookupInsertOp (hash (le32 bs)) s.ip { s with seq4 := le32 bs, hidx := hash (le32 bs) }).bind fun cand s =>
      tryCandidates cand 0 { s with cand := cand }

/-- `FIND_MATCH()` (R145) with the hash function of the configuration (R141). -/
def findMatchOp (s : State) : Res Bool := findMatchWith (hash4 s.cfg) s

/-! ### What the sequencer does around a match where a parameter of R7 is on (R150; log entry 16) -/

/-- Where the match at the cursor starts when it is extended backward: at `b`, going back while the bytes before it and
before its source agree; `fuel` bounds the passes, so that the start does not pass ANCHOR. -/
def backLoop (off : Nat) : Nat → Nat → State → Res Nat
  | 0, b, s => .ok b s
  | fuel + 1, b, s =>
    if off < b then
      (readIn (b - 1 - off) s).bind fun x s => (readIn (b - 1) s).bind fun y s =>
        if x = y then backLoop off fuel (b - 1) s else .ok b s
    else .ok b s

/-- The position a match is emitted from: the cursor, or with `BACKWARD_EXTEND` the start of the match extended backward
into the pending literals (R7, R150). -/
def matchStart (s : State) : Res Nat :=
  if s.cfg.backwardExtend then backLoop s.off.toNat (s.ip - s.anchor) s.ip s else .ok s.ip s

/-- `n` positions from `p` on inserted in HT, those at which a match may start: "Positions `p > NREG - 12` are never hashed
and never inserted in HT" (R146). -/
def insertFrom : Nat → Nat → State → Res Unit
  | 0, _, s => .ok () s
  | n + 1, p, s =>
    if p + s.cfg.mflimit ≤ s.nreg then
      (takeIn p 4 s).bind fun bs s => (htLookupInsertOp (hash4 s.cfg (le32 bs)) p s).bind fun _ s => insertFrom n (p + 1) s
    else .ok () s

/-- The insertion of the positions an emitted match covers, with `INSERT_INSIDE_MATCH` (R7, R150): those after the cursor;
where LAZY is on, the first of them is in HT already. -/
def insertInside (s : State) : Res Unit :=
  if s.cfg.insertInsideMatch then
    if s.cfg.lazy then insertFrom (s.mlen - 2) (s.ip + 2) s else insertFrom (s.mlen - 1) (s.ip + 1) s
  else .ok () s

/-- `HASH4` (R141). -/
def execHash4 (v : Word) (s : State) : Host.Outcome State Fault Refusal := .next (giveNum (hash4 s.cfg v) s)

/-- `HT_LOOKUP_INSERT` (R142). -/
def execHtLookupInsert (h pos : Nat) (s : State) : Host.Outcome State Fault Refusal :=
  (htLookupInsertOp h pos s).outcome giveEntry

/-- `MATCH_VERIFY` (R143). -/
def execMatchVerify (c p : Nat) (s : State) : Host.Outcome State Fault Refusal :=
  (matchVerifyOp c p s).outcome giveBit

/-- `MATCH_EXTEND` (R144). -/
def execMatchExtend (c p : Nat) (s : State) : Host.Outcome State Fault Refusal :=
  (matchExtendOp c p s).outcome giveNum

/-- `FIND_MATCH` (R145); the bit delivered is `found` (R140). -/
def execFindMatch (s : State) : Host.Outcome State Fault Refusal := (findMatchOp s).outcome giveBit

end Sys2Proof.Machine
end

