-- ==== Sys2Proof/Machine/Operands.lean ====
section
/-! DEFINITION. The operands of a sequence as the engine takes them (R98 to R100), from the bytes of its fields. The
token decoder applies these to the bytes of IN at `IP`; the meaning of a decoded sequence applies them to its own fields.
Each consumes its field: `IP` moves past it. -/

namespace Sys2Proof.Machine

/-- The token byte (R200): `TOK <- t`, `IP <- IP + 1`. -/
def takeToken (t : Byte) (s : State) : State := { s with tok := t, ip := s.ip + 1 }

/-- A length (R123): the selector, then extension bytes while they are needed; `IP` moves past the bytes read. -/
def takeLen (sel bias room : Nat) (bs : List Byte) (s : State) : Res Nat :=
  match scanLength sel bias room bs with
  | .value n used => .ok n { s with ip := s.ip + used }
  | .overflow used => .err .lengthOverflow { s with ip := s.ip + used }
  | .truncated used => .err .truncatedInput { s with ip := s.ip + used }

/-- The literal length (R98, R201): bias 0, against the room. -/
def takeLitlen (sel : Nat) (bs : List Byte) (s : State) : Res Unit :=
  (takeLen sel 0 (room s) bs s).bind fun n s => .ok () { s with litlen := n }

/-- The literal bytes (R220): appended to OUT unchanged. -/
def takeLits (lits : List Byte) (s : State) : Res Unit :=
  (appendAll lits s).bind fun _ s => .ok () { s with ip := s.ip + lits.length }

/-- The offset (R100, R202): `OFF <- off`, `IP <- IP + 2`; 0 and anything above the output length are invalid (R272). -/
def takeOffset (off : Half) (s : State) : Res Unit :=
  let s := { s with off := off, ip := s.ip + 2 }
  if off = 0#16 ∨ off.toNat > s.op then .err .invalidOffset s else .ok () s

/-- The match length (R99, R203): bias 4, against the room; "`+ 4`". -/
def takeMatchlen (sel : Nat) (bs : List Byte) (s : State) : Res Unit :=
  (takeLen sel 4 (room s) bs s).bind fun n s => .ok () { s with mlen := n + 4 }

end Sys2Proof.Machine
end

