-- ==== Sys2Proof/Machine/LengthCodec.lean ====
section
/-! DEFINITION. The length codec (spec/40_length_codec.md): `ENCODE_LENGTH`, `SEL`, `DECODE_LENGTH`. -/

namespace Sys2Proof.Machine

/-- `ENCODE_LENGTH(n)` (R121): appends the extension bytes. -/
def encodeLengthOp (n : Nat) (s : State) : Res Unit := appendAll (extBytes n) s

/-- `DECODE_LENGTH(sel, bias, room)` (R123) over IN at `IP`. -/
def decodeLengthOp (sel bias room : Nat) (s : State) : Res Nat :=
  (restIn s).bind fun bs s => takeLen sel bias room bs s

/-- `ENCODE_LENGTH` (R121). -/
def execEncodeLength (n : Nat) (s : State) : Host.Outcome State Fault Refusal :=
  (encodeLengthOp n s).outcome quiet

/-- `SEL` (R122). -/
def execSel (n : Nat) (s : State) : Host.Outcome State Fault Refusal := .next (giveNum (selOf n) s)

/-- `DECODE_LENGTH` (R123). -/
def execDecodeLength (sel : BitVec 4) (bias room : Nat) (s : State) : Host.Outcome State Fault Refusal :=
  (decodeLengthOp sel.toNat bias room s).outcome giveNum

end Sys2Proof.Machine
end

