-- ==== Sys2Proof/Machine/OutputWriter.lean ====
section
/-! DEFINITION. The decompressor's output writer (spec/44_decompressor.md, section 1): `COPY_LITERALS`, `COPY_MATCH`. -/

namespace Sys2Proof.Machine

/-- `COPY_LITERALS` (R220): all or nothing, the test before the first byte. The bytes copied are the result. -/
def copyLiteralsOp (s : State) : Res (List Byte) :=
  (restIn s).bind fun bs s =>
    if bs.length < s.litlen then .err .truncatedInput s
    else (takeLits (bs.take s.litlen) s).bind fun _ t => .ok (bs.take s.litlen) t

/-- The loop of `COPY_MATCH` (R221): `n` bytes from `src` on, strictly in order; each read sees the writes before it
(R66). -/
def copyFrom : Nat → Nat → State → Res Unit
  | 0, _, s => .ok () s
  | n + 1, src, s =>
    (readOut src s).bind fun b s => (append b s).bind fun _ s => copyFrom n (src + 1) s

/-- `COPY_MATCH` (R221): `MLEN` bytes from `OP - OFF`. A source before the start of OUT is out of bounds (R13). -/
def copyMatchOp (s : State) : Res Unit :=
  if s.op < s.off.toNat then .fault .outputRange else copyFrom s.mlen (s.op - s.off.toNat) s

/-- `COPY_LITERALS` (R220). -/
def execCopyLiterals (s : State) : Host.Outcome State Fault Refusal := (copyLiteralsOp s).outcome fun _ s => s

/-- `COPY_MATCH` (R221). -/
def execCopyMatch (s : State) : Host.Outcome State Fault Refusal := (copyMatchOp s).outcome quiet

end Sys2Proof.Machine
end

