-- ==== Sys2Proof/Machine/TokenDecoder.lean ====
section
/-! DEFINITION. The token decoder (spec/43_token_decoder.md): `FETCH_TOKEN`, `READ_LITLEN`, `READ_OFFSET`,
`READ_MATCHLEN`, `END_TEST`, `PARSE_SEQUENCE`. -/

namespace Sys2Proof.Machine

/-- `FETCH_TOKEN` (R200). -/
def fetchTokenOp (s : State) : Res Unit :=
  (restIn s).bind fun bs s =>
    match bs with
    | [] => .err .truncatedInput s
    | t :: _ => .ok () (takeToken t s)

/-- `READ_LITLEN` (R201). -/
def readLitlenOp (s : State) : Res Unit :=
  (restIn s).bind fun bs s => takeLitlen (litSel s.tok) bs s

/-- `READ_OFFSET` (R202): with fewer than two bytes left, truncated. -/
def readOffsetOp (s : State) : Res Unit :=
  (restIn s).bind fun bs s =>
    match bs with
    | b0 :: b1 :: _ => takeOffset (offsetOf b0 b1) s
    | _ => .err .truncatedInput s

/-- `READ_MATCHLEN` (R203). -/
def readMatchlenOp (s : State) : Res Unit :=
  (restIn s).bind fun bs s => takeMatchlen (matchSel s.tok) bs s

/-- `END_TEST` (R204). -/
def endTest (s : State) : Bool := decide (s.ip = s.nreg)

/-- `PARSE_SEQUENCE` (R205). The result is the tuple delivered; without a match the sequence was the final one. -/
def parseSequenceOp (s : State) : Res (List Byte × Option (Half × Nat)) :=
  (fetchTokenOp s).bind fun _ s =>
    (readLitlenOp s).bind fun _ s =>
      (copyLiteralsOp s).bind fun lits s =>
        if endTest s then .ok (lits, none) s
        else
          (readOffsetOp s).bind fun _ s =>
            (readMatchlenOp s).bind fun _ s =>
              (copyMatchOp s).bind fun _ s => .ok (lits, some (s.off, s.mlen)) s

/-- `FETCH_TOKEN` (R200). -/
def execFetchToken (s : State) : Host.Outcome State Fault Refusal := (fetchTokenOp s).outcome quiet

/-- `READ_LITLEN` (R201). -/
def execReadLitlen (s : State) : Host.Outcome State Fault Refusal := (readLitlenOp s).outcome quiet

/-- `READ_OFFSET` (R202). -/
def execReadOffset (s : State) : Host.Outcome State Fault Refusal := (readOffsetOp s).outcome quiet

/-- `READ_MATCHLEN` (R203). -/
def execReadMatchlen (s : State) : Host.Outcome State Fault Refusal := (readMatchlenOp s).outcome quiet

/-- `END_TEST` (R204). -/
def execEndTest (s : State) : Host.Outcome State Fault Refusal := .next (giveBit (endTest s) s)

/-- `PARSE_SEQUENCE` (R205). -/
def execParseSequence (s : State) : Host.Outcome State Fault Refusal := (parseSequenceOp s).outcome giveTuple

end Sys2Proof.Machine
end

