-- ==== Sys2Proof/Machine/Stream.lean ====
section
/-! DEFINITION. The meanings of the stream's own instructions: the sequences (R227, R228) and the elements (R93 to R96).

A sequence runs the operations of R205 on its own operands, in the order of R224 and R277: token byte, literal length
against the room, literals, then (with a match) offset, match length against the room, match copy. The output length an
offset is checked against is the one after the literals (R228). -/

namespace Sys2Proof.Machine

/-- A sequence with a match (R228). -/
def runSeq (lits : List Byte) (off : Half) (mlen : Nat) (s : State) : Res (List Byte × Option (Half × Nat)) :=
  (takeLitlen (selOf lits.length) (extBytes lits.length)
      (takeToken (tokenByte (selOf lits.length) (selOf (mlen - 4))) s)).bind fun _ s =>
    (takeLits lits s).bind fun _ s =>
      (takeOffset off s).bind fun _ s =>
        (takeMatchlen (selOf (mlen - 4)) (extBytes (mlen - 4)) s).bind fun _ s =>
          (copyMatchOp s).bind fun _ s => .ok (lits, some (s.off, s.mlen)) s

/-- A final sequence (R227): its literals, then the end of the operation. -/
def runLast (x : BitVec 4) (lits : List Byte) (s : State) : Res (List Byte × Option (Half × Nat)) :=
  (takeLitlen (selOf lits.length) (extBytes lits.length)
      (takeToken (tokenByte (selOf lits.length) x.toNat) s)).bind fun _ s =>
    (takeLits lits s).bind fun _ s => .ok (lits, none) s

/-- `SEQ` (R228): both lengths in their selectors. -/
def execSeq (lits : List Byte) (off : Half) (mlen : Nat) (s : State) : Host.Outcome State Fault Refusal :=
  (runSeq lits off mlen s).outcome giveTuple

/-- `SEQ.XL` (R228): a literal length extension. -/
def execSeqXL (lits : List Byte) (off : Half) (mlen : Nat) (s : State) : Host.Outcome State Fault Refusal :=
  (runSeq lits off mlen s).outcome giveTuple

/-- `SEQ.XM` (R228): a match length extension. -/
def execSeqXM (lits : List Byte) (off : Half) (mlen : Nat) (s : State) : Host.Outcome State Fault Refusal :=
  (runSeq lits off mlen s).outcome giveTuple

/-- `SEQ.XLM` (R228): both extensions. -/
def execSeqXLM (lits : List Byte) (off : Half) (mlen : Nat) (s : State) : Host.Outcome State Fault Refusal :=
  (runSeq lits off mlen s).outcome giveTuple

/-- `LAST` (R227): the literal length in its selector. -/
def execLast (x : BitVec 4) (lits : List Byte) (s : State) : Host.Outcome State Fault Refusal :=
  (runLast x lits s).outcome giveTuple

/-- `LAST.XL` (R227): a literal length extension. -/
def execLastXL (x : BitVec 4) (lits : List Byte) (s : State) : Host.Outcome State Fault Refusal :=
  (runLast x lits s).outcome giveTuple

/-- One pass of the loop of `DECODE_LENGTH` (R123) with the byte `v`: `IP <- IP + 1`, `n <- n + v`, and the test against
the room. The running value is handed back. -/
def lenextOp (v : Byte) (s : State) : Res Nat :=
  let s := { s with ip := s.ip + 1, lenAcc := s.lenAcc + v.toNat }
  if s.lenAcc + s.lenBias > room s then .err .lengthOverflow s else .ok s.lenAcc s

/-- `LENEXT.CONT` (R123): "add 255 to the running length; another continuation byte follows". -/
def execLenextCont (s : State) : Host.Outcome State Fault Refusal := (lenextOp 255#8 s).outcome giveNum

/-- `LENEXT.END` (R123): "add V to the running length; the extension ends". -/
def execLenextEnd (v : Byte) (s : State) : Host.Outcome State Fault Refusal := (lenextOp v s).outcome giveNum

/-- `LITERAL` (R220): one literal byte, "appended to OUT unchanged". -/
def execLiteral (b : Byte) (s : State) : Host.Outcome State Fault Refusal := (takeLits [b] s).outcome quiet

/-- `OFFSET` (R202): the offset field. -/
def execOffset (off : Half) (s : State) : Host.Outcome State Fault Refusal := (takeOffset off s).outcome quiet

end Sys2Proof.Machine
end

