-- ==== Sys2Proof/Machine/TokenEncoder.lean ====
section
/-! DEFINITION. The token encoder (spec/42_token_encoder_compressor.md, section 1): `EMIT_SEQ`, `EMIT_LAST`. -/

namespace Sys2Proof.Machine

/-- `EMIT_SEQ(a, b, off, mlen)` (R172): token byte, literal length extension, literals, offset low byte first, match
length extension. -/
def emitSeqOp (a b : Nat) (off : Half) (mlen : Nat) (s : State) : Res Unit :=
  (append (tokenByte (selOf (b - a)) (selOf (mlen - 4))) s).bind fun _ s =>
    (encodeLengthOp (b - a) s).bind fun _ s =>
      (takeIn a (b - a) s).bind fun lits s =>
        (appendAll lits s).bind fun _ s =>
          (appendAll (offsetBytes off) s).bind fun _ s => encodeLengthOp (mlen - 4) s

/-- `EMIT_LAST(a)` (R173): token byte with low nibble 0 (R105), literal length extension, literals. -/
def emitLastOp (a : Nat) (s : State) : Res Unit :=
  (append (tokenByte (selOf (s.nreg - a)) 0) s).bind fun _ s =>
    (encodeLengthOp (s.nreg - a) s).bind fun _ s =>
      (takeIn a (s.nreg - a) s).bind fun lits s => appendAll lits s

/-- `EMIT_SEQ` (R172). -/
def execEmitSeq (a b : Nat) (off : Half) (mlen : Nat) (s : State) : Host.Outcome State Fault Refusal :=
  (emitSeqOp a b off mlen s).outcome quiet

/-- `EMIT_LAST` (R173). -/
def execEmitLast (a : Nat) (s : State) : Host.Outcome State Fault Refusal := (emitLastOp a s).outcome quiet

end Sys2Proof.Machine
end

