-- ==== Sys2Proof/Machine/Dispatch.lean ====
section
/-! DEFINITION. The meaning of every instruction: one arm per constructor, one call per arm. -/

namespace Sys2Proof.Machine

def exec (i : Instr) (s : State) : Host.Outcome State Fault Refusal :=
  match i with
  | .seq lits off mlen => Sys2Proof.Machine.execSeq lits off mlen s
  | .seqXL lits off mlen => Sys2Proof.Machine.execSeqXL lits off mlen s
  | .seqXM lits off mlen => Sys2Proof.Machine.execSeqXM lits off mlen s
  | .seqXLM lits off mlen => Sys2Proof.Machine.execSeqXLM lits off mlen s
  | .last x lits => Sys2Proof.Machine.execLast x lits s
  | .lastXL x lits => Sys2Proof.Machine.execLastXL x lits s
  | .lenextCont => Sys2Proof.Machine.execLenextCont s
  | .lenextEnd v => Sys2Proof.Machine.execLenextEnd v s
  | .literal b => Sys2Proof.Machine.execLiteral b s
  | .offset off => Sys2Proof.Machine.execOffset off s
  | .nop => Sys2Proof.Machine.execNop s
  | .compress => Sys2Proof.Machine.execCompress s
  | .decompress => Sys2Proof.Machine.execDecompress s
  | .decompressInto => Sys2Proof.Machine.execDecompressInto s
  | .encodeLength n => Sys2Proof.Machine.execEncodeLength n s
  | .sel n => Sys2Proof.Machine.execSel n s
  | .decodeLength sel bias room => Sys2Proof.Machine.execDecodeLength sel bias room s
  | .hash4 v => Sys2Proof.Machine.execHash4 v s
  | .htLookupInsert h pos => Sys2Proof.Machine.execHtLookupInsert h pos s
  | .matchVerify c p => Sys2Proof.Machine.execMatchVerify c p s
  | .matchExtend c p => Sys2Proof.Machine.execMatchExtend c p s
  | .findMatch => Sys2Proof.Machine.execFindMatch s
  | .emitSeq a b off mlen => Sys2Proof.Machine.execEmitSeq a b off mlen s
  | .emitLast a => Sys2Proof.Machine.execEmitLast a s
  | .fetchToken => Sys2Proof.Machine.execFetchToken s
  | .readLitlen => Sys2Proof.Machine.execReadLitlen s
  | .endTest => Sys2Proof.Machine.execEndTest s
  | .readOffset => Sys2Proof.Machine.execReadOffset s
  | .readMatchlen => Sys2Proof.Machine.execReadMatchlen s
  | .parseSequence => Sys2Proof.Machine.execParseSequence s
  | .copyLiterals => Sys2Proof.Machine.execCopyLiterals s
  | .copyMatch => Sys2Proof.Machine.execCopyMatch s

end Sys2Proof.Machine
end

