-- ==== Sys2Proof/Machine/Sequencer.lean ====
section
/-! DEFINITION. The two sequencers: `COMPRESS` (R176) and `DECOMPRESS` (R224). One call runs the line of the pseudocode
the engine stands at (`ctl`), by executing the instruction that line names, and moves to the next line.

The compressor executes `FIND_MATCH`, `EMIT_SEQ`, `EMIT_LAST`. The decompressor executes, by the grain (R15; log entry
6): a whole decoded sequence; or the operations of R205 one by one; or one field of the stream at a time. -/

namespace Sys2Proof.Machine

/-- What a sequencer does after an instruction, unless the instruction ended the operation. -/
def andThen (o : Host.Outcome State Fault Refusal) (f : State → State) : Host.Outcome State Fault Refusal :=
  match o with
  | .next s => .next (if s.status = .busy then f s else s)
  | .fault r => .fault r
  | .refused r => .refused r

/-- The stream bytes not yet consumed, given to the rest of a step. -/
def withRest (s : State) (k : List Byte → Host.Outcome State Fault Refusal) : Host.Outcome State Fault Refusal :=
  match restIn s with
  | .ok bs _ => k bs
  | .err e s => .next (raise e s)
  | .fault f => .fault f

/-! ### The compressor (R176) -/

/-- The loop head of `COMPRESS` with the result of `FIND_MATCH`: found, the match is emitted next (with LAZY, once it has
been held against the next position); else the cursor moves by `SCAN_STEP`. -/
def afterFind (s : State) : State :=
  if s.ret = .bit true then { s with ctl := if s.cfg.lazy then .lookahead else .emit }
  else { s with ip := s.ip + s.cfg.scanStep }

/-- The end of `COMPRESS`: the final sequence, or for the empty input `EMPTY_OUTPUT` (R177), and `finish`. -/
def lastStep (s : State) : Host.Outcome State Fault Refusal :=
  if s.nreg = 0 then andThen ((appendAll s.cfg.emptyOutput s).outcome quiet) finish
  else andThen (exec (.emitLast s.anchor) s) finish

/-- The loop head of `COMPRESS`: while a match may start at `IP`, the finder; then the end. -/
def scanStep (s : State) : Host.Outcome State Fault Refusal :=
  if s.ip + s.cfg.mflimit ≤ s.nreg then andThen (exec .findMatch s) afterFind else lastStep s

/-- The match of `s`, held against the one the finder gave at the next position, in `t`: a longer one takes its place. -/
def afterLookahead (s t : State) : State :=
  if t.ret = .bit true ∧ s.mlen < t.mlen then t
  else { t with ip := s.ip, off := s.off, mlen := s.mlen, ctl := .emit }

/-- The one-step lookahead of LAZY (R148; log entry 16), where a match may start at the next position. -/
def lookaheadStep (s : State) : Host.Outcome State Fault Refusal :=
  if s.ip + 1 + s.cfg.mflimit ≤ s.nreg then andThen (exec .findMatch { s with ip := s.ip + 1 }) (afterLookahead s)
  else .next { s with ctl := .emit }

/-- The loop body of `COMPRESS` with a match: `EMIT_SEQ(ANCHOR, IP, OFF, MLEN); IP <- IP + MLEN; ANCHOR <- IP`. -/
def afterEmit (s : State) : State :=
  { s with ip := s.ip + s.mlen, anchor := s.ip + s.mlen, ctl := .scan }

/-- The insertions of `insertInside`, then the cursor. -/
def emitEnd (s : State) : Host.Outcome State Fault Refusal := (insertInside s).outcome fun _ s => afterEmit s

/-- The match emitted: from the cursor, or with `BACKWARD_EXTEND` from before it and longer by as much. -/
def emitStep (s : State) : Host.Outcome State Fault Refusal :=
  match matchStart s with
  | .ok b _ =>
    match exec (.emitSeq s.anchor b s.off (s.mlen + (s.ip - b))) s with
    | .next t => emitEnd t
    | .fault f => .fault f
    | .refused r => .refused r
  | .err e s => .next (raise e s)
  | .fault f => .fault f

/-! ### The decompressor, a whole sequence a step -/

/-- The sequence at `IP` is decoded and executed. Where the remaining bytes hold no whole sequence, `PARSE_SEQUENCE` runs
up to the check that fails (R205, R208; log entry 15). -/
def sequenceStep (s : State) : Host.Outcome State Fault Refusal :=
  withRest s fun bs =>
    match decode .sequence bs with
    | .ok (i, _) => exec i s
    | .error _ => exec .parseSequence s

/-! ### The decompressor, an operation a step (R205) -/

/-- An operation of R205, then the line after it. -/
def opStep (i : Instr) (next : Ctl) (s : State) : Host.Outcome State Fault Refusal :=
  andThen (exec i s) fun s => { s with ctl := next }

/-- `END_TEST`: true, `finish`; else the offset. -/
def afterEndTest (s : State) : State :=
  if s.ret = .bit true then finish s else { s with ctl := .readOffset }

/-! ### The decompressor, a field a step -/

/-- One field of the stream: its element is decoded and executed; where the bytes end inside it, `TruncatedInput` (R208). -/
def fieldStep (c : Ctx) (after : Instr → State → State) (s : State) : Host.Outcome State Fault Refusal :=
  withRest s fun bs =>
    match decode c bs with
    | .ok (i, _) => andThen (exec i s) (after i)
    | .error _ => .next (raise .truncatedInput s)

/-- The head of `DECODE_LENGTH` (R123): `n <- sel`, the test on the selector alone, and whether extension bytes follow. -/
def lenHead (sel bias : Nat) (ext : Ctl) (done : State → State) (s : State) : Host.Outcome State Fault Refusal :=
  if sel + bias > room s then .next (raise .lengthOverflow { s with lenAcc := sel, lenBias := bias })
  else if sel = 15 then .next { s with lenAcc := sel, lenBias := bias, ctl := ext }
  else .next (done { s with lenAcc := sel, lenBias := bias })

/-- The end of `READ_LITLEN` (R201). -/
def endLitlen (s : State) : State := { s with litlen := s.lenAcc, ctl := .copyLiterals }

/-- The end of `READ_MATCHLEN` (R203). -/
def endMatchlen (s : State) : State := { s with mlen := s.lenAcc + 4, ctl := .copyMatch }

/-- After an extension byte: another follows a `LENEXT.CONT`; a `LENEXT.END` ends the length (R93). -/
def afterExt (done : State → State) (i : Instr) (s : State) : State :=
  if i = .lenextCont then s else done s

/-- The test of `COPY_LITERALS` before the first byte (R220). -/
def literalsHead (s : State) : Host.Outcome State Fault Refusal :=
  withRest s fun bs =>
    if bs.length < s.litlen then .next (raise .truncatedInput s)
    else .next { s with ctl := .literals s.litlen }

/-! ### The engine -/

/-- The line the engine stands at, run. -/
def engineStep (s : State) : Host.Outcome State Fault Refusal :=
  match s.ctl with
  | .rest => .next s
  | .scan => scanStep s
  | .lookahead => lookaheadStep s
  | .emit => emitStep s
  | .sequence => sequenceStep s
  | .fetchToken => opStep .fetchToken .readLitlen s
  | .readLitlen =>
    if s.grain = .field then lenHead (litSel s.tok) 0 .litExt endLitlen s else opStep .readLitlen .copyLiterals s
  | .litExt => fieldStep .lenext (afterExt endLitlen) s
  | .copyLiterals => if s.grain = .field then literalsHead s else opStep .copyLiterals .endTest s
  | .literals 0 => .next { s with ctl := .endTest }
  | .literals (n + 1) => fieldStep .literal (fun _ s => { s with ctl := .literals n }) s
  | .endTest => andThen (exec .endTest s) afterEndTest
  | .readOffset =>
    if s.grain = .field then fieldStep .offset (fun _ s => { s with ctl := .readMatchlen }) s
    else opStep .readOffset .readMatchlen s
  | .readMatchlen =>
    if s.grain = .field then lenHead (matchSel s.tok) 4 .matchExt endMatchlen s
    else opStep .readMatchlen .copyMatch s
  | .matchExt => fieldStep .lenext (afterExt endMatchlen) s
  | .copyMatch => opStep .copyMatch (entryCtl s.grain) s

/-- The engine's turn: it moves only while BUSY (R311: "the core does nothing until the host writes `CMD`"). -/
def engineTurn (s : State) : Host.Outcome State Fault Refusal :=
  if s.status = .busy then engineStep s else .next s

/-! ### Placing an instruction where the next step fetches it (log entry 14) -/

/-- A decompression stands before the bytes, which end the input: as after a start whose input had them at `IP`. -/
def placeStream (c : Ctl) (g : Grain) (bs : List Byte) (s : State) : State :=
  { s with
    host := [], status := .busy, ctl := c, grain := g
    inMem := Cells.writeRun s.inMem s.ip bs, nreg := s.ip + bs.length, lim := s.outLimit }

/-- A word of the opcode table, placed by what it is: a command at the host's port, an offset or a sequence at `IP`. -/
def placeWord (nbits w : Nat) (s : State) : State :=
  match tableCtx nbits w with
  | .command => { s with host := .write .cmd w :: s.host }
  | .offset => placeStream .readOffset .field (tableBytes nbits w) s
  | _ => placeStream .sequence .sequence (tableBytes nbits w) s

end Sys2Proof.Machine
end

