-- ==== Sys2Proof/Machine/HostPort.lean ====
section
/-! DEFINITION. The host's moves (R31, R259, R310): what each does to the state. -/

namespace Sys2Proof.Machine

/-- A host access that is legal only while `STATUS` is not BUSY (R31, R317; log entry 9). -/
def unlessBusy (s : State) (o : Host.Outcome State Fault Refusal) : Host.Outcome State Fault Refusal :=
  if s.status = .busy then .refused .hostAccessWhileBusy else o

/-- A value for a `POS_W`-bit register (R31; log entry 10). -/
def ifFits (v : Nat) (s t : State) : Host.Outcome State Fault Refusal :=
  if v < 2 ^ posW s.cfg then .next t else .refused .valueTooWide

/-- A register write (R31). `CMD` starts what its value names, in any `STATUS` (R32, R253); read-only registers ignore
the write. -/
def hostWrite (r : CReg) (v : Nat) (s : State) : Host.Outcome State Fault Refusal :=
  match r with
  | .cmd => if v < 4 then exec (decodeCommand (BitVec.ofNat 2 v)) s else .refused .valueTooWide
  | .status => unlessBusy s (.next s)
  | .err => unlessBusy s (.next s)
  | .outLen => unlessBusy s (.next s)
  | .inLen => unlessBusy s (ifFits v s { s with inLen := v })
  | .outLimit => unlessBusy s (ifFits v s { s with outLimit := v })
  | .sizeHint => unlessBusy s (ifFits v s { s with sizeHint := v })

/-- A register read (R31): `STATUS` at any time, the others only while not BUSY. -/
def hostRead (r : CReg) (s : State) : Host.Outcome State Fault Refusal :=
  if r = .status then .next { s with hostData := some (s.readReg r) }
  else unlessBusy s (.next { s with hostData := some (s.readReg r) })

/-- A byte written to IN (R41, R43; log entry 20). -/
def hostWriteIn (pos : Nat) (b : Byte) (s : State) : Host.Outcome State Fault Refusal :=
  unlessBusy s
    (if pos < maxCsize s.cfg then .next { s with inMem := Cells.write s.inMem pos b } else .fault .noSuchPosition)

/-- The byte of OUT the host sees: of the result `OUT[0..OUT_LEN)` after DONE, else a free value (R42, U1; log entry 5). -/
def hostOutByte (pos : Nat) (s : State) : Byte :=
  if s.status = .done ∧ pos < s.outLen then s.outAt pos else Config.freeOut s.outEra pos

/-- A byte read from OUT (R42, R43; log entry 20). -/
def hostReadOut (pos : Nat) (s : State) : Host.Outcome State Fault Refusal :=
  unlessBusy s
    (if pos < maxCsize s.cfg then .next { s with hostData := some (hostOutByte pos s).toNat }
     else .fault .noSuchPosition)

/-- A reset (R310), at any time: every register at its reset value, every byte of IN and OUT unspecified again. The
configuration, the grain and the host's own side stay (log entry 17). -/
def hostReset (s : State) : State :=
  { State.resetIn s.cfg with
    grain := s.grain, host := s.host, hostData := s.hostData, inEra := s.inEra + 1, outEra := s.outEra + 1 }

/-- A move of the host, already taken from the list. `wait` is over when it gets here. -/
def hostTurn (m : HostMove) (s : State) : Host.Outcome State Fault Refusal :=
  match m with
  | .write r v => hostWrite r v s
  | .read r => hostRead r s
  | .writeIn pos b => hostWriteIn pos b s
  | .readOut pos => hostReadOut pos s
  | .wait => .next s
  | .reset => .next (hostReset s)

end Sys2Proof.Machine
end

