-- ==== Sys2Proof/Machine/Step.lean ====
section
/-! DEFINITION. One step of the machine. -/

namespace Sys2Proof.Machine

/-- One step (log entry 7). The host's next move comes first; where it waits for the end of the operation (R315), or has
no move, the engine runs one line. -/
def step (s : State) : Host.Outcome State Fault Refusal :=
  match s.host with
  | [] => engineTurn s
  | .wait :: rest => if s.status = .busy then engineTurn s else .next { s with host := rest }
  | m :: rest => hostTurn m { s with host := rest }

/-- A word of the opcode table stored where `step` fetches its next instruction (log entry 14). -/
def State.withFetchWord (s : State) (nbits w : Nat) : State := placeWord nbits w s

/-- `n` steps, one after the other. -/
def steps : Nat → State → Host.Outcome State Fault Refusal
  | 0, s => .next s
  | n + 1, s =>
    match step s with
    | .next t => steps n t
    | .fault r => .fault r
    | .refused r => .refused r

end Sys2Proof.Machine
end

