-- ==== Sys2Proof/Safety.lean ====
section
/-! DEFINITION. The terms in which statements about the machine are made: the invariant of the machine, what a host sees
of an operation, and the reference readings of the stream the machine is held against. -/

namespace Sys2Proof.Machine

/-! ### The invariant -/

/-- Memories and table in canonical form, with every key inside its space (R41, R42, R39). -/
structure Canonical (s : State) : Prop where
  inWf : Memory.wf s.inMem
  outWf : Memory.wf s.out
  htWf : Table.wf s.ht
  inPos : ∀ p ∈ s.inMem, p.1 < maxCsize s.cfg
  outPos : ∀ p ∈ s.out, p.1 < maxCsize s.cfg
  htPos : ∀ p ∈ s.ht, p.1 < 2 ^ s.cfg.hashLog
  htDepth : ∀ p ∈ s.ht, p.2.length ≤ s.cfg.candidateDepth

/-- Every register fits its width (R8, R14, R26, R31). -/
structure Widths (s : State) : Prop where
  inLen : s.inLen < 2 ^ posW s.cfg
  outLen : s.outLen < 2 ^ posW s.cfg
  outLimit : s.outLimit < 2 ^ posW s.cfg
  sizeHint : s.sizeHint < 2 ^ posW s.cfg
  ip : s.ip < 2 ^ posW s.cfg
  op : s.op < 2 ^ posW s.cfg
  nreg : s.nreg < 2 ^ posW s.cfg
  anchor : s.anchor < 2 ^ posW s.cfg
  lim : s.lim < 2 ^ posW s.cfg
  mlen : s.mlen < 2 ^ posW s.cfg
  litlen : s.litlen < 2 ^ lenW s.cfg
  hidx : s.hidx < 2 ^ s.cfg.hashLog
  cand : s.cand.length ≤ s.cfg.candidateDepth ∧ ∀ p ∈ s.cand, p < 2 ^ posW s.cfg

/-- Every byte of `OUT[0..n)` has been written. -/
def Written (s : State) (n : Nat) : Prop := ∀ a < n, (Cells.read s.out a).isSome

/-- What holds while `COMPRESS` runs: the pending literal run is `IN[ANCHOR..IP)` (R24), the cursor is inside the input
(R29), and what has been emitted is within the size bound of R181 for the input it stands for. -/
structure Compressing (s : State) : Prop where
  input : s.nreg ≤ s.cfg.maxSize
  run : s.anchor ≤ s.ip
  cursor : s.ip ≤ s.nreg
  size : 255 * s.op ≤ 256 * s.anchor
  written : Written s s.op

/-- What holds while `DECOMPRESS` runs: the cursor inside the input (R28), the output inside the limit (R273). -/
structure Decompressing (s : State) : Prop where
  input : s.nreg ≤ maxCsize s.cfg
  cursor : s.ip ≤ s.nreg
  output : s.op ≤ s.lim
  limit : s.lim ≤ s.cfg.maxSize
  written : Written s s.op

/-- HT holds only positions before `p` (R153). -/
def TableBelow (s : State) (p : Nat) : Prop := ∀ h, ∀ c ∈ s.bucket h, c < p

/-- The lines of `COMPRESS`. -/
abbrev Ctl.compresses (c : Ctl) : Prop := c = .scan ∨ c = .lookahead ∨ c = .emit

/-- The candidate is in reach of the cursor, and `m` bytes from it on are the bytes from the cursor on (R143, R144). -/
def Repeats (s : State) (c m : Nat) : Prop := s.ip - c ≤ 65535 ∧ ∀ i < m, s.inAt (c + i) = s.inAt (s.ip + i)

/-- A match that may be emitted at the cursor (R151). -/
structure Found (s : State) : Prop where
  offPos : 1 ≤ s.off.toNat
  offBack : s.off.toNat ≤ s.ip
  long : 4 ≤ s.mlen
  ends : s.ip + s.mlen + 5 ≤ s.nreg
  same : ∀ i < s.mlen, s.inAt (s.ip - s.off.toNat + i) = s.inAt (s.ip + i)

/-- The offset in `OFF` reaches back into the output (R202). -/
def OffsetValid (s : State) : Prop := 1 ≤ s.off.toNat ∧ s.off.toNat ≤ s.op

/-- What holds at each line of the pseudocode. -/
def AtLine (s : State) : Prop :=
  match s.ctl with
  | .rest => True
  | .scan => Compressing s ∧ TableBelow s s.ip
  | .lookahead => Compressing s ∧ TableBelow s (s.ip + 1) ∧ Found s
  | .emit => Compressing s ∧ TableBelow s (s.ip + 2) ∧ Found s
  | .sequence => Decompressing s
  | .fetchToken => Decompressing s
  | .readLitlen => Decompressing s
  | .litExt => Decompressing s ∧ s.lenBias = 0 ∧ s.lenAcc ≤ room s
  | .copyLiterals => Decompressing s ∧ s.litlen ≤ room s
  | .literals n => Decompressing s ∧ n ≤ room s ∧ n ≤ s.nreg - s.ip
  | .endTest => Decompressing s
  | .readOffset => Decompressing s
  | .readMatchlen => Decompressing s ∧ OffsetValid s
  | .matchExt => Decompressing s ∧ OffsetValid s ∧ s.lenBias = 4 ∧ s.lenAcc + 4 ≤ room s
  | .copyMatch => Decompressing s ∧ OffsetValid s ∧ s.mlen ≤ room s

/-- The invariant of the machine. -/
structure Invariant (s : State) : Prop where
  cfg : s.cfg.ok
  canonical : Canonical s
  widths : Widths s
  /-- An operation runs exactly while `STATUS` is BUSY (R33). -/
  busy : s.status = .busy ↔ s.ctl ≠ .rest
  /-- "`KIND != 0` exactly when `STATUS.STATE = ERROR`" (R34). -/
  error : s.err.isSome ↔ s.status = .error
  /-- There is a result only after DONE (R37, R251, R280). -/
  result : s.status ≠ .done → s.outLen = 0
  /-- The whole result has been written (R255). -/
  written : Written s s.outLen
  line : AtLine s

/-! ### What a host sees of an operation (R250) -/

/-- The host makes no move: it has none to make, or waits for the end of the operation (R259, R315). -/
def HostIdle (s : State) : Prop := s.host = [] ∨ ∃ h, s.host = .wait :: h

/-- The state a host starts an operation from: none runs, and the host makes no further move but to wait for its end
(R259, R315). -/
def Ready (s : State) : Prop := s.status ≠ .busy ∧ (s.host = [] ∨ s.host = [.wait])

/-- IN holds exactly these bytes as its input (R35, R41). -/
def Loaded (s : State) (bs : List Byte) : Prop := s.inLen = bs.length ∧ s.inRun 0 bs.length = bs

/-- The bytes from the cursor to the end of the input, which lies inside IN. -/
def StreamAt (s : State) (bs : List Byte) : Prop :=
  s.ip ≤ s.nreg ∧ s.nreg ≤ maxCsize s.cfg ∧ s.inRun s.ip (s.nreg - s.ip) = bs

/-- The host-visible end of an operation with an answer of R250: `Ok(bytes)` or `Err(kind)`. -/
def Ended (t : State) : Except ErrKind (List Byte) → Prop
  | .ok bs => t.status = .done ∧ t.err = none ∧ t.outLen = bs.length ∧ t.outRun 0 t.outLen = bs
  | .error e => t.status = .error ∧ t.err = some e ∧ t.outLen = 0

/-- Some number of steps leads from one state to another. -/
def Reaches (s t : State) : Prop := ∃ n, steps n s = .next t

/-- The transaction of R250: the command, executed in a state and run to its end, answers so. -/
def Answers (i : Instr) (s : State) (r : Except ErrKind (List Byte)) : Prop :=
  ∃ t u, exec i s = .next t ∧ Reaches t u ∧ Ended u r

/-- The bytes are appended to OUT and nothing else changes: `OP` moves past them, they are read back from where it stood,
and every other position of OUT lists what it listed. -/
def Appended (s t : State) (bs : List Byte) : Prop :=
  t = { s with out := t.out, op := s.op + bs.length } ∧ t.outRun s.op bs.length = bs ∧
    ∀ a, a < s.op ∨ s.op + bs.length ≤ a → Cells.read t.out a = Cells.read s.out a

/-- The answer is a next state in which the error has been raised (R280): STATUS is ERROR, ERR holds the kind, there is
no result, and no operation runs. -/
def Raises (o : Host.Outcome State Fault Refusal) (e : ErrKind) : Prop :=
  ∃ t, o = .next t ∧ t.status = .error ∧ t.err = some e ∧ t.outLen = 0 ∧ t.ctl = .rest

/-! ### Reference readings of the stream -/

/-- The copy inside a buffer, byte by byte (R221), on a list: `n` bytes from `off` back. -/
def copyBack : Nat → Nat → List Byte → List Byte
  | 0, _, out => out
  | n + 1, off, out => copyBack n off (out ++ [out.getD (out.length - off) 0#8])

/-- The decompression of a stream as one function on byte lists, with the checks in the order of R277; `out` is the
output so far, and `fuel` bounds the number of sequences. -/
def expandFrom (limit : Nat) : Nat → List Byte → List Byte → Except ErrKind (List Byte)
  | 0, _, _ => .error .truncatedInput
  | _ + 1, [], _ => .error .truncatedInput
  | fuel + 1, t :: bs, out =>
    match scanLength (litSel t) 0 (limit - out.length) bs with
    | .overflow _ => .error .lengthOverflow
    | .truncated _ => .error .truncatedInput
    | .value l u =>
      if (bs.drop u).length < l then .error .truncatedInput
      else
        match (bs.drop u).drop l with
        | [] => .ok (out ++ (bs.drop u).take l)
        | [_] => .error .truncatedInput
        | b0 :: b1 :: cs =>
          if offsetOf b0 b1 = 0#16 ∨ (offsetOf b0 b1).toNat > out.length + l then .error .invalidOffset
          else
            match scanLength (matchSel t) 4 (limit - (out.length + l)) cs with
            | .overflow _ => .error .lengthOverflow
            | .truncated _ => .error .truncatedInput
            | .value m v =>
              expandFrom limit fuel (cs.drop v)
                (copyBack (m + 4) (offsetOf b0 b1).toNat (out ++ (bs.drop u).take l))

/-- `DECOMPRESS(S, limit)` of R250 on byte lists. -/
def expand (limit : Nat) (bs : List Byte) : Except ErrKind (List Byte) := expandFrom limit (bs.length + 1) bs []

/-- The fields of a sequence with a match. -/
def seqFields : Instr → Option (List Byte × Half × Nat)
  | .seq lits off mlen => some (lits, off, mlen)
  | .seqXL lits off mlen => some (lits, off, mlen)
  | .seqXM lits off mlen => some (lits, off, mlen)
  | .seqXLM lits off mlen => some (lits, off, mlen)
  | _ => none

/-- The fields of a final sequence. -/
def lastFields : Instr → Option (BitVec 4 × List Byte)
  | .last x lits => some (x, lits)
  | .lastXL x lits => some (x, lits)
  | _ => none

/-- `PARSE(S)` (R209): the sequences of a stream, state-free; `none` is its one error. -/
def parseFrom : Nat → List Byte → Option (List Instr)
  | 0, _ => none
  | fuel + 1, bs =>
    match decodeSequence bs with
    | .error _ => none
    | .ok (i, rest) => if (lastFields i).isSome then some [i] else (parseFrom fuel rest).map (i :: ·)

def parse (bs : List Byte) : Option (List Instr) := parseFrom (bs.length + 1) bs

/-- The encoder constraints (c) to (g) of R180 on the sequences of a stream for an input of `n` bytes, of which `pos`
precede the sequences at hand. -/
def Conforms (mflimit n : Nat) : Nat → List Instr → Prop
  | _, [] => False
  | pos, i :: rest =>
    match seqFields i, lastFields i with
    | some (lits, off, mlen), _ =>
      4 ≤ mlen ∧ 1 ≤ off.toNat ∧ off.toNat ≤ pos + lits.length ∧ pos + lits.length + mlen + 5 ≤ n ∧
        pos + lits.length + mflimit ≤ n ∧ Conforms mflimit n (pos + lits.length + mlen) rest
    | none, some (x, lits) => rest = [] ∧ x = 0#4 ∧ pos + lits.length = n ∧ (5 ≤ n → 5 ≤ lits.length)
    | none, none => False

/-- Where the literal run of each sequence with a match ends in a stream, and how many bytes the stream has produced up to
there (R232); `pos` stream bytes and `made` output bytes precede the bytes at hand. -/
def literalEndsFrom : Nat → Nat → Nat → List Byte → List (Nat × Nat)
  | 0, _, _, _ => []
  | fuel + 1, pos, made, bs =>
    match decodeSequence bs with
    | .error _ => []
    | .ok (i, rest) =>
      match seqFields i with
      | none => []
      | some (lits, _, mlen) =>
        (pos + 1 + extSize lits.length + lits.length, made + lits.length) ::
          literalEndsFrom fuel (pos + (bs.length - rest.length)) (made + lits.length + mlen) rest

def literalEnds (bs : List Byte) : List (Nat × Nat) := literalEndsFrom (bs.length + 1) 0 0 bs

/-- The four rows of a sequence with a match, by their fields. -/
def IsSeq (i : Instr) (lits : List Byte) (off : Half) (mlen : Nat) : Prop := seqFields i = some (lits, off, mlen)

/-- The two rows of a final sequence, by their fields. -/
def IsLast (i : Instr) (x : BitVec 4) (lits : List Byte) : Prop := lastFields i = some (x, lits)

end Sys2Proof.Machine
end

