-- ==== Sys2Proof/Certificates/Slice0/Obligations.lean ====
section
/-! DEFINITION. The statements for the provers. -/

open Sys2Proof Sys2Proof.Machine

/-! ### Reset, commands, the host's port -/

/-- R310, R45, R311: the host registers after reset, at any time, BUSY included; and that the core does nothing, after reset
and whenever no operation runs, until the host makes a move: a wait that is over (log entry 7) changes nothing but itself.
What a reset move keeps (log entry 17), and that the working registers and HT too keep their values while no operation runs
(log entry 26), are the model's choices. -/
def Obligations.ResetSetsHostRegisters : Prop :=
  (∀ c : Config, ∀ t, t = State.resetIn c →
    t.status = .idle ∧ errCode t.err = 0#2 ∧ t.inLen = 0 ∧ t.outLen = 0 ∧ t.outLimit = c.maxSize ∧ t.sizeHint = 0) ∧
  State.reset = State.resetIn State.reset.cfg ∧
  (∀ s rest, s.host = .reset :: rest → ∃ t, step s = .next t ∧
    t.status = .idle ∧ errCode t.err = 0#2 ∧ t.inLen = 0 ∧ t.outLen = 0 ∧ t.outLimit = s.cfg.maxSize ∧ t.sizeHint = 0 ∧
    t.ctl = .rest ∧ t.cfg = s.cfg ∧ t.host = rest) ∧
  ∀ s : State, s.status ≠ .busy →
    (s.host = [] → ∀ n, steps n s = .next s) ∧
    (∀ rest, s.host = .wait :: rest → step s = .next { s with host := rest })

/-- R254: NOP, as an instruction and as a write to CMD, changes no state in any STATUS. -/
def Obligations.NopChangesNothing : Prop :=
  ∀ s : State, exec .nop s = .next s ∧
    ∀ rest, s.host = .write .cmd 0 :: rest → step s = .next { s with host := rest }

/-- R251: the start event of the three starting commands, with the assignments at the head of their engines, and the
refusal outside the precondition. The frame is the whole rest of the state. The model's choices: one step for the event and
the assignments (log entry 24), the refusal (log entry 8), the era of OUT (log entry 22), the line by grain (log entry 6). -/
def Obligations.StartEventOfCommands : Prop :=
  ∀ s : State, s.status ≠ .busy →
    (s.inLen ≤ s.cfg.maxSize ∧ s.outLimit ≤ s.cfg.maxSize →
      exec .compress s = .next { s with
        err := none, outLen := 0, status := .busy, ctl := .scan, outEra := s.outEra + 1
        nreg := s.inLen, ip := 0, op := 0, anchor := 0, ht := [] }) ∧
    (s.inLen ≤ maxCsize s.cfg ∧ s.outLimit ≤ s.cfg.maxSize →
      ∀ i, i = Instr.decompress ∨ i = Instr.decompressInto →
      exec i s = .next { s with
        err := none, outLen := 0, status := .busy, ctl := entryCtl s.grain, outEra := s.outEra + 1
        nreg := s.inLen, ip := 0, op := 0, lim := s.outLimit }) ∧
    (¬ (s.inLen ≤ s.cfg.maxSize ∧ s.outLimit ≤ s.cfg.maxSize) → exec .compress s = .refused .illegalStart) ∧
    (¬ (s.inLen ≤ maxCsize s.cfg ∧ s.outLimit ≤ s.cfg.maxSize) →
      exec .decompress s = .refused .illegalStart ∧ exec .decompressInto s = .refused .illegalStart)

/-- R253: a write of CMD while BUSY has no effect. -/
def Obligations.CommandWhileBusyIgnored : Prop :=
  ∀ (s : State) (v : Nat) (rest : List HostMove), s.status = .busy → v < 4 → s.host = .write .cmd v :: rest →
    step s = .next { s with host := rest } ∧ exec (decodeCommand (BitVec.ofNat 2 v)) s = .next s

/-- R31 to R38: what the host's register accesses do while no operation runs. The list of the host's moves and the value
last read are the model's own (log entry 7). -/
def Obligations.HostRegisterAccess : Prop :=
  ∀ (s : State) (rest : List HostMove), s.status ≠ .busy →
    (∀ v, v < 2 ^ posW s.cfg →
      (s.host = .write .inLen v :: rest → step s = .next { s with host := rest, inLen := v }) ∧
      (s.host = .write .outLimit v :: rest → step s = .next { s with host := rest, outLimit := v }) ∧
      (s.host = .write .sizeHint v :: rest → step s = .next { s with host := rest, sizeHint := v })) ∧
    (∀ r v, r = CReg.status ∨ r = CReg.err ∨ r = CReg.outLen → s.host = .write r v :: rest →
      step s = .next { s with host := rest }) ∧
    (∀ r, s.host = .read r :: rest → step s = .next { s with
      host := rest
      hostData := some (match r with
        | .cmd => 0
        | .status => (match s.status with | .idle => 0 | .busy => 1 | .done => 2 | .error => 3)
        | .err => (match s.err with
          | none => 0 | some .truncatedInput => 1 | some .invalidOffset => 2 | some .lengthOverflow => 3)
        | .inLen => s.inLen
        | .outLen => s.outLen
        | .outLimit => s.outLimit
        | .sizeHint => s.sizeHint) })

/-- R317: while BUSY the host reads STATUS and nothing else; the model refuses every other access but a write of CMD (log
entry 9). -/
def Obligations.HostAccessWhileBusyRefused : Prop :=
  ∀ (s : State) (rest : List HostMove), s.status = .busy →
    (s.host = .read .status :: rest → step s = .next { s with host := rest, hostData := some 1 }) ∧
    (∀ r, r ≠ CReg.status → s.host = .read r :: rest → step s = .refused .hostAccessWhileBusy) ∧
    (∀ r v, r ≠ CReg.cmd → s.host = .write r v :: rest → step s = .refused .hostAccessWhileBusy) ∧
    (∀ p b, s.host = .writeIn p b :: rest → step s = .refused .hostAccessWhileBusy) ∧
    (∀ p, s.host = .readOut p :: rest → step s = .refused .hostAccessWhileBusy)

/-- R41, R42: the host writes bytes of IN and reads the bytes of a result; every other byte it reads from OUT is a free
value (U1; log entry 5). -/
def Obligations.HostWritesInputReadsResult : Prop :=
  ∀ (s : State) (rest : List HostMove) (p : Nat), s.status ≠ .busy → p < maxCsize s.cfg →
    (∀ b, s.host = .writeIn p b :: rest → ∃ t, step s = .next t ∧ t = { s with host := rest, inMem := t.inMem } ∧
      ∀ a, Cells.read t.inMem a = if a = p then some b else Cells.read s.inMem a) ∧
    (s.host = .readOut p :: rest → ∃ b : Byte, step s = .next { s with host := rest, hostData := some b.toNat } ∧
      (s.status = .done ∧ p < s.outLen → b = s.outAt p) ∧
      (¬ (s.status = .done ∧ p < s.outLen) → b = Config.freeOut s.outEra p))

/-- R33, R255, R320, R311: while no operation runs, a step changes nothing but what the host writes and reads, unless it is a
starting write of CMD or a reset: STATUS and ERR persist, and so does the result the host reads. The list of the host's moves
and the value last read are the model's own (log entry 7), and that the working registers and HT keep their values is its
choice (log entry 26). -/
def Obligations.ResultPersists : Prop :=
  ∀ s t : State, s.status ≠ .busy → (∀ v rest, s.host = .write .cmd v :: rest → v = 0) →
    (∀ rest, s.host ≠ .reset :: rest) → step s = .next t →
    t = { s with
      inLen := t.inLen, outLimit := t.outLimit, sizeHint := t.sizeHint, inMem := t.inMem
      host := s.host.tail, hostData := t.hostData } ∧
    ∀ p, hostOutByte p t = hostOutByte p s

/-! ### The length codec -/

/-- R121: what ENCODE_LENGTH appends, and its frame. -/
def Obligations.EncodeLengthAppends : Prop :=
  ∀ (n : Nat) (s : State),
    (n < 15 → exec (.encodeLength n) s = .next s) ∧
    (15 ≤ n → s.op + (n - 15) / 255 + 1 ≤ maxCsize s.cfg → ∃ t, exec (.encodeLength n) s = .next t ∧
      Appended s t (List.replicate ((n - 15) / 255) 255#8 ++ [BitVec.ofNat 8 ((n - 15) % 255)]))

/-- R122: the selector of a length, and the two selectors in the token byte of a sequence. -/
def Obligations.SelIsMinimumWithFifteen : Prop :=
  (∀ (n : Nat) (s : State), exec (.sel n) s = .next { s with ret := .num (min n 15) }) ∧
  ∀ (i : Instr) (lits : List Byte) (off : Half) (mlen : Nat), IsSeq i lits off mlen →
    ∃ bs, encode i = some (BitVec.ofNat 8 (16 * min lits.length 15 + min (mlen - 4) 15) :: bs)

/-- R126: DECODE_LENGTH gives back what ENCODE_LENGTH wrote, advancing IP past it and changing nothing else. -/
def Obligations.DecodeLengthRoundTrip : Prop :=
  ∀ (n bias rm : Nat) (s : State) (rest : List Byte), n + bias ≤ rm → StreamAt s (extBytes n ++ rest) →
    exec (.decodeLength (BitVec.ofNat 4 (selOf n)) bias rm) s =
      .next { s with ip := s.ip + (if n < 15 then 0 else (n - 15) / 255 + 1), ret := .num n }

/-- R123, R124: every way DECODE_LENGTH ends: on the selector alone; on a chain of 255 that ends, is cut short, or is too
long. -/
def Obligations.DecodeLengthCases : Prop :=
  ∀ (sel : BitVec 4) (bias rm : Nat) (s : State) (bs : List Byte), StreamAt s bs →
    (rm < sel.toNat + bias → exec (.decodeLength sel bias rm) s = .next (raise .lengthOverflow s)) ∧
    (sel.toNat + bias ≤ rm → sel.toNat < 15 →
      exec (.decodeLength sel bias rm) s = .next { s with ret := .num sel.toNat }) ∧
    (sel.toNat = 15 → ∀ k,
      (∀ b rest, bs = List.replicate k 255#8 ++ b :: rest → b ≠ 255#8 → 15 + 255 * k + b.toNat + bias ≤ rm →
        exec (.decodeLength sel bias rm) s =
          .next { s with ip := s.ip + k + 1, ret := .num (15 + 255 * k + b.toNat) }) ∧
      (bs = List.replicate k 255#8 → 15 + 255 * k + bias ≤ rm →
        exec (.decodeLength sel bias rm) s = .next (raise .truncatedInput { s with ip := s.nreg })) ∧
      (∀ b rest, bs = List.replicate k 255#8 ++ b :: rest → 15 + 255 * k + bias ≤ rm →
        rm < 15 + 255 * k + b.toNat + bias →
        exec (.decodeLength sel bias rm) s = .next (raise .lengthOverflow { s with ip := s.ip + k + 1 })))

/-- R125: every length has exactly one spelling, and every chain of 255 with a terminator spells one. -/
def Obligations.LengthSpellingUnique : Prop :=
  (∀ (n sel : Nat) (bs : List Byte), sel ≤ 15 →
    (takeLength sel bs = some (n, []) ↔ sel = selOf n ∧ bs = extBytes n)) ∧
  ∀ (k : Nat) (b : Byte) (rest : List Byte), b ≠ 255#8 →
    takeLength 15 (List.replicate k 255#8 ++ b :: rest) = some (15 + 255 * k + b.toNat, rest)

/-! ### The match finder -/

/-- R141: the hash function with the values of R7; that it is total into the buckets for every configuration; and that the
configurations reach every total function into the buckets (D3, U6), by the list of exceptions that is the model's choice
(log entry 25). -/
def Obligations.HashFourValue : Prop :=
  (∀ (v : Word) (s : State), s.cfg.hashMult = 2654435761#32 → s.cfg.hashLog = 12 → s.cfg.hashExceptions = [] →
    exec (.hash4 v) s = .next { s with ret := .num (v.toNat * 2654435761 % 2 ^ 32 / 2 ^ 20) }) ∧
  (∀ (v : Word) (s : State), s.cfg.ok →
    ∃ h, exec (.hash4 v) s = .next { s with ret := .num h } ∧ h < 2 ^ s.cfg.hashLog) ∧
  ∀ (f : Word → Nat) (c : Config), c.ok → (∀ v, f v < 2 ^ c.hashLog) → ∃ c', c'.ok ∧
    c' = { c with hashExceptions := c'.hashExceptions } ∧
    ∀ (v : Word) (s : State), s.cfg = c' → exec (.hash4 v) s = .next { s with ret := .num (f v) }

/-- R142: the lookup comes before the insert; the insert is unconditional and touches one bucket, which with the
CANDIDATE_DEPTH of R7 keeps the one position inserted. That a bucket of another depth keeps the newest positions is the
model's choice (log entry 16). -/
def Obligations.LookupThenInsert : Prop :=
  ∀ (h pos : Nat) (s : State), h < 2 ^ s.cfg.hashLog → ∃ t, exec (.htLookupInsert h pos) s = .next t ∧
    t = { s with ht := t.ht, ret := .entry (s.bucket h) } ∧
    (s.cfg.candidateDepth = 1 → t.bucket h = [pos]) ∧
    ∀ h', t.bucket h' = if h' = h then pos :: (s.bucket h).take (s.cfg.candidateDepth - 1) else s.bucket h'

/-- R143: MATCH_VERIFY compares four bytes at a distance of at most 65535, and changes nothing but the bit it hands back. -/
def Obligations.VerifyComparesFourBytes : Prop :=
  ∀ (c p : Nat) (s : State), c < p → p + 4 ≤ s.nreg → s.nreg ≤ maxCsize s.cfg → ∃ b,
    exec (.matchVerify c p) s = .next { s with ret := .bit b } ∧
    (b = true ↔ p - c ≤ 65535 ∧ s.inAt c = s.inAt p ∧ s.inAt (c + 1) = s.inAt (p + 1) ∧
      s.inAt (c + 2) = s.inAt (p + 2) ∧ s.inAt (c + 3) = s.inAt (p + 3))

/-- R144: MATCH_EXTEND gives the longest match from 4 on that leaves the last five bytes alone. -/
def Obligations.ExtendIsMaximal : Prop :=
  ∀ (c p : Nat) (s : State), c < p → s.nreg ≤ maxCsize s.cfg → ∃ m,
    exec (.matchExtend c p) s = .next { s with ret := .num m } ∧ 4 ≤ m ∧
    (∀ i, 4 ≤ i → i < m → s.inAt (c + i) = s.inAt (p + i)) ∧
    (s.nreg < p + 9 → m = 4) ∧ (p + 9 ≤ s.nreg → p + m + 5 ≤ s.nreg) ∧
    (s.nreg ≤ p + m + 5 ∨ s.inAt (c + m) ≠ s.inAt (p + m))

/-- R145, R152, R149: FIND_MATCH where the sequencer calls it: the registers it writes, the one bucket it overwrites, when
it finds, and what it leaves alone. Of several candidates it takes the longest match, and of equal ones the newest. That the
bucket keeps a list of CANDIDATE_DEPTH positions is the model's choice (log entry 16). -/
def Obligations.FindMatchReports : Prop :=
  ∀ s : State, s.cfg.ok → s.ip + s.cfg.mflimit ≤ s.nreg → s.nreg ≤ maxCsize s.cfg → TableBelow s s.ip →
    ∃ t, exec .findMatch s = .next t ∧
      t = { s with seq4 := t.seq4, hidx := t.hidx, cand := t.cand, ht := t.ht, off := t.off, mlen := t.mlen, ret := t.ret } ∧
      t.seq4.toNat = (s.inAt s.ip).toNat + 2 ^ 8 * (s.inAt (s.ip + 1)).toNat + 2 ^ 16 * (s.inAt (s.ip + 2)).toNat +
        2 ^ 24 * (s.inAt (s.ip + 3)).toNat ∧
      t.hidx = hash4 s.cfg t.seq4 ∧ t.cand = s.bucket t.hidx ∧
      (∀ h, t.bucket h =
        if h = t.hidx then s.ip :: (s.bucket h).take (s.cfg.candidateDepth - 1) else s.bucket h) ∧
      ((t.ret = .bit true ∧ Found t ∧ ∃ newer c older, t.cand = newer ++ c :: older ∧ t.off.toNat = s.ip - c ∧
          Repeats s c t.mlen ∧ (∀ d ∈ newer, ¬ Repeats s d t.mlen) ∧
          (s.ip + t.mlen + 5 = s.nreg ∨ ∀ d ∈ t.cand, ¬ Repeats s d (t.mlen + 1))) ∨
        (t.ret = .bit false ∧ t.off = s.off ∧ t.mlen = s.mlen ∧ ∀ d ∈ t.cand, ¬ Repeats s d 4))

/-- R151: a match found is a match, for any hash function whatever. -/
def Obligations.FindMatchSoundForAnyHash : Prop :=
  ∀ (hash : Word → Nat) (s t : State), TableBelow s s.ip → s.ip + 9 ≤ s.nreg → findMatchWith hash s = .ok true t →
    1 ≤ t.off.toNat ∧ t.off.toNat ≤ 65535 ∧ t.off.toNat ≤ s.ip ∧ 4 ≤ t.mlen ∧ s.ip + t.mlen + 5 ≤ s.nreg ∧
      ∀ i < t.mlen, s.inAt (s.ip - t.off.toNat + i) = s.inAt (s.ip + i)

/-! ### The token encoder -/

/-- R172: the bytes EMIT_SEQ appends, in order, and its frame. -/
def Obligations.EmitSeqAppends : Prop :=
  ∀ (a b : Nat) (off : Half) (mlen : Nat) (s : State), a ≤ b → 4 ≤ mlen → b ≤ s.nreg → s.nreg ≤ maxCsize s.cfg →
    s.op + 3 + extSize (b - a) + (b - a) + extSize (mlen - 4) ≤ maxCsize s.cfg →
    ∃ t, exec (.emitSeq a b off mlen) s = .next t ∧
      Appended s t (BitVec.ofNat 8 (16 * min (b - a) 15 + min (mlen - 4) 15) ::
        (extBytes (b - a) ++ s.inRun a (b - a) ++
          [BitVec.ofNat 8 (off.toNat % 256), BitVec.ofNat 8 (off.toNat / 256)] ++ extBytes (mlen - 4)))

/-- R173: the bytes EMIT_LAST appends, in order, and its frame. -/
def Obligations.EmitLastAppends : Prop :=
  ∀ (a : Nat) (s : State), a ≤ s.nreg → s.nreg ≤ maxCsize s.cfg →
    s.op + 1 + extSize (s.nreg - a) + (s.nreg - a) ≤ maxCsize s.cfg →
    ∃ t, exec (.emitLast a) s = .next t ∧
      Appended s t (BitVec.ofNat 8 (16 * min (s.nreg - a) 15) ::
        (extBytes (s.nreg - a) ++ s.inRun a (s.nreg - a)))

/-! ### The token decoder and the output writer, operation by operation -/

/-- R200: FETCH_TOKEN reads the token byte, or the input has ended. -/
def Obligations.FetchTokenReadsByte : Prop :=
  ∀ s : State,
    (∀ b bs, StreamAt s (b :: bs) → exec .fetchToken s = .next { s with tok := b, ip := s.ip + 1 }) ∧
    (StreamAt s [] → exec .fetchToken s = .next (raise .truncatedInput s))

/-- R201, R203: READ_LITLEN and READ_MATCHLEN: the length their selector and extension bytes spell, against the room. -/
def Obligations.LengthReadsFollowTheToken : Prop :=
  ∀ (n : Nat) (s : State) (rest : List Byte), StreamAt s (extBytes n ++ rest) →
    (s.tok.toNat / 16 = min n 15 →
      (n ≤ s.lim - s.op → exec .readLitlen s = .next { s with ip := s.ip + extSize n, litlen := n }) ∧
      (s.lim - s.op < n → Raises (exec .readLitlen s) .lengthOverflow)) ∧
    (s.tok.toNat % 16 = min n 15 →
      (n + 4 ≤ s.lim - s.op → exec .readMatchlen s = .next { s with ip := s.ip + extSize n, mlen := n + 4 }) ∧
      (s.lim - s.op < n + 4 → Raises (exec .readMatchlen s) .lengthOverflow))

/-- R202: READ_OFFSET reads two bytes, low first; one byte or none is truncated; 0 and anything above OP is invalid. -/
def Obligations.ReadOffsetChecks : Prop :=
  ∀ s : State,
    (∀ b0 b1 rest, StreamAt s (b0 :: b1 :: rest) → ∀ v, v = b0.toNat + 256 * b1.toNat →
      (1 ≤ v ∧ v ≤ s.op → exec .readOffset s = .next { s with off := BitVec.ofNat 16 v, ip := s.ip + 2 }) ∧
      (v = 0 ∨ s.op < v →
        exec .readOffset s = .next (raise .invalidOffset { s with off := BitVec.ofNat 16 v, ip := s.ip + 2 }))) ∧
    (∀ bs, bs.length < 2 → StreamAt s bs → exec .readOffset s = .next (raise .truncatedInput s))

/-- R204: END_TEST says whether the input is used up, and changes nothing else. -/
def Obligations.EndTestComparesCursor : Prop :=
  ∀ s : State, (s.ip = s.nreg → exec .endTest s = .next { s with ret := .bit true }) ∧
    (s.ip ≠ s.nreg → exec .endTest s = .next { s with ret := .bit false })

/-- R220: COPY_LITERALS appends LITLEN input bytes, or the input is too short and nothing is copied. -/
def Obligations.CopyLiteralsAllOrNothing : Prop :=
  ∀ (s : State) (lits rest : List Byte),
    (StreamAt s (lits ++ rest) → lits.length = s.litlen → s.op + s.litlen ≤ maxCsize s.cfg →
      ∃ t, exec .copyLiterals s = .next t ∧ Appended { s with ip := s.ip + s.litlen } t lits) ∧
    (StreamAt s lits → lits.length < s.litlen → exec .copyLiterals s = .next (raise .truncatedInput s))

/-- R222: the periodicity law of COPY_MATCH, and its frame. -/
def Obligations.CopyMatchPeriodic : Prop :=
  ∀ s : State, 1 ≤ s.off.toNat → s.off.toNat ≤ s.op → s.op + s.mlen ≤ maxCsize s.cfg →
    ∃ t bs, exec .copyMatch s = .next t ∧ bs.length = s.mlen ∧ Appended s t bs ∧
      ∀ i < s.mlen, t.outAt (s.op + i) = s.outAt (s.op - s.off.toNat + i % s.off.toNat)

/-- R205, R227, R228: PARSE_SEQUENCE on the bytes of a sequence does what that sequence does, in every outcome. -/
def Obligations.ParseSequenceRunsTheDecoded : Prop :=
  ∀ (s : State) (bs rest : List Byte) (i : Instr), StreamAt s bs → decodeSequence bs = .ok (i, rest) →
    exec .parseSequence s = exec i s

/-- R205: PARSE_SEQUENCE completes on a sequence that passes the checks, and delivers its tuple (in the model's field
`ret`, log entry 12). -/
def Obligations.ParseSequenceDelivers : Prop :=
  ∀ (s : State) (lits : List Byte) (off : Half) (mlen : Nat) (rest : List Byte), s.op + lits.length ≤ s.lim →
    s.lim ≤ s.cfg.maxSize →
    (StreamAt s (sequenceBytes lits off mlen ++ rest) → 4 ≤ mlen → 1 ≤ off.toNat → off.toNat ≤ s.op + lits.length →
      s.op + lits.length + mlen ≤ s.lim → ∃ t, exec .parseSequence s = .next t ∧ t.status = s.status ∧
        t.ret = .tuple lits (some (off, mlen)) ∧ t.op = s.op + lits.length + mlen ∧
        StreamAt t rest) ∧
    (∀ x, StreamAt s (finalBytes x lits) → ∃ t, exec .parseSequence s = .next t ∧ t.status = .done ∧
      t.ret = .tuple lits none ∧ t.outLen = s.op + lits.length ∧ t.ip = s.nreg)

/-! ### The stream's instructions -/

/-- R228: a sequence with a match, of any of the four rows, that passes the checks: its literals, then its match bytes with
source start `OP0 + l - off`; the cursor; the registers it sets; nothing else but the tuple delivered (log entry 12). -/
def Obligations.SequenceAppendsLiteralsAndMatch : Prop :=
  ∀ (i : Instr) (lits : List Byte) (off : Half) (mlen : Nat) (s : State), IsSeq i lits off mlen →
    4 ≤ mlen → lits.length ≤ s.lim - s.op → 1 ≤ off.toNat → off.toNat ≤ s.op + lits.length →
    mlen ≤ s.lim - (s.op + lits.length) → s.op + lits.length + mlen ≤ maxCsize s.cfg →
    ∃ t bs, exec i s = .next t ∧ bs.length = mlen ∧
      Appended { s with
        tok := BitVec.ofNat 8 (16 * min lits.length 15 + min (mlen - 4) 15), litlen := lits.length, off := off, mlen := mlen
        ip := s.ip + 1 + extSize lits.length + lits.length + 2 + extSize (mlen - 4)
        ret := .tuple lits (some (off, mlen)) } t (lits ++ bs) ∧
      ∀ j < mlen, t.outAt (s.op + lits.length + j) = t.outAt (s.op + lits.length - off.toNat + j % off.toNat)

/-- R227: a final sequence, of either row, that passes the check: its literals, the cursor, the end with success, nothing
else but the tuple delivered (log entry 12). -/
def Obligations.FinalSequenceEndsWithSuccess : Prop :=
  ∀ (i : Instr) (x : BitVec 4) (lits : List Byte) (s : State), IsLast i x lits →
    lits.length ≤ s.lim - s.op → s.op + lits.length ≤ maxCsize s.cfg →
    ∃ t, exec i s = .next t ∧
      Appended { s with
        tok := BitVec.ofNat 8 (16 * min lits.length 15 + x.toNat), litlen := lits.length
        ip := s.ip + 1 + extSize lits.length + lits.length, ret := .tuple lits none
        outLen := s.op + lits.length, status := .done, ctl := .rest } t lits

/-- R228, R277: the errors of a sequence, in the order of the checks. -/
def Obligations.SequenceErrorsInOrder : Prop :=
  ∀ (i : Instr) (lits : List Byte) (s : State), s.op + lits.length ≤ maxCsize s.cfg →
    (∀ off mlen, IsSeq i lits off mlen →
      (s.lim - s.op < lits.length → Raises (exec i s) .lengthOverflow) ∧
      (lits.length ≤ s.lim - s.op → off.toNat = 0 ∨ s.op + lits.length < off.toNat →
        Raises (exec i s) .invalidOffset) ∧
      (lits.length ≤ s.lim - s.op → 1 ≤ off.toNat → off.toNat ≤ s.op + lits.length → 4 ≤ mlen →
        s.lim - (s.op + lits.length) < mlen → Raises (exec i s) .lengthOverflow)) ∧
    (∀ x, IsLast i x lits → s.lim - s.op < lits.length → Raises (exec i s) .lengthOverflow)

/-- R93, R123, R202, R220: the four elements of the stream: what each adds, where it raises, and what it leaves alone. The
running length and its bias are registers of the model (log entry 2). -/
def Obligations.ElementsOfTheStream : Prop :=
  ∀ s : State,
    (∀ v i, (i = Instr.lenextCont ∧ v = 255#8) ∨ i = Instr.lenextEnd v →
      ∀ t, t = { s with ip := s.ip + 1, lenAcc := s.lenAcc + v.toNat } →
        (t.lenAcc + s.lenBias ≤ s.lim - s.op → exec i s = .next { t with ret := .num t.lenAcc }) ∧
        (s.lim - s.op < t.lenAcc + s.lenBias → exec i s = .next (raise .lengthOverflow t))) ∧
    (∀ b, s.op < maxCsize s.cfg → ∃ t, exec (.literal b) s = .next t ∧ Appended { s with ip := s.ip + 1 } t [b]) ∧
    (∀ off : Half,
      (1 ≤ off.toNat ∧ off.toNat ≤ s.op → exec (.offset off) s = .next { s with off := off, ip := s.ip + 2 }) ∧
      (off.toNat = 0 ∨ s.op < off.toNat →
        exec (.offset off) s = .next (raise .invalidOffset { s with off := off, ip := s.ip + 2 })))

/-- R278: which error is reported where two conditions hold at once. -/
def Obligations.ErrorPriority : Prop :=
  ∀ (s : State) (t : Byte) (rest : List Byte),
    -- the literal length exceeds both the room and the bytes left
    (∀ n, litSel t = selOf n → StreamAt s (t :: (extBytes n ++ rest)) → s.lim - s.op < n → rest.length < n →
      Raises (exec .parseSequence s) .lengthOverflow) ∧
    -- literal selector 15, no byte follows, and the room is below 15
    (litSel t = 15 → StreamAt s [t] → s.lim - s.op < 15 → Raises (exec .parseSequence s) .lengthOverflow) ∧
    -- the offset is invalid, whatever follows it
    (∀ lits b0 b1, litSel t = selOf lits.length → lits.length ≤ s.lim - s.op → s.op + lits.length ≤ maxCsize s.cfg →
      StreamAt s (t :: (extBytes lits.length ++ lits ++ b0 :: b1 :: rest)) →
      b0.toNat + 256 * b1.toNat = 0 ∨ s.op + lits.length < b0.toNat + 256 * b1.toNat →
      Raises (exec .parseSequence s) .invalidOffset) ∧
    -- only one byte where the offset should be
    (∀ lits b0, litSel t = selOf lits.length → lits.length ≤ s.lim - s.op → s.op + lits.length ≤ maxCsize s.cfg →
      StreamAt s (t :: (extBytes lits.length ++ lits ++ [b0])) → Raises (exec .parseSequence s) .truncatedInput) ∧
    -- a chain of 255 that is cut short: too long already, or not
    (∀ k, litSel t = 15 → StreamAt s (t :: List.replicate k 255#8) →
      (s.lim - s.op < 15 + 255 * k → Raises (exec .parseSequence s) .lengthOverflow) ∧
      (15 + 255 * k ≤ s.lim - s.op → Raises (exec .parseSequence s) .truncatedInput)) ∧
    -- the same in the match length, after a valid offset
    (∀ lits b0 b1 k, litSel t = selOf lits.length → matchSel t = 15 → lits.length ≤ s.lim - s.op →
      s.op + lits.length ≤ maxCsize s.cfg →
      StreamAt s (t :: (extBytes lits.length ++ lits ++ b0 :: b1 :: List.replicate k 255#8)) →
      1 ≤ b0.toNat + 256 * b1.toNat → b0.toNat + 256 * b1.toNat ≤ s.op + lits.length →
      (s.lim - (s.op + lits.length) < 15 + 255 * k + 4 → Raises (exec .parseSequence s) .lengthOverflow) ∧
      (15 + 255 * k + 4 ≤ s.lim - (s.op + lits.length) → Raises (exec .parseSequence s) .truncatedInput))

/-! ### Encoding -/

/-- Decode and encode agree: every well-formed coded instruction is read back from its bytes, with every operand. A final
sequence is one that nothing follows. -/
def Obligations.DecodeOfEncode : Prop :=
  ∀ (i : Instr) (bs rest : List Byte), wellFormed i = true → encode i = some bs →
    (lastFields i ≠ none → rest = []) → ∃ c, ctxOf i = some c ∧ decode c (bs ++ rest) = .ok (i, rest)

/-- Encode and decode agree the other way: what is read is well formed, is read at its own place, and its bytes are the
bytes read. No bit is dropped. -/
def Obligations.EncodeOfDecode : Prop :=
  ∀ (c : Ctx) (bs rest : List Byte) (i : Instr), decode c bs = .ok (i, rest) →
    wellFormed i = true ∧ ctxOf i = some c ∧ ∃ used, encode i = some used ∧ bs = used ++ rest

/-- R108: the length in bytes of a sequence. -/
def Obligations.SequenceLengthInBytes : Prop :=
  ∀ (i : Instr) (bs : List Byte), encode i = some bs →
    (∀ lits off mlen, IsSeq i lits off mlen →
      bs.length = 1 + (if lits.length < 15 then 0 else (lits.length - 15) / 255 + 1) + lits.length + 2 +
        (if mlen - 4 < 15 then 0 else (mlen - 4 - 15) / 255 + 1)) ∧
    (∀ x lits, IsLast i x lits →
      bs.length = 1 + (if lits.length < 15 then 0 else (lits.length - 15) / 255 + 1) + lits.length)

/-- Words written out from the spec's encodings decode to the instructions they stand for (R92, R102, the streams of
95_test_vectors.md). -/
def Obligations.WordsOfTheSpecDecode : Prop :=
  decode .sequence [0x11#8, 0x61#8, 0x01#8, 0x00#8, 0x50#8] = .ok (.seq [0x61#8] 1#16 5, [0x50#8]) ∧
  decode .sequence [0x1F#8, 0x61#8, 0x01#8, 0x00#8, 0x00#8, 0x00#8] = .ok (.seqXM [0x61#8] 1#16 19, [0x00#8]) ∧
  decode .sequence [0x50#8, 0x64#8, 0x61#8, 0x62#8, 0x63#8, 0x64#8] =
    .ok (.last 0#4 [0x64#8, 0x61#8, 0x62#8, 0x63#8, 0x64#8], []) ∧
  decode .sequence [0x0F#8] = .ok (.last 15#4 [], []) ∧
  decode .lenext [0xFF#8, 0x0A#8] = .ok (.lenextCont, [0x0A#8]) ∧
  decode .lenext [0x0A#8] = .ok (.lenextEnd 10#8, []) ∧
  decode .offset [0x00#8, 0x01#8] = .ok (.offset 256#16, []) ∧
  decode .command [0x03#8] = .ok (.decompressInto, [])

/-! ### Steps -/

/-- A step runs the decoded instruction: the sequence at IP, the command the host writes, the field at IP (by the grain, the
model's choice, log entry 6). Where the remaining bytes hold no whole sequence it runs PARSE_SEQUENCE (log entry 15). -/
def Obligations.StepRunsDecodedInstruction : Prop :=
  (∀ (s : State) (v : Nat) (b : Byte) (rest : List HostMove) (i : Instr), s.host = .write .cmd v :: rest → v < 4 →
    b.toNat = v → decode .command [b] = .ok (i, []) → step s = exec i { s with host := rest }) ∧
  ∀ (s : State) (bs : List Byte), s.status = .busy → s.host = [] ∨ (∃ h, s.host = .wait :: h) → StreamAt s bs →
    (s.ctl = .sequence →
      (∀ i rest, decode .sequence bs = .ok (i, rest) → step s = exec i s) ∧
      (∀ e, decode .sequence bs = .error e → step s = exec .parseSequence s)) ∧
    (∀ i rest, s.ctl = .litExt → decode .lenext bs = .ok (i, rest) →
      step s = andThen (exec i s) (fun t =>
        if i = .lenextCont then t else { t with litlen := t.lenAcc, ctl := .copyLiterals })) ∧
    (∀ i rest, s.ctl = .matchExt → decode .lenext bs = .ok (i, rest) →
      step s = andThen (exec i s) (fun t =>
        if i = .lenextCont then t else { t with mlen := t.lenAcc + 4, ctl := .copyMatch })) ∧
    (∀ i rest n, s.ctl = .literals (n + 1) → decode .literal bs = .ok (i, rest) →
      step s = andThen (exec i s) (fun t => { t with ctl := .literals n })) ∧
    (∀ i rest, s.ctl = .readOffset → s.grain = .field → decode .offset bs = .ok (i, rest) →
      step s = andThen (exec i s) (fun t => { t with ctl := .readMatchlen }))

/-- R176, R177, R123, R205, R220, R224: what each line of the two sequencers does, at every grain. One line a step is the
model's choice (log entry 6); so are the lines of LAZY and what BACKWARD_EXTEND and INSERT_INSIDE_MATCH add (log entry
16). -/
def Obligations.StepRunsSequencerLine : Prop :=
  ∀ s : State, s.status = .busy → HostIdle s →
    -- COMPRESS: the loop head, the end of the loop, the lookahead, the match emitted
    (s.ctl = .scan → s.ip + s.cfg.mflimit ≤ s.nreg → ∀ t, exec .findMatch s = .next t → t.status = .busy →
      step s = .next (if t.ret = .bit true then { t with ctl := if t.cfg.lazy then .lookahead else .emit }
        else { t with ip := t.ip + t.cfg.scanStep })) ∧
    (s.ctl = .scan → s.nreg < s.ip + s.cfg.mflimit → s.nreg ≠ 0 →
      ∀ t, exec (.emitLast s.anchor) s = .next t → t.status = .busy →
      step s = .next { t with outLen := t.op, status := .done, ctl := .rest }) ∧
    (s.ctl = .scan → s.nreg < s.ip + s.cfg.mflimit → s.nreg = 0 → s.op + s.cfg.emptyOutput.length ≤ maxCsize s.cfg →
      ∃ t, step s = .next t ∧ Appended { s with
        outLen := s.op + s.cfg.emptyOutput.length, status := .done, ctl := .rest } t s.cfg.emptyOutput) ∧
    (s.ctl = .lookahead → s.nreg < s.ip + 1 + s.cfg.mflimit → step s = .next { s with ctl := .emit }) ∧
    (s.ctl = .lookahead → s.ip + 1 + s.cfg.mflimit ≤ s.nreg →
      ∀ t, exec .findMatch { s with ip := s.ip + 1 } = .next t → t.status = .busy →
      step s = .next (if t.ret = .bit true ∧ s.mlen < t.mlen then t
        else { t with ip := s.ip, off := s.off, mlen := s.mlen, ctl := .emit })) ∧
    (s.ctl = .emit → s.cfg.backwardExtend = false → s.cfg.insertInsideMatch = false →
      ∀ t, exec (.emitSeq s.anchor s.ip s.off s.mlen) s = .next t →
      step s = .next { t with ip := t.ip + t.mlen, anchor := t.ip + t.mlen, ctl := .scan }) ∧
    (s.ctl = .emit → ∀ b t u, matchStart s = .ok b s →
      exec (.emitSeq s.anchor b s.off (s.mlen + (s.ip - b))) s = .next t → insertInside t = .ok () u →
      step s = .next { u with ip := u.ip + u.mlen, anchor := u.ip + u.mlen, ctl := .scan }) ∧
    -- DECOMPRESS, an operation a step
    (∀ c i c', (c = Ctl.fetchToken ∧ i = Instr.fetchToken ∧ c' = Ctl.readLitlen) ∨
        (s.grain ≠ .field ∧ c = Ctl.readLitlen ∧ i = Instr.readLitlen ∧ c' = Ctl.copyLiterals) ∨
        (s.grain ≠ .field ∧ c = Ctl.copyLiterals ∧ i = Instr.copyLiterals ∧ c' = Ctl.endTest) ∨
        (s.grain ≠ .field ∧ c = Ctl.readOffset ∧ i = Instr.readOffset ∧ c' = Ctl.readMatchlen) ∨
        (s.grain ≠ .field ∧ c = Ctl.readMatchlen ∧ i = Instr.readMatchlen ∧ c' = Ctl.copyMatch) ∨
        (c = Ctl.copyMatch ∧ i = Instr.copyMatch ∧ c' = if s.grain = .sequence then Ctl.sequence else Ctl.fetchToken) →
      s.ctl = c → ∀ t, exec i s = .next t → step s = .next (if t.status = .busy then { t with ctl := c' } else t)) ∧
    (s.ctl = .endTest → s.ip = s.nreg → ∃ t, step s = .next t ∧ t.status = .done ∧ t.outLen = s.op ∧ t.ctl = .rest) ∧
    (s.ctl = .endTest → s.ip ≠ s.nreg → ∃ t, step s = .next t ∧ t.status = .busy ∧ t.ctl = .readOffset) ∧
    -- DECOMPRESS, a field a step: the head of a length, the head of the literals and their end
    (∀ c sel bias ext fin,
        (c = Ctl.readLitlen ∧ sel = s.tok.toNat / 16 ∧ bias = 0 ∧ ext = Ctl.litExt ∧
          fin = { s with lenAcc := sel, lenBias := bias, litlen := sel, ctl := .copyLiterals }) ∨
        (c = Ctl.readMatchlen ∧ sel = s.tok.toNat % 16 ∧ bias = 4 ∧ ext = Ctl.matchExt ∧
          fin = { s with lenAcc := sel, lenBias := bias, mlen := sel + 4, ctl := .copyMatch }) →
      s.grain = .field → s.ctl = c →
      (s.lim - s.op < sel + bias → step s = .next (raise .lengthOverflow { s with lenAcc := sel, lenBias := bias })) ∧
      (sel + bias ≤ s.lim - s.op → sel = 15 → step s = .next { s with lenAcc := sel, lenBias := bias, ctl := ext }) ∧
      (sel + bias ≤ s.lim - s.op → sel ≠ 15 → step s = .next fin)) ∧
    (s.ctl = .copyLiterals → s.grain = .field → ∀ bs, StreamAt s bs →
      (bs.length < s.litlen → step s = .next (raise .truncatedInput s)) ∧
      (s.litlen ≤ bs.length → step s = .next { s with ctl := .literals s.litlen })) ∧
    (s.ctl = .literals 0 → step s = .next { s with ctl := .endTest }) ∧
    -- where the bytes end inside a field
    ((s.ctl = .litExt ∨ s.ctl = .matchExt ∨ ∃ n, s.ctl = .literals (n + 1)) → StreamAt s [] →
      step s = .next (raise .truncatedInput s)) ∧
    (s.ctl = .readOffset → s.grain = .field → ∀ bs, bs.length < 2 → StreamAt s bs →
      step s = .next (raise .truncatedInput s))

/-! ### The invariant and the rules of the whole machine -/

/-- The invariant holds after reset, in every configuration the rules are written for. What it says of the working
registers and of HT rests on reset values the model chose (log entries 2, 3). -/
def Obligations.InvariantAtReset : Prop :=
  Invariant State.reset ∧ ∀ c : Config, c.ok → Invariant (State.resetIn c)

/-- Every step keeps the invariant, from every state that meets it. -/
def Obligations.InvariantKept : Prop :=
  ∀ s t : State, Invariant s → step s = .next t → Invariant t

/-- R68, R282: from every state of the invariant the engine's turn answers a next state: no access out of bounds, no crash,
no stop. A host move can stop the machine only where the host goes outside its protocol (log entries 8, 9, 10, 20). -/
def Obligations.EngineNeverFaults : Prop :=
  ∀ s : State, Invariant s →
    (HostIdle s → ∃ t, step s = .next t) ∧
    (∀ f, step s = .fault f → f = .noSuchPosition) ∧
    (∀ r, step s = .refused r → r = .illegalStart ∨ r = .hostAccessWhileBusy ∨ r = .valueTooWide)

/-- R41, R65: no step of the engine, a wait of the host or not, changes IN or a register the host writes, or the
configuration. -/
def Obligations.EngineLeavesInputAlone : Prop :=
  ∀ s t : State, HostIdle s → step s = .next t →
    t.inMem = s.inMem ∧ t.inLen = s.inLen ∧ t.outLimit = s.outLimit ∧ t.sizeHint = s.sizeHint ∧ t.cfg = s.cfg ∧
      t.hostData = s.hostData ∧ (∀ a, t.inAt a = s.inAt a)

/-- R42, R28, R29: the engine writes OUT only by appending at OP, and its cursor only moves forward. -/
def Obligations.OutputOnlyAppendedCursorForward : Prop :=
  ∀ s t : State, HostIdle s → step s = .next t →
    s.op ≤ t.op ∧ (∀ a, a < s.op ∨ t.op ≤ a → Cells.read t.out a = Cells.read s.out a) ∧ s.ip ≤ t.ip

/-- R43: a decompression does not touch HT, and a compression does not touch the decompressor's registers. -/
def Obligations.EnginesKeepApart : Prop :=
  ∀ s t : State, HostIdle s → s.status = .busy → step s = .next t →
    (s.ctl.compresses →
      t.tok = s.tok ∧ t.litlen = s.litlen ∧ t.lim = s.lim ∧ t.lenAcc = s.lenAcc ∧ t.lenBias = s.lenBias) ∧
    (¬ s.ctl.compresses →
      t.ht = s.ht ∧ t.anchor = s.anchor ∧ t.seq4 = s.seq4 ∧ t.hidx = s.hidx ∧ t.cand = s.cand)

/-- R255, R280, R281, R30: the only ways an operation ends, and that a step of an operation that goes on writes no flag. -/
def Obligations.OperationEndsOnlySo : Prop :=
  ∀ s t : State, Invariant s → HostIdle s → s.status = .busy → step s = .next t →
    (t.status = .busy ∧ t.err = s.err ∧ t.outLen = s.outLen) ∨
    (t.status = .done ∧ t.err = none ∧ t.outLen = t.op ∧ t.ctl = .rest) ∨
    (t.status = .error ∧ (∃ e, t.err = some e) ∧ t.outLen = 0 ∧ t.ctl = .rest ∧ ¬ s.ctl.compresses)

/-- R153: while COMPRESS runs, HT holds no position at or beyond the cursor when the finder is called, from its start on. -/
def Obligations.TableHoldsEarlierPositions : Prop :=
  (∀ s t : State, s.status ≠ .busy → exec .compress s = .next t → TableBelow t t.ip) ∧
  ∀ s t : State, Invariant s → HostIdle s → s.ctl.compresses → step s = .next t → t.ctl = .scan → TableBelow t t.ip

/-! ### Whole operations -/

/-- R231, R225: a decompression ends, with success or with an error. The bound of the second clause, `NREG - IP + 1`, counts
steps of the grain of a whole sequence a step, which is the model's choice (log entry 6), not the spec's. -/
def Obligations.DecompressEnds : Prop :=
  ∀ s : State, Invariant s → HostIdle s → s.status = .busy → ¬ s.ctl.compresses →
    (∃ t, Reaches s t ∧ (t.status = .done ∨ t.status = .error) ∧ t.host = s.host) ∧
    (s.ctl = .sequence → ∃ n t, n ≤ s.nreg - s.ip + 1 ∧ steps n s = .next t ∧
      (t.status = .done ∨ t.status = .error) ∧ t.host = s.host)

/-- R179, R275: a compression ends in DONE with no error. The bound, twice the positions left and one, rests on a pass of the
loop being one step, or two or three where a match is found, which is the model's choice (log entry 6), not the spec's. -/
def Obligations.CompressEnds : Prop :=
  ∀ s : State, Invariant s → HostIdle s → s.ctl = .scan →
    ∃ n t, n ≤ 2 * (s.nreg - s.ip) + 1 ∧ steps n s = .next t ∧ t.status = .done ∧ t.err = none ∧ t.host = s.host

/-- R181: the size of a compressed stream. -/
def Obligations.CompressSizeBound : Prop :=
  ∀ (s : State) (bs out : List Byte), s.cfg.ok → Ready s → Loaded s bs → Answers .compress s (.ok out) →
    out.length ≤ bs.length + bs.length / 255 + 2

/-- R177, R178, R226: the empty input, and inputs of up to 12 bytes, with the MFLIMIT and the EMPTY_OUTPUT of R7. That the
empty input gives whatever EMPTY_OUTPUT holds is the model's choice where it is not R7's (log entry 16). -/
def Obligations.EmptyAndShortInputs : Prop :=
  ∀ (s : State) (bs : List Byte), s.cfg.ok → Ready s → Loaded s bs → s.outLimit ≤ s.cfg.maxSize →
    (bs = [] → Answers .compress s (.ok s.cfg.emptyOutput)) ∧
    (bs.length ≤ s.cfg.maxSize → bs.length ≤ 12 → s.cfg.mflimit = 12 → (bs = [] → s.cfg.emptyOutput = [0x00#8]) →
      Answers .compress s (.ok (BitVec.ofNat 8 (16 * bs.length) :: bs))) ∧
    (bs = [] → Answers .decompress s (.error .truncatedInput)) ∧
    (bs = [0x00#8] → Answers .decompress s (.ok []))

/-- R180 (a), (c) to (g): every compressed stream parses and keeps the encoder constraints, for any HASH4 and any value of
the parameters of R7 (for the empty input, with its EMPTY_OUTPUT). What the compressor does at a value other than R7's is the
model's choice (log entry 16). -/
def Obligations.CompressConforms : Prop :=
  ∀ (s : State) (bs out : List Byte), s.cfg.ok → (bs = [] → s.cfg.emptyOutput = [0x00#8]) → Ready s → Loaded s bs →
    Answers .compress s (.ok out) → ∃ is, parse out = some is ∧ Conforms s.cfg.mflimit bs.length 0 is

/-- R182: the round trip, "for any `HASH4`" (a field of the configuration, HashFourValue), and beyond R7's values for any
value of its parameters, where what the compressor does is the model's choice (log entry 16); EMPTY_OUTPUT is the "single
trivial token" of D8, of which R7's is one. -/
def Obligations.RoundTrip : Prop :=
  ∀ (s : State) (bs : List Byte), s.cfg.ok → (bs = [] → ∃ x, s.cfg.emptyOutput = [x] ∧ x.toNat < 16) → Ready s →
    Loaded s bs → bs.length ≤ s.cfg.maxSize → s.outLimit ≤ s.cfg.maxSize →
    ∃ out, Answers .compress s (.ok out) ∧
      ∀ s' : State, s'.cfg = s.cfg → Ready s' → Loaded s' out → bs.length ≤ s'.outLimit →
        s'.outLimit ≤ s'.cfg.maxSize → Answers .decompress s' (.ok bs)

/-- R224, R225, R234: the machine's decompression computes the reference reading of the stream, at every grain: success
with its bytes, or the first error in the order of R277. -/
def Obligations.DecompressMatchesReference : Prop :=
  ∀ (s : State) (bs : List Byte), Ready s → Loaded s bs → bs.length ≤ maxCsize s.cfg → s.outLimit ≤ s.cfg.maxSize →
    Answers .decompress s (expand s.outLimit bs)

/-- R15, D33: at every grain the host sees the same answer. The grain is the model's field (log entry 6). -/
def Obligations.GrainsAgree : Prop :=
  ∀ (s : State) (g : Grain) (r : Except ErrKind (List Byte)), Ready s →
    (Answers .decompress s r ↔ Answers .decompress { s with grain := g } r)

/-- R313, R250: the answer depends on the command, the input, its length and the limit, not on what ran before. -/
def Obligations.AnswerIndependentOfHistory : Prop :=
  ∀ (s s' : State) (bs : List Byte) (i : Instr) (r : Except ErrKind (List Byte)),
    Ready s → Ready s' → Loaded s bs → Loaded s' bs → s.cfg = s'.cfg → s.outLimit = s'.outLimit →
    s.grain = s'.grain → i = .compress ∨ i = .decompress ∨ i = .decompressInto →
    (Answers i s r ↔ Answers i s' r)

/-- R230: DECOMPRESS_INTO answers what DECOMPRESS answers, for every hint. -/
def Obligations.SizeHintHasNoEffect : Prop :=
  ∀ (s : State) (hint : Nat) (r : Except ErrKind (List Byte)), Ready s →
    (Answers .decompressInto { s with sizeHint := hint } r ↔ Answers .decompress s r)

/-- R232: what becomes of a proper prefix of an accepted stream: where it ends with the literals of a sequence with a match
it succeeds, with the output up to there; anywhere else it is truncated. -/
def Obligations.TruncationOfAcceptedStream : Prop :=
  ∀ (s s' : State) (bs out : List Byte) (k : Nat), Ready s → Ready s' → Loaded s bs → Loaded s' (bs.take k) →
    k < bs.length → s'.cfg = s.cfg → s'.outLimit = s.outLimit → Answers .decompress s (.ok out) →
    (∀ n, (k, n) ∈ literalEnds bs → Answers .decompress s' (.ok (out.take n))) ∧
    ((∀ n, (k, n) ∉ literalEnds bs) → Answers .decompress s' (.error .truncatedInput))

/-- R233, R272: an operation whose first defect is an offset beyond the output raises InvalidOffset: the crafted stream of
one sequence. -/
def Obligations.CraftedOffsetIsInvalid : Prop :=
  ∀ (s : State) (lits : List Byte) (off : Half) (mlen : Nat) (rest : List Byte), Ready s →
    Loaded s (sequenceBytes lits off mlen ++ rest) → s.inLen ≤ maxCsize s.cfg → s.outLimit ≤ s.cfg.maxSize →
    lits.length ≤ s.outLimit → off.toNat = 0 ∨ lits.length < off.toNat →
    Answers .decompress s (.error .invalidOffset)
end

