-- ==== Sys2Proof/Laws/Cells.lean ====
section
/-! SUPPORT. The laws of cells: read after write, the canonical form kept, and equal reads make equal memories. -/

namespace Sys2Proof.Machine

variable {α : Type}

@[simp] theorem Cells.read_nil (a : Nat) : Cells.read ([] : List (Nat × α)) a = none := rfl

/-- A read after a write to the same key gives the value written. -/
@[simp] theorem Cells.read_write_same (m : List (Nat × α)) (a : Nat) (v : α) :
    Cells.read (Cells.write m a v) a = some v := by
  induction m with
  | nil => simp [Cells.write, Cells.read]
  | cons p m ih =>
    obtain ⟨k, w⟩ := p
    simp only [Cells.write]
    split
    · simp [Cells.read]
    · split
      · simp [Cells.read]
      · rw [Cells.read, if_neg (by omega), ih]

/-- A write leaves every other key alone. -/
theorem Cells.read_write_other (m : List (Nat × α)) {a b : Nat} (v : α) (h : b ≠ a) :
    Cells.read (Cells.write m a v) b = Cells.read m b := by
  induction m with
  | nil => simp [Cells.write, Cells.read, h.symm]
  | cons p m ih =>
    obtain ⟨k, w⟩ := p
    simp only [Cells.write]
    split
    · simp [Cells.read, h.symm]
    · split
      · subst_vars; simp [Cells.read, h.symm]
      · simp [Cells.read, ih]

theorem Cells.read_write (m : List (Nat × α)) (a b : Nat) (v : α) :
    Cells.read (Cells.write m a v) b = if b = a then some v else Cells.read m b := by
  split
  · subst_vars; simp
  · exact Cells.read_write_other m v ‹_›

/-- Every listed key is a key that was listed or the one written. -/
theorem Cells.mem_write {m : List (Nat × α)} {a : Nat} {v : α} {p : Nat × α} (h : p ∈ Cells.write m a v) :
    p = (a, v) ∨ p ∈ m := by
  induction m with
  | nil => simpa [Cells.write] using h
  | cons q m ih =>
    obtain ⟨k, w⟩ := q
    simp only [Cells.write] at h
    split at h
    · simpa using h
    · split at h
      · rcases List.mem_cons.1 h with h | h
        · exact .inl h
        · exact .inr (List.mem_cons_of_mem _ h)
      · rcases List.mem_cons.1 h with h | h
        · exact .inr (by simp [h])
        · rcases ih h with h | h
          · exact .inl h
          · exact .inr (List.mem_cons_of_mem _ h)

/-- A write keeps the canonical form. -/
theorem Cells.wf_write {m : List (Nat × α)} (a : Nat) (v : α) (h : m.Pairwise fun p q => p.1 < q.1) :
    (Cells.write m a v).Pairwise fun p q => p.1 < q.1 := by
  induction m with
  | nil => simp [Cells.write]
  | cons p m ih =>
    obtain ⟨k, w⟩ := p
    obtain ⟨hp, hm⟩ := List.pairwise_cons.1 h
    simp only [Cells.write]
    split
    · refine List.pairwise_cons.2 ⟨fun q hq => ?_, h⟩
      rcases List.mem_cons.1 hq with rfl | hq
      · assumption
      · exact Nat.lt_trans ‹_› (hp q hq)
    · split
      · subst_vars; exact List.pairwise_cons.2 ⟨hp, hm⟩
      · refine List.pairwise_cons.2 ⟨fun q hq => ?_, ih hm⟩
        rcases Cells.mem_write hq with rfl | hq
        · simp only; omega
        · exact hp q hq

theorem Cells.wf_writeRun {m : List (Nat × α)} (a : Nat) (vs : List α) (h : m.Pairwise fun p q => p.1 < q.1) :
    (Cells.writeRun m a vs).Pairwise fun p q => p.1 < q.1 := by
  induction vs generalizing m a with
  | nil => exact h
  | cons v vs ih => exact ih _ (Cells.wf_write a v h)

/-- A run of writes: what each key reads as afterwards. -/
theorem Cells.read_writeRun (m : List (Nat × α)) (a : Nat) (vs : List α) (b : Nat) :
    Cells.read (Cells.writeRun m a vs) b =
      if h : a ≤ b ∧ b < a + vs.length then some (vs[b - a]'(by omega)) else Cells.read m b := by
  induction vs generalizing m a with
  | nil => rw [dif_neg (by simp)]; rfl
  | cons v vs ih =>
    rw [Cells.writeRun, ih, Cells.read_write]
    by_cases hb : b = a
    · subst hb; simp
    · by_cases h : a + 1 ≤ b ∧ b < a + 1 + vs.length
      · rw [dif_pos h, dif_pos (by simp only [List.length_cons]; omega)]
        have : b - a = (b - (a + 1)) + 1 := by omega
        simp [this]
      · rw [dif_neg h, if_neg hb, dif_neg (by simp only [List.length_cons]; omega)]

/-- A key below every listed key is not listed. -/
theorem Cells.read_none_of_lt {m : List (Nat × α)} {a : Nat} (h : ∀ p ∈ m, a < p.1) : Cells.read m a = none := by
  induction m with
  | nil => rfl
  | cons p m ih =>
    obtain ⟨k, w⟩ := p
    have := h (k, w) (by simp)
    rw [Cells.read, if_neg (by simp only at this; omega), ih fun p hp => h p (List.mem_cons_of_mem _ hp)]

/-- A listed key is listed in the list. -/
theorem Cells.mem_of_read {m : List (Nat × α)} {a : Nat} {v : α} (h : Cells.read m a = some v) : (a, v) ∈ m := by
  induction m with
  | nil => cases h
  | cons p m ih =>
    obtain ⟨k, w⟩ := p
    rw [Cells.read] at h
    split at h
    · cases h; subst_vars; simp
    · exact List.mem_cons_of_mem _ (ih h)

/-- Equal memories are equal data: two canonical lists that read the same everywhere are the same list. -/
theorem Cells.ext {m n : List (Nat × α)} (hm : m.Pairwise fun p q => p.1 < q.1)
    (hn : n.Pairwise fun p q => p.1 < q.1) (h : ∀ a, Cells.read m a = Cells.read n a) : m = n := by
  induction m generalizing n with
  | nil =>
    cases n with
    | nil => rfl
    | cons q n => have := h q.1; simp [Cells.read] at this
  | cons p m ih =>
    obtain ⟨k, v⟩ := p
    obtain ⟨hp, hm'⟩ := List.pairwise_cons.1 hm
    cases n with
    | nil => have := h k; simp [Cells.read] at this
    | cons q n =>
      obtain ⟨l, w⟩ := q
      obtain ⟨hq, hn'⟩ := List.pairwise_cons.1 hn
      have hkl : k = l := by
        rcases Nat.lt_trichotomy k l with hlt | heq | hgt
        · have := h k
          rw [Cells.read_none_of_lt (m := (l, w) :: n)] at this
          · simp [Cells.read] at this
          · intro p hp'; rcases List.mem_cons.1 hp' with rfl | hp'
            · exact hlt
            · exact Nat.lt_trans hlt (hq p hp')
        · exact heq
        · have := h l
          rw [Cells.read_none_of_lt (m := (k, v) :: m)] at this
          · simp [Cells.read] at this
          · intro p hp'; rcases List.mem_cons.1 hp' with rfl | hp'
            · exact hgt
            · exact Nat.lt_trans hgt (hp p hp')
      subst hkl
      have hv : v = w := by have := h k; simpa [Cells.read] using this
      subst hv
      congr 1
      refine ih hm' hn' fun a => ?_
      by_cases ha : k = a
      · subst ha; rw [Cells.read_none_of_lt hp, Cells.read_none_of_lt hq]
      · have := h a; simpa [Cells.read, ha] using this

end Sys2Proof.Machine
end

