-- ==== Sys2Proof/Laws/Length.lean ====
section
/-! SUPPORT. The length codec on byte lists: sizes, round trips, and what the scan answers. -/

namespace Sys2Proof

theorem selOf_eq_min (n : Nat) : selOf n = min n 15 := by unfold selOf; split <;> omega

theorem selOf_le (n : Nat) : selOf n ≤ 15 := by unfold selOf; split <;> omega

theorem selOf_eq_fifteen {n : Nat} : selOf n = 15 ↔ 15 ≤ n := by unfold selOf; split <;> omega

theorem selOf_of_lt {n : Nat} (h : n < 15) : selOf n = n := if_pos h

theorem extBytes_of_lt {n : Nat} (h : n < 15) : extBytes n = [] := if_pos h

/-- The number of extension bytes (R127). -/
@[simp] theorem extBytes_length (n : Nat) : (extBytes n).length = extSize n := by
  unfold extBytes extSize; split <;> simp

@[simp] theorem litSel_tokenByte {l m : Nat} (hl : l ≤ 15) (hm : m ≤ 15) : litSel (tokenByte l m) = l := by
  simp only [litSel, tokenByte, BitVec.toNat_ofNat]; omega

@[simp] theorem matchSel_tokenByte {l m : Nat} (hm : m ≤ 15) : matchSel (tokenByte l m) = m := by
  simp only [matchSel, tokenByte, BitVec.toNat_ofNat]; omega

theorem litSel_le (t : Byte) : litSel t ≤ 15 := by have := t.isLt; simp only [litSel]; omega

theorem matchSel_le (t : Byte) : matchSel t ≤ 15 := by have := t.isLt; simp only [matchSel]; omega

/-- A token byte is its two selectors (R92). -/
theorem tokenByte_sels (t : Byte) : tokenByte (litSel t) (matchSel t) = t := by
  have := t.isLt
  apply BitVec.eq_of_toNat_eq
  simp only [litSel, matchSel, tokenByte, BitVec.toNat_ofNat]; omega

@[simp] theorem offsetBytes_length (off : Half) : (offsetBytes off).length = 2 := rfl

/-- The two bytes of an offset make it again (R60). -/
@[simp] theorem offsetOf_offsetBytes (off : Half) :
    offsetOf (BitVec.ofNat 8 (off.toNat % 256)) (BitVec.ofNat 8 (off.toNat / 256)) = off := by
  have := off.isLt
  apply BitVec.eq_of_toNat_eq
  simp only [offsetOf, BitVec.toNat_ofNat]; omega

/-- Two bytes are the bytes of the offset they make (R60). -/
theorem offsetBytes_offsetOf (b0 b1 : Byte) : offsetBytes (offsetOf b0 b1) = [b0, b1] := by
  have h0 := b0.isLt
  have h1 := b1.isLt
  have : (offsetOf b0 b1).toNat = b0.toNat + 256 * b1.toNat := by
    simp only [offsetOf, BitVec.toNat_ofNat]; omega
  unfold offsetBytes; rw [this]
  congr 1
  · apply BitVec.eq_of_toNat_eq; simp only [BitVec.toNat_ofNat]; omega
  · congr 1; apply BitVec.eq_of_toNat_eq; simp only [BitVec.toNat_ofNat]; omega

theorem ofNat8_ne_255 {r : Nat} (h : r < 255) : (BitVec.ofNat 8 r) ≠ 255#8 := by
  intro he; have := congrArg BitVec.toNat he; simp only [BitVec.toNat_ofNat] at this; omega

/-- Reading a run of 255 and a terminator (R120). -/
theorem takeExt_chain (k r n : Nat) (h : r < 255) (rest : List Byte) :
    takeExt n (List.replicate k 255#8 ++ BitVec.ofNat 8 r :: rest) = some (n + 255 * k + r, rest) := by
  induction k generalizing n with
  | zero =>
    simp only [List.replicate_zero, List.nil_append, takeExt, if_neg (ofNat8_ne_255 h), BitVec.toNat_ofNat]
    congr 2; omega
  | succ k ih =>
    simp only [List.replicate_succ, List.cons_append, takeExt, if_true, ih]
    congr 2; omega

/-- Decoding what was encoded gives the length back (R126), without a limit. -/
theorem takeLength_extBytes (n : Nat) (rest : List Byte) :
    takeLength (selOf n) (extBytes n ++ rest) = some (n, rest) := by
  by_cases h : n < 15
  · rw [takeLength, if_neg (by rw [selOf_of_lt h]; omega), selOf_of_lt h, extBytes_of_lt h]; rfl
  · rw [takeLength, if_pos (selOf_eq_fifteen.2 (by omega)), extBytes, if_neg h, List.append_assoc, List.singleton_append,
      takeExt_chain _ _ _ (by omega)]
    congr 2; omega

/-- Extension bytes that were read are those of the length read (R125). -/
theorem takeExt_unique {n m : Nat} {bs rest : List Byte} (h : takeExt n bs = some (m, rest)) :
    ∃ k r, r < 255 ∧ m = n + 255 * k + r ∧ bs = List.replicate k 255#8 ++ BitVec.ofNat 8 r :: rest := by
  induction bs generalizing n with
  | nil => cases h
  | cons b bs ih =>
    rw [takeExt] at h
    split at h
    · obtain ⟨k, r, hr, hm, hb⟩ := ih h
      refine ⟨k + 1, r, hr, by omega, ?_⟩
      subst_vars; simp [List.replicate_succ]
    · rename_i hb
      simp only [Option.some.injEq, Prod.mk.injEq] at h
      have hlt := b.isLt
      have : b.toNat ≠ 255 := fun he => hb (BitVec.eq_of_toNat_eq he)
      exact ⟨0, b.toNat, by omega, by omega, by simp [h.2]⟩

/-- The bytes of a length read are the selector and the extension bytes of that length (R125). -/
theorem takeLength_unique {sel m : Nat} {bs rest : List Byte} (hs : sel ≤ 15) (h : takeLength sel bs = some (m, rest)) :
    selOf m = sel ∧ bs = extBytes m ++ rest := by
  rw [takeLength] at h
  split at h
  · obtain ⟨k, r, hr, hm, hb⟩ := takeExt_unique h
    have h15 : ¬ m < 15 := by omega
    refine ⟨by rw [selOf_eq_fifteen.2 (by omega)]; omega, ?_⟩
    rw [hb, extBytes, if_neg h15, show (m - 15) / 255 = k by omega, show (m - 15) % 255 = r by omega]
    simp
  · simp only [Option.some.injEq, Prod.mk.injEq] at h
    have : m < 15 := by omega
    exact ⟨by rw [selOf_of_lt this]; omega, by rw [extBytes_of_lt this]; simpa using h.2⟩

/-- The scan of a run of 255 and a terminator that fits the room (R123). -/
theorem scanExt_chain (bias room : Nat) (k r n used : Nat) (h : r < 255) (rest : List Byte)
    (hfit : n + 255 * k + r + bias ≤ room) :
    scanExt bias room n used (List.replicate k 255#8 ++ BitVec.ofNat 8 r :: rest) =
      .value (n + 255 * k + r) (used + k + 1) := by
  induction k generalizing n used with
  | zero =>
    have : (BitVec.ofNat 8 r).toNat = r := by simp only [BitVec.toNat_ofNat]; omega
    simp only [List.replicate_zero, List.nil_append, scanExt, this, if_neg (ofNat8_ne_255 h)]
    rw [if_neg (by omega)]; congr 1
  | succ k ih =>
    have : (255#8).toNat = 255 := rfl
    simp only [List.replicate_succ, List.cons_append, scanExt, this, if_true]
    rw [if_neg (by omega), ih _ _ (by omega)]; congr 1 <;> omega

/-- `DECODE_LENGTH` of what `ENCODE_LENGTH` wrote, when the length fits the room (R126). -/
theorem scanLength_extBytes (n bias room : Nat) (rest : List Byte) (hfit : n + bias ≤ room) :
    scanLength (selOf n) bias room (extBytes n ++ rest) = .value n (extSize n) := by
  by_cases h : n < 15
  · rw [scanLength, if_neg (by rw [selOf_of_lt h]; omega), if_neg (by rw [selOf_of_lt h]; omega), selOf_of_lt h,
      extSize, if_pos h]
  · have hs : selOf n = 15 := selOf_eq_fifteen.2 (by omega)
    rw [scanLength, hs, if_neg (by omega), if_pos rfl, extBytes, if_neg h, List.append_assoc, List.singleton_append,
      scanExt_chain _ _ _ _ _ _ (by omega) _ (by omega), extSize, if_neg h]
    congr 1 <;> omega

/-- The loop of `DECODE_LENGTH` overflows on the bytes of a length that does not fit. -/
theorem scanExt_overflow (bias room : Nat) (k r n used : Nat) (h : r < 255) (rest : List Byte)
    (hfit : n + bias ≤ room) (hover : room < n + 255 * k + r + bias) :
    ∃ u, scanExt bias room n used (List.replicate k 255#8 ++ BitVec.ofNat 8 r :: rest) = .overflow u := by
  induction k generalizing n used with
  | zero =>
    have : (BitVec.ofNat 8 r).toNat = r := by simp only [BitVec.toNat_ofNat]; omega
    refine ⟨used + 1, ?_⟩
    simp only [List.replicate_zero, List.nil_append, scanExt, this]
    rw [if_pos (by omega)]
  | succ k ih =>
    have : (255#8).toNat = 255 := rfl
    simp only [List.replicate_succ, List.cons_append, scanExt, this, if_true]
    by_cases ho : n + 255 + bias > room
    · exact ⟨_, if_pos ho⟩
    · rw [if_neg ho]; exact ih _ _ (by omega) (by omega)

/-- `DECODE_LENGTH` of what `ENCODE_LENGTH` wrote, when the length does not fit the room (R273). -/
theorem scanLength_overflow (n bias room : Nat) (rest : List Byte) (hover : room < n + bias) :
    ∃ u, scanLength (selOf n) bias room (extBytes n ++ rest) = .overflow u := by
  by_cases h : n < 15
  · exact ⟨0, by rw [scanLength, if_pos (by rw [selOf_of_lt h]; omega)]⟩
  · have hs : selOf n = 15 := selOf_eq_fifteen.2 (by omega)
    rw [scanLength, hs]
    by_cases h2 : 15 + bias > room
    · exact ⟨0, by rw [if_pos h2]⟩
    · rw [if_neg h2, if_pos rfl, extBytes, if_neg h, List.append_assoc, List.singleton_append]
      exact scanExt_overflow _ _ _ _ _ _ (by omega) _ (by omega) (by omega)

/-- What a value scanned is: a length that fits the room, its bytes at the head of those scanned. -/
theorem scanExt_value {bias room n used m u : Nat} {bs : List Byte}
    (h : scanExt bias room n used bs = .value m u) :
    m + bias ≤ room ∧ used < u ∧ u ≤ used + bs.length ∧ takeExt n bs = some (m, bs.drop (u - used)) := by
  induction bs generalizing n used with
  | nil => cases h
  | cons b bs ih =>
    rw [scanExt] at h
    split at h
    · cases h
    · split at h
      · rename_i hb
        obtain ⟨h1, h2, h3, h4⟩ := ih h
        refine ⟨h1, by omega, by simp only [List.length_cons]; omega, ?_⟩
        have hb' : (255#8).toNat = 255 := rfl
        rw [takeExt, if_pos hb, show u - used = (u - (used + 1)) + 1 by omega, List.drop_succ_cons, ← h4]
        subst hb; rfl
      · rename_i hb
        cases h
        refine ⟨by omega, by omega, by simp only [List.length_cons]; omega, ?_⟩
        rw [takeExt, if_neg hb, show used + 1 - used = 0 + 1 by omega, List.drop_succ_cons, List.drop_zero]

theorem scanLength_value {sel bias room m u : Nat} {bs : List Byte} (h : scanLength sel bias room bs = .value m u) :
    m + bias ≤ room ∧ u ≤ bs.length ∧ takeLength sel bs = some (m, bs.drop u) := by
  rw [scanLength] at h
  split at h
  · cases h
  · split at h
    · rename_i hs
      obtain ⟨h1, h2, h3, h4⟩ := scanExt_value h
      subst hs
      exact ⟨h1, by omega, by rw [takeLength, if_pos rfl, h4, Nat.sub_zero]⟩
    · rename_i hs
      cases h
      exact ⟨by omega, by omega, by rw [takeLength, if_neg hs, List.drop_zero]⟩

/-- The scan is truncated only where the bytes hold no whole length. -/
theorem scanExt_truncated {bias room n used u : Nat} {bs : List Byte}
    (h : scanExt bias room n used bs = .truncated u) : takeExt n bs = none ∧ u = used + bs.length := by
  induction bs generalizing n used with
  | nil => cases h; exact ⟨rfl, rfl⟩
  | cons b bs ih =>
    rw [scanExt] at h
    split at h
    · cases h
    · split at h
      · rename_i hb
        obtain ⟨h1, h2⟩ := ih h
        have hb' : b.toNat = 255 := by subst hb; rfl
        rw [hb'] at h1
        exact ⟨by rw [takeExt, if_pos hb, h1], by simp only [List.length_cons]; omega⟩
      · cases h

theorem scanLength_truncated {sel bias room u : Nat} {bs : List Byte} (h : scanLength sel bias room bs = .truncated u) :
    sel = 15 ∧ takeLength sel bs = none ∧ u = bs.length := by
  rw [scanLength] at h
  split at h
  · cases h
  · split at h
    · rename_i hs
      obtain ⟨h1, h2⟩ := scanExt_truncated h
      subst hs
      exact ⟨rfl, by rw [takeLength, if_pos rfl, h1], by omega⟩
    · cases h

/-- An overflow consumes no more than the bytes there are. -/
theorem scanExt_overflow_used {bias room n used u : Nat} {bs : List Byte}
    (h : scanExt bias room n used bs = .overflow u) : used < u ∧ u ≤ used + bs.length := by
  induction bs generalizing n used with
  | nil => cases h
  | cons b bs ih =>
    rw [scanExt] at h
    split at h
    · cases h; simp only [List.length_cons]; omega
    · split at h
      · have := ih h; simp only [List.length_cons]; omega
      · cases h

/-- The scan does not look past the bytes it consumes: bytes after a scanned value change nothing. -/
theorem scanExt_append {bias room n used m u : Nat} {bs : List Byte} (rest : List Byte)
    (h : scanExt bias room n used bs = .value m u) : scanExt bias room n used (bs ++ rest) = .value m u := by
  induction bs generalizing n used with
  | nil => cases h
  | cons b bs ih =>
    rw [List.cons_append, scanExt]
    rw [scanExt] at h
    split at h
    · cases h
    · rename_i hr
      rw [if_neg hr]
      split at h
      · rename_i hb; rw [if_pos hb]; exact ih h
      · rename_i hb; rw [if_neg hb]; exact h

/-- Nor past the byte at which it overflows. -/
theorem scanExt_append_overflow {bias room n used u : Nat} {bs : List Byte} (rest : List Byte)
    (h : scanExt bias room n used bs = .overflow u) : scanExt bias room n used (bs ++ rest) = .overflow u := by
  induction bs generalizing n used with
  | nil => cases h
  | cons b bs ih =>
    rw [List.cons_append, scanExt]
    rw [scanExt] at h
    split at h
    · rename_i hr; rw [if_pos hr]; exact h
    · rename_i hr
      rw [if_neg hr]
      split at h
      · rename_i hb; rw [if_pos hb]; exact ih h
      · cases h

/-- `DECODE_LENGTH` answers on the bytes of a length what it answers with more bytes after them. -/
theorem scanLength_extBytes_append (n bias room : Nat) (rest : List Byte) :
    scanLength (selOf n) bias room (extBytes n ++ rest) = scanLength (selOf n) bias room (extBytes n) := by
  by_cases hfit : n + bias ≤ room
  · rw [scanLength_extBytes _ _ _ _ hfit]
    have := scanLength_extBytes n bias room [] hfit
    rw [List.append_nil] at this; rw [this]
  · by_cases h2 : selOf n + bias > room
    · rw [scanLength, scanLength, if_pos h2, if_pos h2]
    · by_cases h3 : selOf n = 15
      · rw [scanLength, scanLength, if_neg h2, if_neg h2, if_pos h3, if_pos h3]
        have hn : ¬ n < 15 := by rw [selOf_eq_fifteen] at h3; omega
        rw [h3] at h2 ⊢
        obtain ⟨u, hu⟩ := scanExt_overflow bias room ((n - 15) / 255) ((n - 15) % 255) 15 0 (by omega) [] (by omega)
          (by omega)
        have he : extBytes n = List.replicate ((n - 15) / 255) 255#8 ++ [BitVec.ofNat 8 ((n - 15) % 255)] := if_neg hn
        rw [← he] at hu
        rw [hu, scanExt_append_overflow rest hu]
      · rw [scanLength, scanLength, if_neg h2, if_neg h2, if_neg h3, if_neg h3]

end Sys2Proof
end

