-- ==== Sys2Proof/Laws/State.lean ====
section
/-! SUPPORT. One lemma per field per named update of the state, each true by rfl, so that no proof unfolds an update. -/

namespace Sys2Proof.Machine

@[simp] theorem startOp_cfg (c : Ctl) (s : State) : (startOp c s).cfg = s.cfg := rfl
@[simp] theorem startOp_grain (c : Ctl) (s : State) : (startOp c s).grain = s.grain := rfl
@[simp] theorem startOp_ctl (c : Ctl) (s : State) : (startOp c s).ctl = c := rfl
@[simp] theorem startOp_status (c : Ctl) (s : State) : (startOp c s).status = .busy := rfl
@[simp] theorem startOp_err (c : Ctl) (s : State) : (startOp c s).err = none := rfl
@[simp] theorem startOp_inLen (c : Ctl) (s : State) : (startOp c s).inLen = s.inLen := rfl
@[simp] theorem startOp_outLen (c : Ctl) (s : State) : (startOp c s).outLen = 0 := rfl
@[simp] theorem startOp_outLimit (c : Ctl) (s : State) : (startOp c s).outLimit = s.outLimit := rfl
@[simp] theorem startOp_sizeHint (c : Ctl) (s : State) : (startOp c s).sizeHint = s.sizeHint := rfl
@[simp] theorem startOp_ip (c : Ctl) (s : State) : (startOp c s).ip = s.ip := rfl
@[simp] theorem startOp_op (c : Ctl) (s : State) : (startOp c s).op = s.op := rfl
@[simp] theorem startOp_nreg (c : Ctl) (s : State) : (startOp c s).nreg = s.nreg := rfl
@[simp] theorem startOp_anchor (c : Ctl) (s : State) : (startOp c s).anchor = s.anchor := rfl
@[simp] theorem startOp_seq4 (c : Ctl) (s : State) : (startOp c s).seq4 = s.seq4 := rfl
@[simp] theorem startOp_hidx (c : Ctl) (s : State) : (startOp c s).hidx = s.hidx := rfl
@[simp] theorem startOp_cand (c : Ctl) (s : State) : (startOp c s).cand = s.cand := rfl
@[simp] theorem startOp_mlen (c : Ctl) (s : State) : (startOp c s).mlen = s.mlen := rfl
@[simp] theorem startOp_off (c : Ctl) (s : State) : (startOp c s).off = s.off := rfl
@[simp] theorem startOp_tok (c : Ctl) (s : State) : (startOp c s).tok = s.tok := rfl
@[simp] theorem startOp_litlen (c : Ctl) (s : State) : (startOp c s).litlen = s.litlen := rfl
@[simp] theorem startOp_lim (c : Ctl) (s : State) : (startOp c s).lim = s.lim := rfl
@[simp] theorem startOp_lenAcc (c : Ctl) (s : State) : (startOp c s).lenAcc = s.lenAcc := rfl
@[simp] theorem startOp_lenBias (c : Ctl) (s : State) : (startOp c s).lenBias = s.lenBias := rfl
@[simp] theorem startOp_ret (c : Ctl) (s : State) : (startOp c s).ret = s.ret := rfl
@[simp] theorem startOp_inMem (c : Ctl) (s : State) : (startOp c s).inMem = s.inMem := rfl
@[simp] theorem startOp_out (c : Ctl) (s : State) : (startOp c s).out = s.out := rfl
@[simp] theorem startOp_ht (c : Ctl) (s : State) : (startOp c s).ht = s.ht := rfl
@[simp] theorem startOp_host (c : Ctl) (s : State) : (startOp c s).host = s.host := rfl
@[simp] theorem startOp_hostData (c : Ctl) (s : State) : (startOp c s).hostData = s.hostData := rfl
@[simp] theorem startOp_inEra (c : Ctl) (s : State) : (startOp c s).inEra = s.inEra := rfl
@[simp] theorem startOp_outEra (c : Ctl) (s : State) : (startOp c s).outEra = s.outEra + 1 := rfl

@[simp] theorem finish_cfg (s : State) : (finish s).cfg = s.cfg := rfl
@[simp] theorem finish_grain (s : State) : (finish s).grain = s.grain := rfl
@[simp] theorem finish_ctl (s : State) : (finish s).ctl = .rest := rfl
@[simp] theorem finish_status (s : State) : (finish s).status = .done := rfl
@[simp] theorem finish_err (s : State) : (finish s).err = s.err := rfl
@[simp] theorem finish_inLen (s : State) : (finish s).inLen = s.inLen := rfl
@[simp] theorem finish_outLen (s : State) : (finish s).outLen = s.op := rfl
@[simp] theorem finish_outLimit (s : State) : (finish s).outLimit = s.outLimit := rfl
@[simp] theorem finish_sizeHint (s : State) : (finish s).sizeHint = s.sizeHint := rfl
@[simp] theorem finish_ip (s : State) : (finish s).ip = s.ip := rfl
@[simp] theorem finish_op (s : State) : (finish s).op = s.op := rfl
@[simp] theorem finish_nreg (s : State) : (finish s).nreg = s.nreg := rfl
@[simp] theorem finish_anchor (s : State) : (finish s).anchor = s.anchor := rfl
@[simp] theorem finish_seq4 (s : State) : (finish s).seq4 = s.seq4 := rfl
@[simp] theorem finish_hidx (s : State) : (finish s).hidx = s.hidx := rfl
@[simp] theorem finish_cand (s : State) : (finish s).cand = s.cand := rfl
@[simp] theorem finish_mlen (s : State) : (finish s).mlen = s.mlen := rfl
@[simp] theorem finish_off (s : State) : (finish s).off = s.off := rfl
@[simp] theorem finish_tok (s : State) : (finish s).tok = s.tok := rfl
@[simp] theorem finish_litlen (s : State) : (finish s).litlen = s.litlen := rfl
@[simp] theorem finish_lim (s : State) : (finish s).lim = s.lim := rfl
@[simp] theorem finish_lenAcc (s : State) : (finish s).lenAcc = s.lenAcc := rfl
@[simp] theorem finish_lenBias (s : State) : (finish s).lenBias = s.lenBias := rfl
@[simp] theorem finish_ret (s : State) : (finish s).ret = s.ret := rfl
@[simp] theorem finish_inMem (s : State) : (finish s).inMem = s.inMem := rfl
@[simp] theorem finish_out (s : State) : (finish s).out = s.out := rfl
@[simp] theorem finish_ht (s : State) : (finish s).ht = s.ht := rfl
@[simp] theorem finish_host (s : State) : (finish s).host = s.host := rfl
@[simp] theorem finish_hostData (s : State) : (finish s).hostData = s.hostData := rfl
@[simp] theorem finish_inEra (s : State) : (finish s).inEra = s.inEra := rfl
@[simp] theorem finish_outEra (s : State) : (finish s).outEra = s.outEra := rfl

@[simp] theorem raise_cfg (e : ErrKind) (s : State) : (raise e s).cfg = s.cfg := rfl
@[simp] theorem raise_grain (e : ErrKind) (s : State) : (raise e s).grain = s.grain := rfl
@[simp] theorem raise_ctl (e : ErrKind) (s : State) : (raise e s).ctl = .rest := rfl
@[simp] theorem raise_status (e : ErrKind) (s : State) : (raise e s).status = .error := rfl
@[simp] theorem raise_err (e : ErrKind) (s : State) : (raise e s).err = some e := rfl
@[simp] theorem raise_inLen (e : ErrKind) (s : State) : (raise e s).inLen = s.inLen := rfl
@[simp] theorem raise_outLen (e : ErrKind) (s : State) : (raise e s).outLen = 0 := rfl
@[simp] theorem raise_outLimit (e : ErrKind) (s : State) : (raise e s).outLimit = s.outLimit := rfl
@[simp] theorem raise_sizeHint (e : ErrKind) (s : State) : (raise e s).sizeHint = s.sizeHint := rfl
@[simp] theorem raise_ip (e : ErrKind) (s : State) : (raise e s).ip = s.ip := rfl
@[simp] theorem raise_op (e : ErrKind) (s : State) : (raise e s).op = s.op := rfl
@[simp] theorem raise_nreg (e : ErrKind) (s : State) : (raise e s).nreg = s.nreg := rfl
@[simp] theorem raise_anchor (e : ErrKind) (s : State) : (raise e s).anchor = s.anchor := rfl
@[simp] theorem raise_seq4 (e : ErrKind) (s : State) : (raise e s).seq4 = s.seq4 := rfl
@[simp] theorem raise_hidx (e : ErrKind) (s : State) : (raise e s).hidx = s.hidx := rfl
@[simp] theorem raise_cand (e : ErrKind) (s : State) : (raise e s).cand = s.cand := rfl
@[simp] theorem raise_mlen (e : ErrKind) (s : State) : (raise e s).mlen = s.mlen := rfl
@[simp] theorem raise_off (e : ErrKind) (s : State) : (raise e s).off = s.off := rfl
@[simp] theorem raise_tok (e : ErrKind) (s : State) : (raise e s).tok = s.tok := rfl
@[simp] theorem raise_litlen (e : ErrKind) (s : State) : (raise e s).litlen = s.litlen := rfl
@[simp] theorem raise_lim (e : ErrKind) (s : State) : (raise e s).lim = s.lim := rfl
@[simp] theorem raise_lenAcc (e : ErrKind) (s : State) : (raise e s).lenAcc = s.lenAcc := rfl
@[simp] theorem raise_lenBias (e : ErrKind) (s : State) : (raise e s).lenBias = s.lenBias := rfl
@[simp] theorem raise_ret (e : ErrKind) (s : State) : (raise e s).ret = s.ret := rfl
@[simp] theorem raise_inMem (e : ErrKind) (s : State) : (raise e s).inMem = s.inMem := rfl
@[simp] theorem raise_out (e : ErrKind) (s : State) : (raise e s).out = s.out := rfl
@[simp] theorem raise_ht (e : ErrKind) (s : State) : (raise e s).ht = s.ht := rfl
@[simp] theorem raise_host (e : ErrKind) (s : State) : (raise e s).host = s.host := rfl
@[simp] theorem raise_hostData (e : ErrKind) (s : State) : (raise e s).hostData = s.hostData := rfl
@[simp] theorem raise_inEra (e : ErrKind) (s : State) : (raise e s).inEra = s.inEra := rfl
@[simp] theorem raise_outEra (e : ErrKind) (s : State) : (raise e s).outEra = s.outEra := rfl

@[simp] theorem takeToken_cfg (t : Byte) (s : State) : (takeToken t s).cfg = s.cfg := rfl
@[simp] theorem takeToken_grain (t : Byte) (s : State) : (takeToken t s).grain = s.grain := rfl
@[simp] theorem takeToken_ctl (t : Byte) (s : State) : (takeToken t s).ctl = s.ctl := rfl
@[simp] theorem takeToken_status (t : Byte) (s : State) : (takeToken t s).status = s.status := rfl
@[simp] theorem takeToken_err (t : Byte) (s : State) : (takeToken t s).err = s.err := rfl
@[simp] theorem takeToken_inLen (t : Byte) (s : State) : (takeToken t s).inLen = s.inLen := rfl
@[simp] theorem takeToken_outLen (t : Byte) (s : State) : (takeToken t s).outLen = s.outLen := rfl
@[simp] theorem takeToken_outLimit (t : Byte) (s : State) : (takeToken t s).outLimit = s.outLimit := rfl
@[simp] theorem takeToken_sizeHint (t : Byte) (s : State) : (takeToken t s).sizeHint = s.sizeHint := rfl
@[simp] theorem takeToken_ip (t : Byte) (s : State) : (takeToken t s).ip = s.ip + 1 := rfl
@[simp] theorem takeToken_op (t : Byte) (s : State) : (takeToken t s).op = s.op := rfl
@[simp] theorem takeToken_nreg (t : Byte) (s : State) : (takeToken t s).nreg = s.nreg := rfl
@[simp] theorem takeToken_anchor (t : Byte) (s : State) : (takeToken t s).anchor = s.anchor := rfl
@[simp] theorem takeToken_seq4 (t : Byte) (s : State) : (takeToken t s).seq4 = s.seq4 := rfl
@[simp] theorem takeToken_hidx (t : Byte) (s : State) : (takeToken t s).hidx = s.hidx := rfl
@[simp] theorem takeToken_cand (t : Byte) (s : State) : (takeToken t s).cand = s.cand := rfl
@[simp] theorem takeToken_mlen (t : Byte) (s : State) : (takeToken t s).mlen = s.mlen := rfl
@[simp] theorem takeToken_off (t : Byte) (s : State) : (takeToken t s).off = s.off := rfl
@[simp] theorem takeToken_tok (t : Byte) (s : State) : (takeToken t s).tok = t := rfl
@[simp] theorem takeToken_litlen (t : Byte) (s : State) : (takeToken t s).litlen = s.litlen := rfl
@[simp] theorem takeToken_lim (t : Byte) (s : State) : (takeToken t s).lim = s.lim := rfl
@[simp] theorem takeToken_lenAcc (t : Byte) (s : State) : (takeToken t s).lenAcc = s.lenAcc := rfl
@[simp] theorem takeToken_lenBias (t : Byte) (s : State) : (takeToken t s).lenBias = s.lenBias := rfl
@[simp] theorem takeToken_ret (t : Byte) (s : State) : (takeToken t s).ret = s.ret := rfl
@[simp] theorem takeToken_inMem (t : Byte) (s : State) : (takeToken t s).inMem = s.inMem := rfl
@[simp] theorem takeToken_out (t : Byte) (s : State) : (takeToken t s).out = s.out := rfl
@[simp] theorem takeToken_ht (t : Byte) (s : State) : (takeToken t s).ht = s.ht := rfl
@[simp] theorem takeToken_host (t : Byte) (s : State) : (takeToken t s).host = s.host := rfl
@[simp] theorem takeToken_hostData (t : Byte) (s : State) : (takeToken t s).hostData = s.hostData := rfl
@[simp] theorem takeToken_inEra (t : Byte) (s : State) : (takeToken t s).inEra = s.inEra := rfl
@[simp] theorem takeToken_outEra (t : Byte) (s : State) : (takeToken t s).outEra = s.outEra := rfl

@[simp] theorem giveBit_cfg (b : Bool) (s : State) : (giveBit b s).cfg = s.cfg := rfl
@[simp] theorem giveBit_grain (b : Bool) (s : State) : (giveBit b s).grain = s.grain := rfl
@[simp] theorem giveBit_ctl (b : Bool) (s : State) : (giveBit b s).ctl = s.ctl := rfl
@[simp] theorem giveBit_status (b : Bool) (s : State) : (giveBit b s).status = s.status := rfl
@[simp] theorem giveBit_err (b : Bool) (s : State) : (giveBit b s).err = s.err := rfl
@[simp] theorem giveBit_inLen (b : Bool) (s : State) : (giveBit b s).inLen = s.inLen := rfl
@[simp] theorem giveBit_outLen (b : Bool) (s : State) : (giveBit b s).outLen = s.outLen := rfl
@[simp] theorem giveBit_outLimit (b : Bool) (s : State) : (giveBit b s).outLimit = s.outLimit := rfl
@[simp] theorem giveBit_sizeHint (b : Bool) (s : State) : (giveBit b s).sizeHint = s.sizeHint := rfl
@[simp] theorem giveBit_ip (b : Bool) (s : State) : (giveBit b s).ip = s.ip := rfl
@[simp] theorem giveBit_op (b : Bool) (s : State) : (giveBit b s).op = s.op := rfl
@[simp] theorem giveBit_nreg (b : Bool) (s : State) : (giveBit b s).nreg = s.nreg := rfl
@[simp] theorem giveBit_anchor (b : Bool) (s : State) : (giveBit b s).anchor = s.anchor := rfl
@[simp] theorem giveBit_seq4 (b : Bool) (s : State) : (giveBit b s).seq4 = s.seq4 := rfl
@[simp] theorem giveBit_hidx (b : Bool) (s : State) : (giveBit b s).hidx = s.hidx := rfl
@[simp] theorem giveBit_cand (b : Bool) (s : State) : (giveBit b s).cand = s.cand := rfl
@[simp] theorem giveBit_mlen (b : Bool) (s : State) : (giveBit b s).mlen = s.mlen := rfl
@[simp] theorem giveBit_off (b : Bool) (s : State) : (giveBit b s).off = s.off := rfl
@[simp] theorem giveBit_tok (b : Bool) (s : State) : (giveBit b s).tok = s.tok := rfl
@[simp] theorem giveBit_litlen (b : Bool) (s : State) : (giveBit b s).litlen = s.litlen := rfl
@[simp] theorem giveBit_lim (b : Bool) (s : State) : (giveBit b s).lim = s.lim := rfl
@[simp] theorem giveBit_lenAcc (b : Bool) (s : State) : (giveBit b s).lenAcc = s.lenAcc := rfl
@[simp] theorem giveBit_lenBias (b : Bool) (s : State) : (giveBit b s).lenBias = s.lenBias := rfl
@[simp] theorem giveBit_ret (b : Bool) (s : State) : (giveBit b s).ret = .bit b := rfl
@[simp] theorem giveBit_inMem (b : Bool) (s : State) : (giveBit b s).inMem = s.inMem := rfl
@[simp] theorem giveBit_out (b : Bool) (s : State) : (giveBit b s).out = s.out := rfl
@[simp] theorem giveBit_ht (b : Bool) (s : State) : (giveBit b s).ht = s.ht := rfl
@[simp] theorem giveBit_host (b : Bool) (s : State) : (giveBit b s).host = s.host := rfl
@[simp] theorem giveBit_hostData (b : Bool) (s : State) : (giveBit b s).hostData = s.hostData := rfl
@[simp] theorem giveBit_inEra (b : Bool) (s : State) : (giveBit b s).inEra = s.inEra := rfl
@[simp] theorem giveBit_outEra (b : Bool) (s : State) : (giveBit b s).outEra = s.outEra := rfl

@[simp] theorem giveNum_cfg (n : Nat) (s : State) : (giveNum n s).cfg = s.cfg := rfl
@[simp] theorem giveNum_grain (n : Nat) (s : State) : (giveNum n s).grain = s.grain := rfl
@[simp] theorem giveNum_ctl (n : Nat) (s : State) : (giveNum n s).ctl = s.ctl := rfl
@[simp] theorem giveNum_status (n : Nat) (s : State) : (giveNum n s).status = s.status := rfl
@[simp] theorem giveNum_err (n : Nat) (s : State) : (giveNum n s).err = s.err := rfl
@[simp] theorem giveNum_inLen (n : Nat) (s : State) : (giveNum n s).inLen = s.inLen := rfl
@[simp] theorem giveNum_outLen (n : Nat) (s : State) : (giveNum n s).outLen = s.outLen := rfl
@[simp] theorem giveNum_outLimit (n : Nat) (s : State) : (giveNum n s).outLimit = s.outLimit := rfl
@[simp] theorem giveNum_sizeHint (n : Nat) (s : State) : (giveNum n s).sizeHint = s.sizeHint := rfl
@[simp] theorem giveNum_ip (n : Nat) (s : State) : (giveNum n s).ip = s.ip := rfl
@[simp] theorem giveNum_op (n : Nat) (s : State) : (giveNum n s).op = s.op := rfl
@[simp] theorem giveNum_nreg (n : Nat) (s : State) : (giveNum n s).nreg = s.nreg := rfl
@[simp] theorem giveNum_anchor (n : Nat) (s : State) : (giveNum n s).anchor = s.anchor := rfl
@[simp] theorem giveNum_seq4 (n : Nat) (s : State) : (giveNum n s).seq4 = s.seq4 := rfl
@[simp] theorem giveNum_hidx (n : Nat) (s : State) : (giveNum n s).hidx = s.hidx := rfl
@[simp] theorem giveNum_cand (n : Nat) (s : State) : (giveNum n s).cand = s.cand := rfl
@[simp] theorem giveNum_mlen (n : Nat) (s : State) : (giveNum n s).mlen = s.mlen := rfl
@[simp] theorem giveNum_off (n : Nat) (s : State) : (giveNum n s).off = s.off := rfl
@[simp] theorem giveNum_tok (n : Nat) (s : State) : (giveNum n s).tok = s.tok := rfl
@[simp] theorem giveNum_litlen (n : Nat) (s : State) : (giveNum n s).litlen = s.litlen := rfl
@[simp] theorem giveNum_lim (n : Nat) (s : State) : (giveNum n s).lim = s.lim := rfl
@[simp] theorem giveNum_lenAcc (n : Nat) (s : State) : (giveNum n s).lenAcc = s.lenAcc := rfl
@[simp] theorem giveNum_lenBias (n : Nat) (s : State) : (giveNum n s).lenBias = s.lenBias := rfl
@[simp] theorem giveNum_ret (n : Nat) (s : State) : (giveNum n s).ret = .num n := rfl
@[simp] theorem giveNum_inMem (n : Nat) (s : State) : (giveNum n s).inMem = s.inMem := rfl
@[simp] theorem giveNum_out (n : Nat) (s : State) : (giveNum n s).out = s.out := rfl
@[simp] theorem giveNum_ht (n : Nat) (s : State) : (giveNum n s).ht = s.ht := rfl
@[simp] theorem giveNum_host (n : Nat) (s : State) : (giveNum n s).host = s.host := rfl
@[simp] theorem giveNum_hostData (n : Nat) (s : State) : (giveNum n s).hostData = s.hostData := rfl
@[simp] theorem giveNum_inEra (n : Nat) (s : State) : (giveNum n s).inEra = s.inEra := rfl
@[simp] theorem giveNum_outEra (n : Nat) (s : State) : (giveNum n s).outEra = s.outEra := rfl

@[simp] theorem giveEntry_cfg (e : List Nat) (s : State) : (giveEntry e s).cfg = s.cfg := rfl
@[simp] theorem giveEntry_grain (e : List Nat) (s : State) : (giveEntry e s).grain = s.grain := rfl
@[simp] theorem giveEntry_ctl (e : List Nat) (s : State) : (giveEntry e s).ctl = s.ctl := rfl
@[simp] theorem giveEntry_status (e : List Nat) (s : State) : (giveEntry e s).status = s.status := rfl
@[simp] theorem giveEntry_err (e : List Nat) (s : State) : (giveEntry e s).err = s.err := rfl
@[simp] theorem giveEntry_inLen (e : List Nat) (s : State) : (giveEntry e s).inLen = s.inLen := rfl
@[simp] theorem giveEntry_outLen (e : List Nat) (s : State) : (giveEntry e s).outLen = s.outLen := rfl
@[simp] theorem giveEntry_outLimit (e : List Nat) (s : State) : (giveEntry e s).outLimit = s.outLimit := rfl
@[simp] theorem giveEntry_sizeHint (e : List Nat) (s : State) : (giveEntry e s).sizeHint = s.sizeHint := rfl
@[simp] theorem giveEntry_ip (e : List Nat) (s : State) : (giveEntry e s).ip = s.ip := rfl
@[simp] theorem giveEntry_op (e : List Nat) (s : State) : (giveEntry e s).op = s.op := rfl
@[simp] theorem giveEntry_nreg (e : List Nat) (s : State) : (giveEntry e s).nreg = s.nreg := rfl
@[simp] theorem giveEntry_anchor (e : List Nat) (s : State) : (giveEntry e s).anchor = s.anchor := rfl
@[simp] theorem giveEntry_seq4 (e : List Nat) (s : State) : (giveEntry e s).seq4 = s.seq4 := rfl
@[simp] theorem giveEntry_hidx (e : List Nat) (s : State) : (giveEntry e s).hidx = s.hidx := rfl
@[simp] theorem giveEntry_cand (e : List Nat) (s : State) : (giveEntry e s).cand = s.cand := rfl
@[simp] theorem giveEntry_mlen (e : List Nat) (s : State) : (giveEntry e s).mlen = s.mlen := rfl
@[simp] theorem giveEntry_off (e : List Nat) (s : State) : (giveEntry e s).off = s.off := rfl
@[simp] theorem giveEntry_tok (e : List Nat) (s : State) : (giveEntry e s).tok = s.tok := rfl
@[simp] theorem giveEntry_litlen (e : List Nat) (s : State) : (giveEntry e s).litlen = s.litlen := rfl
@[simp] theorem giveEntry_lim (e : List Nat) (s : State) : (giveEntry e s).lim = s.lim := rfl
@[simp] theorem giveEntry_lenAcc (e : List Nat) (s : State) : (giveEntry e s).lenAcc = s.lenAcc := rfl
@[simp] theorem giveEntry_lenBias (e : List Nat) (s : State) : (giveEntry e s).lenBias = s.lenBias := rfl
@[simp] theorem giveEntry_ret (e : List Nat) (s : State) : (giveEntry e s).ret = .entry e := rfl
@[simp] theorem giveEntry_inMem (e : List Nat) (s : State) : (giveEntry e s).inMem = s.inMem := rfl
@[simp] theorem giveEntry_out (e : List Nat) (s : State) : (giveEntry e s).out = s.out := rfl
@[simp] theorem giveEntry_ht (e : List Nat) (s : State) : (giveEntry e s).ht = s.ht := rfl
@[simp] theorem giveEntry_host (e : List Nat) (s : State) : (giveEntry e s).host = s.host := rfl
@[simp] theorem giveEntry_hostData (e : List Nat) (s : State) : (giveEntry e s).hostData = s.hostData := rfl
@[simp] theorem giveEntry_inEra (e : List Nat) (s : State) : (giveEntry e s).inEra = s.inEra := rfl
@[simp] theorem giveEntry_outEra (e : List Nat) (s : State) : (giveEntry e s).outEra = s.outEra := rfl

@[simp] theorem beginCompress_cfg (s : State) : (beginCompress s).cfg = s.cfg := rfl
@[simp] theorem beginCompress_grain (s : State) : (beginCompress s).grain = s.grain := rfl
@[simp] theorem beginCompress_ctl (s : State) : (beginCompress s).ctl = .scan := rfl
@[simp] theorem beginCompress_status (s : State) : (beginCompress s).status = .busy := rfl
@[simp] theorem beginCompress_err (s : State) : (beginCompress s).err = none := rfl
@[simp] theorem beginCompress_inLen (s : State) : (beginCompress s).inLen = s.inLen := rfl
@[simp] theorem beginCompress_outLen (s : State) : (beginCompress s).outLen = 0 := rfl
@[simp] theorem beginCompress_outLimit (s : State) : (beginCompress s).outLimit = s.outLimit := rfl
@[simp] theorem beginCompress_sizeHint (s : State) : (beginCompress s).sizeHint = s.sizeHint := rfl
@[simp] theorem beginCompress_ip (s : State) : (beginCompress s).ip = 0 := rfl
@[simp] theorem beginCompress_op (s : State) : (beginCompress s).op = 0 := rfl
@[simp] theorem beginCompress_nreg (s : State) : (beginCompress s).nreg = s.inLen := rfl
@[simp] theorem beginCompress_anchor (s : State) : (beginCompress s).anchor = 0 := rfl
@[simp] theorem beginCompress_seq4 (s : State) : (beginCompress s).seq4 = s.seq4 := rfl
@[simp] theorem beginCompress_hidx (s : State) : (beginCompress s).hidx = s.hidx := rfl
@[simp] theorem beginCompress_cand (s : State) : (beginCompress s).cand = s.cand := rfl
@[simp] theorem beginCompress_mlen (s : State) : (beginCompress s).mlen = s.mlen := rfl
@[simp] theorem beginCompress_off (s : State) : (beginCompress s).off = s.off := rfl
@[simp] theorem beginCompress_tok (s : State) : (beginCompress s).tok = s.tok := rfl
@[simp] theorem beginCompress_litlen (s : State) : (beginCompress s).litlen = s.litlen := rfl
@[simp] theorem beginCompress_lim (s : State) : (beginCompress s).lim = s.lim := rfl
@[simp] theorem beginCompress_lenAcc (s : State) : (beginCompress s).lenAcc = s.lenAcc := rfl
@[simp] theorem beginCompress_lenBias (s : State) : (beginCompress s).lenBias = s.lenBias := rfl
@[simp] theorem beginCompress_ret (s : State) : (beginCompress s).ret = s.ret := rfl
@[simp] theorem beginCompress_inMem (s : State) : (beginCompress s).inMem = s.inMem := rfl
@[simp] theorem beginCompress_out (s : State) : (beginCompress s).out = s.out := rfl
@[simp] theorem beginCompress_ht (s : State) : (beginCompress s).ht = [] := rfl
@[simp] theorem beginCompress_host (s : State) : (beginCompress s).host = s.host := rfl
@[simp] theorem beginCompress_hostData (s : State) : (beginCompress s).hostData = s.hostData := rfl
@[simp] theorem beginCompress_inEra (s : State) : (beginCompress s).inEra = s.inEra := rfl
@[simp] theorem beginCompress_outEra (s : State) : (beginCompress s).outEra = s.outEra + 1 := rfl

@[simp] theorem beginDecompress_cfg (s : State) : (beginDecompress s).cfg = s.cfg := rfl
@[simp] theorem beginDecompress_grain (s : State) : (beginDecompress s).grain = s.grain := rfl
@[simp] theorem beginDecompress_ctl (s : State) : (beginDecompress s).ctl = entryCtl s.grain := rfl
@[simp] theorem beginDecompress_status (s : State) : (beginDecompress s).status = .busy := rfl
@[simp] theorem beginDecompress_err (s : State) : (beginDecompress s).err = none := rfl
@[simp] theorem beginDecompress_inLen (s : State) : (beginDecompress s).inLen = s.inLen := rfl
@[simp] theorem beginDecompress_outLen (s : State) : (beginDecompress s).outLen = 0 := rfl
@[simp] theorem beginDecompress_outLimit (s : State) : (beginDecompress s).outLimit = s.outLimit := rfl
@[simp] theorem beginDecompress_sizeHint (s : State) : (beginDecompress s).sizeHint = s.sizeHint := rfl
@[simp] theorem beginDecompress_ip (s : State) : (beginDecompress s).ip = 0 := rfl
@[simp] theorem beginDecompress_op (s : State) : (beginDecompress s).op = 0 := rfl
@[simp] theorem beginDecompress_nreg (s : State) : (beginDecompress s).nreg = s.inLen := rfl
@[simp] theorem beginDecompress_anchor (s : State) : (beginDecompress s).anchor = s.anchor := rfl
@[simp] theorem beginDecompress_seq4 (s : State) : (beginDecompress s).seq4 = s.seq4 := rfl
@[simp] theorem beginDecompress_hidx (s : State) : (beginDecompress s).hidx = s.hidx := rfl
@[simp] theorem beginDecompress_cand (s : State) : (beginDecompress s).cand = s.cand := rfl
@[simp] theorem beginDecompress_mlen (s : State) : (beginDecompress s).mlen = s.mlen := rfl
@[simp] theorem beginDecompress_off (s : State) : (beginDecompress s).off = s.off := rfl
@[simp] theorem beginDecompress_tok (s : State) : (beginDecompress s).tok = s.tok := rfl
@[simp] theorem beginDecompress_litlen (s : State) : (beginDecompress s).litlen = s.litlen := rfl
@[simp] theorem beginDecompress_lim (s : State) : (beginDecompress s).lim = s.outLimit := rfl
@[simp] theorem beginDecompress_lenAcc (s : State) : (beginDecompress s).lenAcc = s.lenAcc := rfl
@[simp] theorem beginDecompress_lenBias (s : State) : (beginDecompress s).lenBias = s.lenBias := rfl
@[simp] theorem beginDecompress_ret (s : State) : (beginDecompress s).ret = s.ret := rfl
@[simp] theorem beginDecompress_inMem (s : State) : (beginDecompress s).inMem = s.inMem := rfl
@[simp] theorem beginDecompress_out (s : State) : (beginDecompress s).out = s.out := rfl
@[simp] theorem beginDecompress_ht (s : State) : (beginDecompress s).ht = s.ht := rfl
@[simp] theorem beginDecompress_host (s : State) : (beginDecompress s).host = s.host := rfl
@[simp] theorem beginDecompress_hostData (s : State) : (beginDecompress s).hostData = s.hostData := rfl
@[simp] theorem beginDecompress_inEra (s : State) : (beginDecompress s).inEra = s.inEra := rfl
@[simp] theorem beginDecompress_outEra (s : State) : (beginDecompress s).outEra = s.outEra + 1 := rfl

@[simp] theorem endLitlen_cfg (s : State) : (endLitlen s).cfg = s.cfg := rfl
@[simp] theorem endLitlen_grain (s : State) : (endLitlen s).grain = s.grain := rfl
@[simp] theorem endLitlen_ctl (s : State) : (endLitlen s).ctl = .copyLiterals := rfl
@[simp] theorem endLitlen_status (s : State) : (endLitlen s).status = s.status := rfl
@[simp] theorem endLitlen_err (s : State) : (endLitlen s).err = s.err := rfl
@[simp] theorem endLitlen_inLen (s : State) : (endLitlen s).inLen = s.inLen := rfl
@[simp] theorem endLitlen_outLen (s : State) : (endLitlen s).outLen = s.outLen := rfl
@[simp] theorem endLitlen_outLimit (s : State) : (endLitlen s).outLimit = s.outLimit := rfl
@[simp] theorem endLitlen_sizeHint (s : State) : (endLitlen s).sizeHint = s.sizeHint := rfl
@[simp] theorem endLitlen_ip (s : State) : (endLitlen s).ip = s.ip := rfl
@[simp] theorem endLitlen_op (s : State) : (endLitlen s).op = s.op := rfl
@[simp] theorem endLitlen_nreg (s : State) : (endLitlen s).nreg = s.nreg := rfl
@[simp] theorem endLitlen_anchor (s : State) : (endLitlen s).anchor = s.anchor := rfl
@[simp] theorem endLitlen_seq4 (s : State) : (endLitlen s).seq4 = s.seq4 := rfl
@[simp] theorem endLitlen_hidx (s : State) : (endLitlen s).hidx = s.hidx := rfl
@[simp] theorem endLitlen_cand (s : State) : (endLitlen s).cand = s.cand := rfl
@[simp] theorem endLitlen_mlen (s : State) : (endLitlen s).mlen = s.mlen := rfl
@[simp] theorem endLitlen_off (s : State) : (endLitlen s).off = s.off := rfl
@[simp] theorem endLitlen_tok (s : State) : (endLitlen s).tok = s.tok := rfl
@[simp] theorem endLitlen_litlen (s : State) : (endLitlen s).litlen = s.lenAcc := rfl
@[simp] theorem endLitlen_lim (s : State) : (endLitlen s).lim = s.lim := rfl
@[simp] theorem endLitlen_lenAcc (s : State) : (endLitlen s).lenAcc = s.lenAcc := rfl
@[simp] theorem endLitlen_lenBias (s : State) : (endLitlen s).lenBias = s.lenBias := rfl
@[simp] theorem endLitlen_ret (s : State) : (endLitlen s).ret = s.ret := rfl
@[simp] theorem endLitlen_inMem (s : State) : (endLitlen s).inMem = s.inMem := rfl
@[simp] theorem endLitlen_out (s : State) : (endLitlen s).out = s.out := rfl
@[simp] theorem endLitlen_ht (s : State) : (endLitlen s).ht = s.ht := rfl
@[simp] theorem endLitlen_host (s : State) : (endLitlen s).host = s.host := rfl
@[simp] theorem endLitlen_hostData (s : State) : (endLitlen s).hostData = s.hostData := rfl
@[simp] theorem endLitlen_inEra (s : State) : (endLitlen s).inEra = s.inEra := rfl
@[simp] theorem endLitlen_outEra (s : State) : (endLitlen s).outEra = s.outEra := rfl

@[simp] theorem endMatchlen_cfg (s : State) : (endMatchlen s).cfg = s.cfg := rfl
@[simp] theorem endMatchlen_grain (s : State) : (endMatchlen s).grain = s.grain := rfl
@[simp] theorem endMatchlen_ctl (s : State) : (endMatchlen s).ctl = .copyMatch := rfl
@[simp] theorem endMatchlen_status (s : State) : (endMatchlen s).status = s.status := rfl
@[simp] theorem endMatchlen_err (s : State) : (endMatchlen s).err = s.err := rfl
@[simp] theorem endMatchlen_inLen (s : State) : (endMatchlen s).inLen = s.inLen := rfl
@[simp] theorem endMatchlen_outLen (s : State) : (endMatchlen s).outLen = s.outLen := rfl
@[simp] theorem endMatchlen_outLimit (s : State) : (endMatchlen s).outLimit = s.outLimit := rfl
@[simp] theorem endMatchlen_sizeHint (s : State) : (endMatchlen s).sizeHint = s.sizeHint := rfl
@[simp] theorem endMatchlen_ip (s : State) : (endMatchlen s).ip = s.ip := rfl
@[simp] theorem endMatchlen_op (s : State) : (endMatchlen s).op = s.op := rfl
@[simp] theorem endMatchlen_nreg (s : State) : (endMatchlen s).nreg = s.nreg := rfl
@[simp] theorem endMatchlen_anchor (s : State) : (endMatchlen s).anchor = s.anchor := rfl
@[simp] theorem endMatchlen_seq4 (s : State) : (endMatchlen s).seq4 = s.seq4 := rfl
@[simp] theorem endMatchlen_hidx (s : State) : (endMatchlen s).hidx = s.hidx := rfl
@[simp] theorem endMatchlen_cand (s : State) : (endMatchlen s).cand = s.cand := rfl
@[simp] theorem endMatchlen_mlen (s : State) : (endMatchlen s).mlen = s.lenAcc + 4 := rfl
@[simp] theorem endMatchlen_off (s : State) : (endMatchlen s).off = s.off := rfl
@[simp] theorem endMatchlen_tok (s : State) : (endMatchlen s).tok = s.tok := rfl
@[simp] theorem endMatchlen_litlen (s : State) : (endMatchlen s).litlen = s.litlen := rfl
@[simp] theorem endMatchlen_lim (s : State) : (endMatchlen s).lim = s.lim := rfl
@[simp] theorem endMatchlen_lenAcc (s : State) : (endMatchlen s).lenAcc = s.lenAcc := rfl
@[simp] theorem endMatchlen_lenBias (s : State) : (endMatchlen s).lenBias = s.lenBias := rfl
@[simp] theorem endMatchlen_ret (s : State) : (endMatchlen s).ret = s.ret := rfl
@[simp] theorem endMatchlen_inMem (s : State) : (endMatchlen s).inMem = s.inMem := rfl
@[simp] theorem endMatchlen_out (s : State) : (endMatchlen s).out = s.out := rfl
@[simp] theorem endMatchlen_ht (s : State) : (endMatchlen s).ht = s.ht := rfl
@[simp] theorem endMatchlen_host (s : State) : (endMatchlen s).host = s.host := rfl
@[simp] theorem endMatchlen_hostData (s : State) : (endMatchlen s).hostData = s.hostData := rfl
@[simp] theorem endMatchlen_inEra (s : State) : (endMatchlen s).inEra = s.inEra := rfl
@[simp] theorem endMatchlen_outEra (s : State) : (endMatchlen s).outEra = s.outEra := rfl

@[simp] theorem afterEmit_cfg (s : State) : (afterEmit s).cfg = s.cfg := rfl
@[simp] theorem afterEmit_grain (s : State) : (afterEmit s).grain = s.grain := rfl
@[simp] theorem afterEmit_ctl (s : State) : (afterEmit s).ctl = .scan := rfl
@[simp] theorem afterEmit_status (s : State) : (afterEmit s).status = s.status := rfl
@[simp] theorem afterEmit_err (s : State) : (afterEmit s).err = s.err := rfl
@[simp] theorem afterEmit_inLen (s : State) : (afterEmit s).inLen = s.inLen := rfl
@[simp] theorem afterEmit_outLen (s : State) : (afterEmit s).outLen = s.outLen := rfl
@[simp] theorem afterEmit_outLimit (s : State) : (afterEmit s).outLimit = s.outLimit := rfl
@[simp] theorem afterEmit_sizeHint (s : State) : (afterEmit s).sizeHint = s.sizeHint := rfl
@[simp] theorem afterEmit_ip (s : State) : (afterEmit s).ip = s.ip + s.mlen := rfl
@[simp] theorem afterEmit_op (s : State) : (afterEmit s).op = s.op := rfl
@[simp] theorem afterEmit_nreg (s : State) : (afterEmit s).nreg = s.nreg := rfl
@[simp] theorem afterEmit_anchor (s : State) : (afterEmit s).anchor = s.ip + s.mlen := rfl
@[simp] theorem afterEmit_seq4 (s : State) : (afterEmit s).seq4 = s.seq4 := rfl
@[simp] theorem afterEmit_hidx (s : State) : (afterEmit s).hidx = s.hidx := rfl
@[simp] theorem afterEmit_cand (s : State) : (afterEmit s).cand = s.cand := rfl
@[simp] theorem afterEmit_mlen (s : State) : (afterEmit s).mlen = s.mlen := rfl
@[simp] theorem afterEmit_off (s : State) : (afterEmit s).off = s.off := rfl
@[simp] theorem afterEmit_tok (s : State) : (afterEmit s).tok = s.tok := rfl
@[simp] theorem afterEmit_litlen (s : State) : (afterEmit s).litlen = s.litlen := rfl
@[simp] theorem afterEmit_lim (s : State) : (afterEmit s).lim = s.lim := rfl
@[simp] theorem afterEmit_lenAcc (s : State) : (afterEmit s).lenAcc = s.lenAcc := rfl
@[simp] theorem afterEmit_lenBias (s : State) : (afterEmit s).lenBias = s.lenBias := rfl
@[simp] theorem afterEmit_ret (s : State) : (afterEmit s).ret = s.ret := rfl
@[simp] theorem afterEmit_inMem (s : State) : (afterEmit s).inMem = s.inMem := rfl
@[simp] theorem afterEmit_out (s : State) : (afterEmit s).out = s.out := rfl
@[simp] theorem afterEmit_ht (s : State) : (afterEmit s).ht = s.ht := rfl
@[simp] theorem afterEmit_host (s : State) : (afterEmit s).host = s.host := rfl
@[simp] theorem afterEmit_hostData (s : State) : (afterEmit s).hostData = s.hostData := rfl
@[simp] theorem afterEmit_inEra (s : State) : (afterEmit s).inEra = s.inEra := rfl
@[simp] theorem afterEmit_outEra (s : State) : (afterEmit s).outEra = s.outEra := rfl

@[simp] theorem quiet_eq (u : Unit) (s : State) : quiet u s = s := rfl

@[simp] theorem giveTuple_none (lits : List Byte) (s : State) :
    giveTuple (lits, none) s = finish { s with ret := .tuple lits none } := rfl

@[simp] theorem giveTuple_some (lits : List Byte) (m : Half × Nat) (s : State) :
    giveTuple (lits, some m) s = { s with ret := .tuple lits (some m) } := rfl

end Sys2Proof.Machine
end

