-- ==== Sys2Proof/Laws/Ops.lean ====
section
/-! SUPPORT. What the shared operations do, said once: memory runs, appends, the match copy, lengths and offsets. -/

namespace Sys2Proof.Machine

/-! ### Sizes -/

theorem maxSize_add_le_maxCsize (c : Config) : c.maxSize + c.maxSize / 255 + 16 = maxCsize c := rfl

theorem maxSize_lt_maxCsize (c : Config) : c.maxSize < maxCsize c := by unfold maxCsize; omega

/-- `MAX_CSIZE` fits a position register (R8). -/
theorem maxCsize_lt (c : Config) : maxCsize c < 2 ^ posW c := Nat.lt_log2_self

/-- `POS_W` is the ceiling of the base-2 logarithm of `MAX_CSIZE + 1` (R8). -/
theorem posW_eq_clog (c : Config) : posW c = Nat.clog 2 (maxCsize c + 1) := by
  have h0 : maxCsize c ≠ 0 := by unfold maxCsize; omega
  apply le_antisymm
  · have h := Nat.log2_self_le h0
    have : Nat.log2 (maxCsize c) < Nat.clog 2 (maxCsize c + 1) := by
      rw [Nat.lt_clog_iff_pow_lt (by omega)]; omega
    unfold posW; omega
  · rw [Nat.clog_le_iff_le_pow (by omega)]
    exact maxCsize_lt c

/-! ### The outcome of an operation -/

@[simp] theorem Res.bind_ok {α β : Type} (a : α) (s : State) (f : α → State → Res β) : (Res.ok a s).bind f = f a s := rfl

@[simp] theorem Res.bind_err {α β : Type} (e : ErrKind) (s : State) (f : α → State → Res β) :
    (Res.err e s).bind f = .err e s := rfl

@[simp] theorem Res.bind_fault {α β : Type} (e : Fault) (f : α → State → Res β) :
    (Res.fault e : Res α).bind f = .fault e := rfl

@[simp] theorem Res.outcome_ok {α : Type} (a : α) (s : State) (d : α → State → State) :
    (Res.ok a s).outcome d = .next (d a s) := rfl

@[simp] theorem Res.outcome_err {α : Type} (e : ErrKind) (s : State) (d : α → State → State) :
    (Res.err e s).outcome d = .next (raise e s) := rfl

@[simp] theorem Res.outcome_fault {α : Type} (f : Fault) (d : α → State → State) :
    (Res.fault f : Res α).outcome d = .fault f := rfl

/-- A chain that ends well went through a good first operation. -/
theorem Res.bind_eq_ok {α β : Type} {r : Res α} {f : α → State → Res β} {b : β} {t : State} :
    r.bind f = .ok b t ↔ ∃ a s, r = .ok a s ∧ f a s = .ok b t := by
  cases r <;> simp [Res.bind]

theorem Res.bind_assoc {α β γ : Type} (r : Res α) (f : α → State → Res β) (g : β → State → Res γ) :
    (r.bind f).bind g = r.bind fun a s => (f a s).bind g := by cases r <;> rfl

/-- An operation answers a next state exactly when it stays in bounds. -/
theorem Res.outcome_eq_next {α : Type} {r : Res α} {d : α → State → State} {t : State} :
    r.outcome d = .next t ↔ (∃ a s, r = .ok a s ∧ d a s = t) ∨ (∃ e s, r = .err e s ∧ raise e s = t) := by
  cases r <;> simp [Res.outcome]

/-! ### Runs of bytes -/

@[simp] theorem State.inRun_length (s : State) (a n : Nat) : (s.inRun a n).length = n := by
  induction n generalizing a with
  | zero => rfl
  | succ n ih => simp [State.inRun, ih]

@[simp] theorem State.outRun_length (s : State) (a n : Nat) : (s.outRun a n).length = n := by
  induction n generalizing a with
  | zero => rfl
  | succ n ih => simp [State.outRun, ih]

@[simp] theorem State.inRun_getElem (s : State) (a n i : Nat) (h : i < (s.inRun a n).length) :
    (s.inRun a n)[i] = s.inAt (a + i) := by
  induction n generalizing a i with
  | zero => simp at h
  | succ n ih =>
    cases i with
    | zero => rfl
    | succ i =>
      simp only [State.inRun, List.getElem_cons_succ, ih]
      rw [show a + 1 + i = a + (i + 1) by omega]

@[simp] theorem State.outRun_getElem (s : State) (a n i : Nat) (h : i < (s.outRun a n).length) :
    (s.outRun a n)[i] = s.outAt (a + i) := by
  induction n generalizing a i with
  | zero => simp at h
  | succ n ih =>
    cases i with
    | zero => rfl
    | succ i =>
      simp only [State.outRun, List.getElem_cons_succ, ih]
      rw [show a + 1 + i = a + (i + 1) by omega]

theorem State.inRun_add (s : State) (a m n : Nat) : s.inRun a (m + n) = s.inRun a m ++ s.inRun (a + m) n := by
  induction m generalizing a with
  | zero => simp [State.inRun]
  | succ m ih => rw [Nat.add_right_comm, State.inRun, ih, State.inRun, List.cons_append,
      show a + 1 + m = a + (m + 1) by omega]

theorem State.outRun_add (s : State) (a m n : Nat) : s.outRun a (m + n) = s.outRun a m ++ s.outRun (a + m) n := by
  induction m generalizing a with
  | zero => simp [State.outRun]
  | succ m ih => rw [Nat.add_right_comm, State.outRun, ih, State.outRun, List.cons_append,
      show a + 1 + m = a + (m + 1) by omega]

/-- A run depends on the bytes of its positions only. -/
theorem State.inRun_congr {s t : State} {a n : Nat} (h : ∀ i < n, s.inAt (a + i) = t.inAt (a + i)) :
    s.inRun a n = t.inRun a n :=
  List.ext_getElem (by simp) fun i h1 h2 => by
    rw [State.inRun_getElem, State.inRun_getElem]; exact h i (by simpa using h1)

theorem State.outRun_congr {s t : State} {a n : Nat} (h : ∀ i < n, s.outAt (a + i) = t.outAt (a + i)) :
    s.outRun a n = t.outRun a n :=
  List.ext_getElem (by simp) fun i h1 h2 => by
    rw [State.outRun_getElem, State.outRun_getElem]; exact h i (by simpa using h1)

/-- Reading IN depends on IN and its era only. -/
theorem State.inAt_congr {s t : State} (h : t.inMem = s.inMem) (he : t.inEra = s.inEra) (a : Nat) :
    t.inAt a = s.inAt a := by simp only [State.inAt, h, he]

theorem State.inRun_same {s t : State} (h : t.inMem = s.inMem) (he : t.inEra = s.inEra) (a n : Nat) :
    t.inRun a n = s.inRun a n := State.inRun_congr fun _ _ => State.inAt_congr h he _

/-- Reading OUT depends on OUT and its era only. -/
theorem State.outAt_congr {s t : State} (h : t.out = s.out) (he : t.outEra = s.outEra) (a : Nat) :
    t.outAt a = s.outAt a := by simp only [State.outAt, h, he]

theorem State.outRun_same {s t : State} (h : t.out = s.out) (he : t.outEra = s.outEra) (a n : Nat) :
    t.outRun a n = s.outRun a n := State.outRun_congr fun _ _ => State.outAt_congr h he _

theorem State.take_inRun (s : State) (a m n : Nat) (h : m ≤ n) : (s.inRun a n).take m = s.inRun a m := by
  rw [show n = m + (n - m) by omega, State.inRun_add, List.take_left' (by simp)]

theorem State.drop_inRun (s : State) (a m n : Nat) : (s.inRun a n).drop m = s.inRun (a + m) (n - m) := by
  by_cases h : m ≤ n
  · conv_lhs => rw [show n = m + (n - m) by omega, State.inRun_add]
    rw [List.drop_left' (by simp)]
  · rw [List.drop_of_length_le (by simp; omega), show n - m = 0 by omega]; rfl

/-! ### Writing OUT -/

/-- A byte appended, in bounds. -/
theorem append_ok {s : State} {v : Byte} (h : s.op < maxCsize s.cfg) :
    append v s = .ok () { s with out := Cells.write s.out s.op v, op := s.op + 1 } := if_pos h

/-- The state with bytes appended: listed from `OP` on, `OP` moved past them. -/
def State.wrote (s : State) (vs : List Byte) : State :=
  { s with out := Cells.writeRun s.out s.op vs, op := s.op + vs.length }

@[simp] theorem State.wrote_out (s : State) (vs : List Byte) : (s.wrote vs).out = Cells.writeRun s.out s.op vs := rfl
@[simp] theorem State.wrote_op (s : State) (vs : List Byte) : (s.wrote vs).op = s.op + vs.length := rfl
@[simp] theorem State.wrote_cfg (s : State) (vs : List Byte) : (s.wrote vs).cfg = s.cfg := rfl
@[simp] theorem State.wrote_grain (s : State) (vs : List Byte) : (s.wrote vs).grain = s.grain := rfl
@[simp] theorem State.wrote_ctl (s : State) (vs : List Byte) : (s.wrote vs).ctl = s.ctl := rfl
@[simp] theorem State.wrote_status (s : State) (vs : List Byte) : (s.wrote vs).status = s.status := rfl
@[simp] theorem State.wrote_err (s : State) (vs : List Byte) : (s.wrote vs).err = s.err := rfl
@[simp] theorem State.wrote_inLen (s : State) (vs : List Byte) : (s.wrote vs).inLen = s.inLen := rfl
@[simp] theorem State.wrote_outLen (s : State) (vs : List Byte) : (s.wrote vs).outLen = s.outLen := rfl
@[simp] theorem State.wrote_outLimit (s : State) (vs : List Byte) : (s.wrote vs).outLimit = s.outLimit := rfl
@[simp] theorem State.wrote_sizeHint (s : State) (vs : List Byte) : (s.wrote vs).sizeHint = s.sizeHint := rfl
@[simp] theorem State.wrote_ip (s : State) (vs : List Byte) : (s.wrote vs).ip = s.ip := rfl
@[simp] theorem State.wrote_nreg (s : State) (vs : List Byte) : (s.wrote vs).nreg = s.nreg := rfl
@[simp] theorem State.wrote_anchor (s : State) (vs : List Byte) : (s.wrote vs).anchor = s.anchor := rfl
@[simp] theorem State.wrote_seq4 (s : State) (vs : List Byte) : (s.wrote vs).seq4 = s.seq4 := rfl
@[simp] theorem State.wrote_hidx (s : State) (vs : List Byte) : (s.wrote vs).hidx = s.hidx := rfl
@[simp] theorem State.wrote_cand (s : State) (vs : List Byte) : (s.wrote vs).cand = s.cand := rfl
@[simp] theorem State.wrote_mlen (s : State) (vs : List Byte) : (s.wrote vs).mlen = s.mlen := rfl
@[simp] theorem State.wrote_off (s : State) (vs : List Byte) : (s.wrote vs).off = s.off := rfl
@[simp] theorem State.wrote_tok (s : State) (vs : List Byte) : (s.wrote vs).tok = s.tok := rfl
@[simp] theorem State.wrote_litlen (s : State) (vs : List Byte) : (s.wrote vs).litlen = s.litlen := rfl
@[simp] theorem State.wrote_lim (s : State) (vs : List Byte) : (s.wrote vs).lim = s.lim := rfl
@[simp] theorem State.wrote_lenAcc (s : State) (vs : List Byte) : (s.wrote vs).lenAcc = s.lenAcc := rfl
@[simp] theorem State.wrote_lenBias (s : State) (vs : List Byte) : (s.wrote vs).lenBias = s.lenBias := rfl
@[simp] theorem State.wrote_ret (s : State) (vs : List Byte) : (s.wrote vs).ret = s.ret := rfl
@[simp] theorem State.wrote_inMem (s : State) (vs : List Byte) : (s.wrote vs).inMem = s.inMem := rfl
@[simp] theorem State.wrote_ht (s : State) (vs : List Byte) : (s.wrote vs).ht = s.ht := rfl
@[simp] theorem State.wrote_host (s : State) (vs : List Byte) : (s.wrote vs).host = s.host := rfl
@[simp] theorem State.wrote_hostData (s : State) (vs : List Byte) : (s.wrote vs).hostData = s.hostData := rfl
@[simp] theorem State.wrote_inEra (s : State) (vs : List Byte) : (s.wrote vs).inEra = s.inEra := rfl
@[simp] theorem State.wrote_outEra (s : State) (vs : List Byte) : (s.wrote vs).outEra = s.outEra := rfl
@[simp] theorem State.wrote_inAt (s : State) (vs : List Byte) (a : Nat) : (s.wrote vs).inAt a = s.inAt a := rfl
@[simp] theorem State.wrote_nil (s : State) : s.wrote [] = s := rfl

@[simp] theorem State.wrote_inRun (s : State) (vs : List Byte) (a n : Nat) : (s.wrote vs).inRun a n = s.inRun a n :=
  State.inRun_congr fun _ _ => rfl

theorem State.wrote_cons (s : State) (v : Byte) (vs : List Byte) : s.wrote (v :: vs) = (s.wrote [v]).wrote vs := by
  simp only [State.wrote, Cells.writeRun, List.length_cons, List.length_nil, Nat.add_assoc, Nat.add_comm 1, Nat.zero_add]

theorem State.wrote_append (s : State) (xs ys : List Byte) : s.wrote (xs ++ ys) = (s.wrote xs).wrote ys := by
  induction xs generalizing s with
  | nil => rfl
  | cons x xs ih => rw [List.cons_append, State.wrote_cons, ih, ← State.wrote_cons]

/-- What OUT reads as after bytes were appended. -/
theorem State.wrote_outAt (s : State) (vs : List Byte) (b : Nat) :
    (s.wrote vs).outAt b = if h : s.op ≤ b ∧ b < s.op + vs.length then vs[b - s.op]'(by omega) else s.outAt b := by
  simp only [State.outAt, State.wrote_out, State.wrote_outEra, Cells.read_writeRun]
  split <;> rfl

/-- What was below `OP` reads as before. -/
theorem State.wrote_outAt_below (s : State) (vs : List Byte) {b : Nat} (h : b < s.op) :
    (s.wrote vs).outAt b = s.outAt b := by
  rw [State.wrote_outAt, dif_neg (by omega)]

/-- The bytes appended are read back. -/
theorem State.wrote_outRun (s : State) (vs : List Byte) : (s.wrote vs).outRun s.op vs.length = vs :=
  List.ext_getElem (by simp) fun i h1 h2 => by
    rw [State.outRun_getElem, State.wrote_outAt, dif_pos ⟨by omega, by omega⟩]; simp

/-- Bytes appended, in bounds. -/
theorem appendAll_ok {vs : List Byte} {s : State} (h : s.op + vs.length ≤ maxCsize s.cfg) :
    appendAll vs s = .ok () (s.wrote vs) := by
  induction vs generalizing s with
  | nil => rfl
  | cons v vs ih =>
    simp only [List.length_cons] at h
    have h1 : append v s = .ok () (s.wrote [v]) := append_ok (by omega)
    rw [appendAll, h1, Res.bind_ok, ih (by simp only [State.wrote_op, State.wrote_cfg, List.length_singleton]; omega),
      ← State.wrote_cons]

/-- An append answers only in bounds. -/
theorem appendAll_inv {vs : List Byte} {s t : State} (h : appendAll vs s = .ok () t) :
    t = s.wrote vs ∧ (s.op + vs.length ≤ maxCsize s.cfg ∨ vs = []) := by
  induction vs generalizing s with
  | nil => cases h; exact ⟨rfl, .inr rfl⟩
  | cons v vs ih =>
    rw [appendAll, append] at h
    split at h
    · have h' : appendAll vs (s.wrote [v]) = .ok () t := h
      obtain ⟨h1, h2⟩ := ih h'
      refine ⟨by rw [h1, ← State.wrote_cons], .inl ?_⟩
      simp only [State.wrote_op, State.wrote_cfg, List.length_cons] at h2 ⊢
      rcases h2 with h2 | rfl
      · omega
      · simp only [List.length_nil]; omega
    · cases h

theorem appendAll_append (xs ys : List Byte) (s : State) :
    appendAll (xs ++ ys) s = (appendAll xs s).bind fun _ s => appendAll ys s := by
  induction xs generalizing s with
  | nil => rfl
  | cons x xs ih =>
    rw [List.cons_append, appendAll, appendAll, Res.bind_assoc]
    congr 1; funext _ s; exact ih s

/-- An append raises no decode error. -/
theorem appendAll_ne_err (vs : List Byte) (s : State) (e : ErrKind) (t : State) : appendAll vs s ≠ .err e t := by
  induction vs generalizing s with
  | nil => simp [appendAll]
  | cons v vs ih =>
    rw [appendAll, append]
    split
    · exact ih _
    · simp

/-! ### The match copy -/

/-- `COPY_MATCH`'s loop in bounds (R221): it appends `n` bytes; each equals the byte as far back as the source is; nothing
else changes. -/
theorem copyFrom_ok {n src : Nat} {s : State} (hs : src < s.op) (hn : s.op + n ≤ maxCsize s.cfg) :
    ∃ vs : List Byte, vs.length = n ∧
      copyFrom n src s = .ok () (s.wrote vs) ∧
      ∀ i (h : i < vs.length), vs[i] =
        if h' : src + i < s.op then s.outAt (src + i) else vs[src + i - s.op]'(by omega) := by
  induction n generalizing src s with
  | zero => exact ⟨[], rfl, rfl, by simp⟩
  | succ n ih =>
    have h1 : copyFrom (n + 1) src s = copyFrom n (src + 1) (s.wrote [s.outAt src]) := by
      have ha : append (s.outAt src) s = .ok () (s.wrote [s.outAt src]) := append_ok (by omega)
      rw [copyFrom, readOut, if_pos hs, Res.bind_ok, ha, Res.bind_ok]
    obtain ⟨vs, hl, hc, hv⟩ := ih (src := src + 1) (s := s.wrote [s.outAt src])
      (by rw [State.wrote_op, List.length_singleton]; omega)
      (by rw [State.wrote_op, State.wrote_cfg, List.length_singleton]; omega)
    refine ⟨s.outAt src :: vs, by simp [hl], by rw [h1, hc, ← State.wrote_cons], ?_⟩
    intro i h
    cases i with
    | zero => simp [hs]
    | succ i =>
      have hi : i < vs.length := by simpa using h
      simp only [List.getElem_cons_succ]
      rw [hv i hi]
      have ho : (s.wrote [s.outAt src]).op = s.op + 1 := rfl
      by_cases ha : src + (i + 1) < s.op
      · rw [dif_pos ha, dif_pos (by omega), State.wrote_outAt_below _ _ (by omega),
          show src + 1 + i = src + (i + 1) by omega]
      · rw [dif_neg ha]
        by_cases hb : src + (i + 1) = s.op
        · rw [dif_pos (by omega), State.wrote_outAt, dif_pos ⟨by omega, by simp only [List.length_singleton]; omega⟩]
          simp only [show src + 1 + i - s.op = 0 by omega, show src + (i + 1) - s.op = 0 by omega,
            List.getElem_cons_zero]
        · rw [dif_neg (by omega)]
          have : src + (i + 1) - s.op = (src + 1 + i - (s.wrote [s.outAt src]).op) + 1 := by omega
          simp only [this, List.getElem_cons_succ]

/-- The periodicity law (R222): after the copy, byte `i` is the byte `i mod OFF` of the source. -/
theorem copyFrom_periodic {vs : List Byte} {off : Nat} {s : State} (h0 : 0 < off) (h1 : off ≤ s.op)
    (hv : ∀ i (h : i < vs.length), vs[i] =
      if h' : s.op - off + i < s.op then s.outAt (s.op - off + i) else vs[s.op - off + i - s.op]'(by omega)) :
    ∀ i (h : i < vs.length), vs[i] = s.outAt (s.op - off + i % off) := by
  intro i
  induction i using Nat.strong_induction_on with
  | _ i ih =>
    intro h
    rw [hv i h]
    by_cases hi : s.op - off + i < s.op
    · rw [dif_pos hi, Nat.mod_eq_of_lt (by omega)]
    · rw [dif_neg hi]
      have he : s.op - off + i - s.op = i - off := by omega
      simp only [he]
      rw [ih (i - off) (by omega) (by omega)]
      rw [← Nat.mod_eq_sub_mod (by omega)]

/-! ### Fields -/

/-- A length that fits the room (R126). -/
theorem takeLen_ok {n bias rm : Nat} {rest : List Byte} {s : State} (h : n + bias ≤ rm) :
    takeLen (selOf n) bias rm (extBytes n ++ rest) s = .ok n { s with ip := s.ip + extSize n } := by
  rw [takeLen, scanLength_extBytes _ _ _ _ h]

/-- A length that does not fit the room (R273). -/
theorem takeLen_overflow {n bias rm : Nat} {rest : List Byte} {s : State} (h : rm < n + bias) :
    ∃ u, takeLen (selOf n) bias rm (extBytes n ++ rest) s = .err .lengthOverflow { s with ip := s.ip + u } := by
  obtain ⟨u, hu⟩ := scanLength_overflow n bias rm rest h
  exact ⟨u, by rw [takeLen, hu]⟩

/-- A length is taken from its own bytes as from a longer run. -/
theorem takeLen_append (n bias rm : Nat) (rest : List Byte) (s : State) :
    takeLen (selOf n) bias rm (extBytes n ++ rest) s = takeLen (selOf n) bias rm (extBytes n) s := by
  rw [takeLen, takeLen, scanLength_extBytes_append]

theorem takeLitlen_ok {n : Nat} {rest : List Byte} {s : State} (h : n ≤ room s) :
    takeLitlen (selOf n) (extBytes n ++ rest) s = .ok () { s with ip := s.ip + extSize n, litlen := n } := by
  rw [takeLitlen, takeLen_ok (by omega)]; rfl

theorem takeMatchlen_ok {n : Nat} {rest : List Byte} {s : State} (h : n + 4 ≤ room s) :
    takeMatchlen (selOf n) (extBytes n ++ rest) s = .ok () { s with ip := s.ip + extSize n, mlen := n + 4 } := by
  rw [takeMatchlen, takeLen_ok h]; rfl

theorem takeLits_ok {lits : List Byte} {s : State} (h : s.op + lits.length ≤ maxCsize s.cfg) :
    takeLits lits s = .ok () { s.wrote lits with ip := s.ip + lits.length } := by
  rw [takeLits, appendAll_ok h]; rfl

theorem takeOffset_ok {off : Half} {s : State} (h1 : 1 ≤ off.toNat) (h2 : off.toNat ≤ s.op) :
    takeOffset off s = .ok () { s with off := off, ip := s.ip + 2 } := by
  have : off ≠ 0#16 := by rintro rfl; simp at h1
  simp only [takeOffset]; rw [if_neg (by simp only [not_or]; exact ⟨this, by omega⟩)]

theorem takeOffset_invalid {off : Half} {s : State} (h : off = 0#16 ∨ s.op < off.toNat) :
    takeOffset off s = .err .invalidOffset { s with off := off, ip := s.ip + 2 } := by
  simp only [takeOffset]; rw [if_pos h]

/-- The bytes to the end of the input, in bounds. -/
theorem restIn_ok {s : State} (h1 : s.ip ≤ s.nreg) (h2 : s.nreg ≤ maxCsize s.cfg) :
    restIn s = .ok (s.inRun s.ip (s.nreg - s.ip)) s := if_pos ⟨h1, h2⟩

theorem takeIn_ok {s : State} {a n : Nat} (h1 : a + n ≤ s.nreg) (h2 : a + n ≤ maxCsize s.cfg) :
    takeIn a n s = .ok (s.inRun a n) s := if_pos ⟨h1, h2⟩

/-- A read of IN answers only in bounds. -/
theorem takeIn_inv {a n : Nat} {s t : State} {bs : List Byte} (h : takeIn a n s = .ok bs t) :
    bs = s.inRun a n ∧ t = s ∧ a + n ≤ s.nreg ∧ a + n ≤ maxCsize s.cfg := by
  rw [takeIn] at h
  split at h
  · cases h; exact ⟨rfl, rfl, by omega, by omega⟩
  · cases h

end Sys2Proof.Machine
end

