-- ==== Sys2Proof/Laws/Engine.lean ====
section
/-! SUPPORT. What each operation of the engines does, said once: the match finder, the token encoder, the output writer, and the
ends of a length. -/

namespace Sys2Proof.Machine

theorem State.inRun_four {s : State} (a : Nat) : s.inRun a 4 = [s.inAt a, s.inAt (a+1), s.inAt (a+2), s.inAt (a+3)] := rfl

/-- Everything `matchVerifyOp` does inside the input. -/
theorem matchVerifyOp_ok {c p : Nat} {s : State} (hcp : c < p) (h1 : p + 4 ≤ s.nreg) (h2 : s.nreg ≤ maxCsize s.cfg) :
    matchVerifyOp c p s = .ok (decide (p - c ≤ 65535 ∧ s.inRun c 4 = s.inRun p 4)) s := by
  rw [matchVerifyOp]
  split
  · congr 1; rw [eq_comm, decide_eq_false_iff_not]; omega
  · rw [takeIn_ok (by omega) (by omega), Res.bind_ok, takeIn_ok (by omega) (by omega), Res.bind_ok]
    congr 1; congr 1; rw [eq_iff_iff]; constructor
    · intro h; exact ⟨by omega, h⟩
    · exact fun h => h.2

/-- Everything `extendLoop` does inside the input: it completes, changes nothing, and stops where the match ends. -/
theorem extendLoop_ok {c p : Nat} (fuel : Nat) (m : Nat) (s : State) (hcp : c < p) (h2 : s.nreg ≤ maxCsize s.cfg)
    (hf : s.nreg ≤ p + m + 5 + fuel) : ∃ m', extendLoop c p fuel m s = .ok m' s ∧ m ≤ m' ∧
      (∀ i, m ≤ i → i < m' → s.inAt (c + i) = s.inAt (p + i)) ∧
      (p + m + 5 ≤ s.nreg → p + m' + 5 ≤ s.nreg) ∧
      (s.nreg ≤ p + m' + 5 ∨ s.inAt (c + m') ≠ s.inAt (p + m')) := by
  induction fuel generalizing m with
  | zero => exact ⟨m, rfl, le_refl _, by omega, id, .inl (by omega)⟩
  | succ f ih =>
    unfold extendLoop
    by_cases h : p + m + 5 < s.nreg
    · rw [if_pos h, readIn, if_pos ⟨by omega, by omega⟩, Res.bind_ok, readIn, if_pos ⟨by omega, by omega⟩, Res.bind_ok]
      by_cases he : s.inAt (c + m) = s.inAt (p + m)
      · rw [if_pos he]
        obtain ⟨m', a1, a2, a3, a4, a5⟩ := ih (m+1) (by omega)
        refine ⟨m', a1, by omega, fun i hi hi' => ?_, fun _ => a4 (by omega), a5⟩
        by_cases hm : i = m
        · subst hm; exact he
        · exact a3 i (by omega) hi'
      · rw [if_neg he]
        exact ⟨m, rfl, le_refl _, by omega, id, .inr he⟩
    · rw [if_neg h]; exact ⟨m, rfl, le_refl _, by omega, id, .inl (by omega)⟩

/-- What an answer of `extendLoop` says, with no premise on the state. -/
theorem extendLoop_inv {c p : Nat} (fuel : Nat) (m m' : Nat) (s s' : State) (e : extendLoop c p fuel m s = .ok m' s') :
    s' = s ∧ m ≤ m' ∧ (∀ i, m ≤ i → i < m' → s.inAt (c + i) = s.inAt (p + i)) ∧ (p + m + 5 ≤ s.nreg → p + m' + 5 ≤ s.nreg) := by
  induction fuel generalizing m with
  | zero => simp only [extendLoop] at e; cases e; exact ⟨rfl, le_refl _, by omega, id⟩
  | succ f ih =>
    unfold extendLoop at e
    split at e
    · simp only [Res.bind_eq_ok] at e
      obtain ⟨x, s1, e1, y, s2, e2, e⟩ := e
      simp only [readIn] at e1 e2
      split at e1 <;> cases e1
      split at e2 <;> cases e2
      split at e
      · obtain ⟨a1, a2, a3, a4⟩ := ih _ e
        refine ⟨a1, by omega, fun i h1 h2 => ?_, fun h => a4 (by omega)⟩
        by_cases hm : i = m
        · subst hm; assumption
        · exact a3 i (by omega) h2
      · cases e; exact ⟨rfl, le_refl _, by omega, id⟩
    · cases e; exact ⟨rfl, le_refl _, by omega, id⟩

theorem byte_toNat_lt (b : Byte) : b.toNat < 256 := b.isLt

/-- The value of four bytes, low byte first. -/
theorem le32_toNat (a b c d : Byte) : (le32 [a,b,c,d]).toNat = a.toNat + 2^8 * b.toNat + 2^16 * c.toNat + 2^24 * d.toNat := by
  have := byte_toNat_lt a; have := byte_toNat_lt b; have := byte_toNat_lt c; have := byte_toNat_lt d
  simp only [le32, BitVec.toNat_ofNat]; omega

/-- A verified candidate repeats the four bytes at the cursor. -/
theorem repeats_four {s : State} {c : Nat} : (s.ip - c ≤ 65535 ∧ s.inRun c 4 = s.inRun s.ip 4) ↔ Repeats s c 4 := by
  rw [State.inRun_four, State.inRun_four]
  simp only [List.cons.injEq, and_true, Repeats]
  refine and_congr_right fun _ => ⟨?_, fun h => ⟨h 0 (by omega), h 1 (by omega), h 2 (by omega), h 3 (by omega)⟩⟩
  rintro ⟨h0, h1, h2, h3⟩ i hi
  have : i = 0 ∨ i = 1 ∨ i = 2 ∨ i = 3 := by omega
  rcases this with rfl | rfl | rfl | rfl <;> assumption

/-- Repeating more bytes is repeating fewer. -/
theorem Repeats.mono {s : State} {c m n : Nat} (h : Repeats s c n) (hm : m ≤ n) : Repeats s c m :=
  ⟨h.1, fun i hi => h.2 i (by omega)⟩

/-- Everything `tryCandidates` does where the sequencer calls it: it writes OFF and MLEN alone, and ends with the longest of
the matches that beat `best`, the first of equal ones. -/
theorem tryCandidates_ok (cs : List Nat) (best : Nat) (s : State) (h9 : s.ip + 9 ≤ s.nreg) (h2 : s.nreg ≤ maxCsize s.cfg)
    (hcs : ∀ c ∈ cs, c < s.ip) : ∃ t, t = { s with off := t.off, mlen := t.mlen } ∧
      ((tryCandidates cs best s = .ok (decide (best ≠ 0)) t ∧ t.off = s.off ∧ t.mlen = s.mlen ∧
          ∀ d ∈ cs, ¬ Repeats s d 4 ∨ s.ip + best + 5 ≥ s.nreg ∨ ¬ Repeats s d (best + 1)) ∨
        (tryCandidates cs best s = .ok true t ∧ best < t.mlen ∧ 4 ≤ t.mlen ∧ s.ip + t.mlen + 5 ≤ s.nreg ∧
          ∃ newer c older, cs = newer ++ c :: older ∧ c < s.ip ∧ t.off.toNat = s.ip - c ∧ Repeats s c t.mlen ∧
            (∀ d ∈ newer, ¬ Repeats s d t.mlen) ∧
            (s.ip + t.mlen + 5 = s.nreg ∨ ∀ d ∈ c :: older, ¬ Repeats s d (t.mlen + 1)))) := by
  induction cs generalizing best s with
  | nil => exact ⟨s, rfl, .inl ⟨rfl, rfl, rfl, by simp⟩⟩
  | cons c cs ih =>
    have hcp : c < s.ip := hcs c (by simp)
    rw [tryCandidates, matchVerifyOp_ok hcp (by omega) h2, Res.bind_ok]
    by_cases hv : s.ip - c ≤ 65535 ∧ s.inRun c 4 = s.inRun s.ip 4
    · rw [if_pos (by simpa using hv), matchExtendOp]
      obtain ⟨m, a1, a2, a3, a4, a5⟩ := extendLoop_ok (c := c) (p := s.ip) (s.nreg - s.ip) 4 s hcp h2 (by omega)
      have h4 : Repeats s c 4 := repeats_four.1 hv
      have hrep : Repeats s c m := ⟨hv.1, fun i hi => by
        by_cases hi4 : i < 4
        · exact h4.2 i hi4
        · exact a3 i (by omega) hi⟩
      have hlim := a4 (by omega)
      have hmax : s.ip + m + 5 = s.nreg ∨ ¬ Repeats s c (m + 1) := by
        rcases a5 with a5 | a5
        · left; omega
        · exact .inr fun h => a5 (h.2 m (by omega))
      rw [a1, Res.bind_ok]
      by_cases hb : best < m
      · rw [if_pos hb]
        obtain ⟨t, ht, h⟩ := ih m { s with off := BitVec.ofNat 16 (s.ip - c), mlen := m } h9 h2 fun d hd => hcs d (by simp [hd])
        refine ⟨t, by rw [ht], .inr ?_⟩
        rcases h with ⟨e, eo, em, hn⟩ | ⟨e, e1, e2, e3, newer, c', older, e4, e5, e6, e7, e8, e9⟩
        · have em : t.mlen = m := em
          refine ⟨by rw [e]; congr 1; simp; omega, by omega, by omega, by omega, [], c, cs, rfl, hcp, ?_, by rw [em]; exact hrep, by simp, ?_⟩
          · rw [eo]; simp; omega
          · rw [em]
            by_cases hl : s.ip + m + 5 = s.nreg
            · exact .inl hl
            · refine .inr fun d hd => ?_
              rcases List.mem_cons.1 hd with rfl | hd
              · exact hmax.resolve_left hl
              · rcases hn d hd with h | h | h
                · exact fun h' => h (Repeats.mono (show Repeats s d (m + 1) from h') (by omega))
                · have h : s.ip + m + 5 ≥ s.nreg := h
                  omega
                · exact h
        · have e1 : m < t.mlen := e1
          refine ⟨e, by omega, e2, e3, c :: newer, c', older, by rw [e4]; rfl, e5, e6, e7, ?_, e9⟩
          intro d hd
          rcases List.mem_cons.1 hd with rfl | hd
          · rcases hmax with h | h
            · have e3 : s.ip + t.mlen + 5 ≤ s.nreg := e3
              omega
            · exact fun h' => h (h'.mono (by omega))
          · exact e8 d hd
      · rw [if_neg hb]
        obtain ⟨t, ht, h⟩ := ih best s h9 h2 fun d hd => hcs d (by simp [hd])
        have hc : ∀ n, best < n → s.ip + n + 5 ≤ s.nreg → ¬ Repeats s c n := fun n h1 h3 h' => by
          rcases hmax with h | h
          · omega
          · exact h (h'.mono (by omega))
        refine ⟨t, ht, ?_⟩
        rcases h with ⟨e, eo, em, hn⟩ | ⟨e, e1, e2, e3, newer, c', older, e4, e5, e6, e7, e8, e9⟩
        · refine .inl ⟨e, eo, em, fun d hd => ?_⟩
          rcases List.mem_cons.1 hd with rfl | hd
          · by_cases hl : s.ip + best + 5 ≥ s.nreg
            · exact .inr (.inl hl)
            · exact .inr (.inr (hc _ (by omega) (by omega)))
          · exact hn d hd
        · refine .inr ⟨e, e1, e2, e3, c :: newer, c', older, by rw [e4]; rfl, e5, e6, e7, fun d hd => ?_, e9⟩
          rcases List.mem_cons.1 hd with rfl | hd
          · exact hc _ e1 e3
          · exact e8 d hd
    · rw [if_neg (by simpa using hv)]
      have hc4 : ¬ Repeats s c 4 := fun h => hv (repeats_four.2 h)
      obtain ⟨t, ht, h⟩ := ih best s h9 h2 fun d hd => hcs d (by simp [hd])
      refine ⟨t, ht, ?_⟩
      rcases h with ⟨e, eo, em, hn⟩ | ⟨e, e1, e2, e3, newer, c', older, e4, e5, e6, e7, e8, e9⟩
      · refine .inl ⟨e, eo, em, fun d hd => ?_⟩
        rcases List.mem_cons.1 hd with rfl | hd
        · exact .inl hc4
        · exact hn d hd
      · refine .inr ⟨e, e1, e2, e3, c :: newer, c', older, by rw [e4]; rfl, e5, e6, e7, fun d hd => ?_, e9⟩
        rcases List.mem_cons.1 hd with rfl | hd
        · exact fun h' => hc4 (h'.mono (by omega))
        · exact e8 d hd

/-- What an answer of `matchVerifyOp` says, with no premise on the state. -/
theorem matchVerifyOp_inv {c p : Nat} {s t : State} {b : Bool} (e : matchVerifyOp c p s = .ok b t) :
    t = s ∧ (b = true → p - c ≤ 65535 ∧ s.inRun c 4 = s.inRun p 4) := by
  rw [matchVerifyOp] at e
  split at e
  · cases e; exact ⟨rfl, nofun⟩
  · simp only [Res.bind_eq_ok] at e
    obtain ⟨x, _, e1, y, _, e2, e3⟩ := e
    obtain ⟨rfl, rfl, -⟩ := takeIn_inv e1
    obtain ⟨rfl, rfl, -⟩ := takeIn_inv e2
    injection e3 with hb hs
    exact ⟨hs.symm, fun h => ⟨by omega, of_decide_eq_true (hb.trans h)⟩⟩

/-- What a match reported by `tryCandidates` says, with no premise on the size of the input. -/
theorem tryCandidates_inv {cs : List Nat} {best : Nat} {s t : State} (h9 : s.ip + 9 ≤ s.nreg)
    (e : tryCandidates cs best s = .ok true t) : t = { s with off := t.off, mlen := t.mlen } ∧
      ((best ≠ 0 ∧ t.off = s.off ∧ t.mlen = s.mlen) ∨ ∃ c ∈ cs, t.off = BitVec.ofNat 16 (s.ip - c) ∧ 4 ≤ t.mlen ∧
        s.ip + t.mlen + 5 ≤ s.nreg ∧ Repeats s c t.mlen) := by
  induction cs generalizing best s with
  | nil =>
    injection e with hb hs
    subst hs; exact ⟨rfl, .inl ⟨of_decide_eq_true hb, rfl, rfl⟩⟩
  | cons c cs ih =>
    rw [tryCandidates, Res.bind_eq_ok] at e
    obtain ⟨same, s1, e1, e⟩ := e
    obtain ⟨rfl, hv⟩ := matchVerifyOp_inv e1
    split at e
    · rename_i hs
      rw [Res.bind_eq_ok] at e
      obtain ⟨m, s2, e2, e⟩ := e
      obtain ⟨rfl, a2, a3, a4⟩ := extendLoop_inv _ _ _ _ _ e2
      have h4 := repeats_four.1 (hv hs)
      split at e
      · obtain ⟨a, b⟩ := ih (s := { s2 with off := BitVec.ofNat 16 (s2.ip - c), mlen := m }) h9 e
        refine ⟨by rw [a], .inr ?_⟩
        rcases b with ⟨-, b1, b2⟩ | ⟨d, hd, r⟩
        · have b2 : t.mlen = m := b2
          refine ⟨c, by simp, b1, by omega, by rw [b2]; exact a4 (by omega), h4.1, fun i hi => ?_⟩
          by_cases hi4 : i < 4
          · exact h4.2 i hi4
          · exact a3 i (by omega) (by omega)
        · exact ⟨d, List.mem_cons_of_mem _ hd, r⟩
      · obtain ⟨a, b⟩ := ih h9 e
        exact ⟨a, b.imp id fun ⟨d, hd, r⟩ => ⟨d, List.mem_cons_of_mem _ hd, r⟩⟩
    · obtain ⟨a, b⟩ := ih h9 e
      exact ⟨a, b.imp id fun ⟨d, hd, r⟩ => ⟨d, List.mem_cons_of_mem _ hd, r⟩⟩

/-- The bucket a write leaves at each index. -/
theorem bucket_write (s t : State) (h : Nat) (e : List Nat) (ht : t.ht = Cells.write s.ht h e) (h' : Nat) :
    t.bucket h' = if h' = h then e else s.bucket h' := by
  simp only [State.bucket, ht, Cells.read_write]; split <;> rfl

/-- Everything `findMatchWith` does where the sequencer calls it, for any hash function into the buckets. -/
theorem findMatchWith_ok (hash : Word → Nat) {s : State} (hh : ∀ v, hash v < 2 ^ s.cfg.hashLog) (h9 : s.ip + 9 ≤ s.nreg)
    (h2 : s.nreg ≤ maxCsize s.cfg) (ht : TableBelow s s.ip) :
    ∃ b t, findMatchWith hash s = .ok b t ∧
      t = { s with seq4 := le32 (s.inRun s.ip 4), hidx := hash (le32 (s.inRun s.ip 4)),
                   cand := s.bucket (hash (le32 (s.inRun s.ip 4))),
                   ht := Cells.write s.ht (hash (le32 (s.inRun s.ip 4)))
                     (s.ip :: (s.bucket (hash (le32 (s.inRun s.ip 4)))).take (s.cfg.candidateDepth - 1)),
                   off := t.off, mlen := t.mlen } ∧
      ((b = true ∧ Found t ∧ ∃ newer c older, t.cand = newer ++ c :: older ∧ c < s.ip ∧ t.off.toNat = s.ip - c ∧
          Repeats s c t.mlen ∧ (∀ d ∈ newer, ¬ Repeats s d t.mlen) ∧
          (s.ip + t.mlen + 5 = s.nreg ∨ ∀ d ∈ t.cand, ¬ Repeats s d (t.mlen + 1))) ∨
        (b = false ∧ t.off = s.off ∧ t.mlen = s.mlen ∧ ∀ d ∈ t.cand, ¬ Repeats s d 4)) := by
  rw [findMatchWith, takeIn_ok (by omega) (by omega), Res.bind_ok, htLookupInsertOp, if_pos (hh _), Res.bind_ok]
  generalize le32 (s.inRun s.ip 4) = q
  obtain ⟨t, e, h⟩ := tryCandidates_ok (s.bucket (hash q)) 0
    { s with seq4 := q, hidx := hash q, cand := s.bucket (hash q)
             ht := Cells.write s.ht (hash q) (s.ip :: (s.bucket (hash q)).take (s.cfg.candidateDepth - 1)) }
    h9 h2 (ht (hash q))
  have hcand : t.cand = s.bucket (hash q) := by rw [e]
  rcases h with ⟨h, ho, hm, hn⟩ | ⟨h, -, h4, hl, newer, c, older, e4, hcp, e6, e7, e8, e9⟩
  · refine ⟨false, t, h, e, .inr ⟨rfl, ho, hm, fun d hd => ?_⟩⟩
    rcases hn d (hcand ▸ hd) with h | h | h
    · exact h
    · have h : s.ip + 0 + 5 ≥ s.nreg := h
      omega
    · exact fun h' => h (Repeats.mono (show Repeats s d 4 from h') (by omega))
  · have hip : t.ip = s.ip := by rw [e]
    have hin : ∀ a, t.inAt a = s.inAt a := fun a => State.inAt_congr (by rw [e]) (by rw [e]) a
    have e6 : t.off.toNat = s.ip - c := e6
    have e7 : Repeats s c t.mlen := e7
    have hcp : c < s.ip := hcp
    refine ⟨true, t, h, e, .inl ⟨rfl, ⟨by omega, by omega, h4, ?_, fun i hi => ?_⟩, newer, c, older, by rw [hcand, e4], hcp, e6, e7, e8, ?_⟩⟩
    · rw [hip, show t.nreg = s.nreg by rw [e]]; exact hl
    · rw [hin, hin, hip, e6, show s.ip - (s.ip - c) = c by omega]; exact e7.2 i hi
    · refine e9.imp id fun h d hd => ?_
      rw [hcand, e4] at hd
      rcases List.mem_append.1 hd with hd | hd
      · exact fun h' => e8 d hd (Repeats.mono (show Repeats s d (t.mlen + 1) from h') (by omega))
      · exact h d hd

/-- Everything `backLoop` does inside the input: it completes, changes nothing, and goes back over equal bytes only. -/
theorem backLoop_ok (off fuel b : Nat) (s : State) (hoff : 1 ≤ off) (hb : b ≤ s.nreg) (hob : off ≤ b)
    (h2 : s.nreg ≤ maxCsize s.cfg) : ∃ b', backLoop off fuel b s = .ok b' s ∧ b' ≤ b ∧ b ≤ b' + fuel ∧ off ≤ b' ∧
      ∀ i, b' ≤ i → i < b → s.inAt (i - off) = s.inAt i := by
  induction fuel generalizing b with
  | zero => exact ⟨b, rfl, le_refl _, by omega, hob, by omega⟩
  | succ f ih =>
    rw [backLoop]
    by_cases h : off < b
    · rw [if_pos h, readIn, if_pos ⟨by omega, by omega⟩, Res.bind_ok, readIn, if_pos ⟨by omega, by omega⟩, Res.bind_ok]
      split
      · rename_i he
        obtain ⟨b', a1, a2, a3, a4, a5⟩ := ih (b - 1) (by omega) (by omega)
        refine ⟨b', a1, by omega, by omega, a4, fun i h1 h3 => ?_⟩
        by_cases hi : i = b - 1
        · subst hi; exact he
        · exact a5 i h1 (by omega)
      · exact ⟨b, rfl, le_refl _, by omega, hob, by omega⟩
    · rw [if_neg h]; exact ⟨b, rfl, le_refl _, by omega, hob, by omega⟩

/-- Everything `matchStart` does with a match found: a start between ANCHOR and the cursor, from which the match holds. -/
theorem matchStart_ok {s : State} (f : Found s) (ha : s.anchor ≤ s.ip) (h2 : s.nreg ≤ maxCsize s.cfg) :
    ∃ b, matchStart s = .ok b s ∧ s.anchor ≤ b ∧ b ≤ s.ip ∧ s.off.toNat ≤ b ∧
      ∀ i, b ≤ i → i < s.ip → s.inAt (i - s.off.toNat) = s.inAt i := by
  rw [matchStart]
  split
  · have := f.ends
    obtain ⟨b, h1, h3, h4, h5, h6⟩ := backLoop_ok s.off.toNat (s.ip - s.anchor) s.ip s f.offPos (by omega) f.offBack h2
    exact ⟨b, h1, by omega, h3, h5, h6⟩
  · exact ⟨s.ip, rfl, ha, le_refl _, f.offBack, by omega⟩

/-- The hash is a bucket. -/
theorem hash4_lt (c : Config) (v : Word) (h : c.hashLog ≤ 32) (hx : ∀ p ∈ c.hashExceptions, p.2 < 2 ^ c.hashLog) :
    hash4 c v < 2 ^ c.hashLog := by
  rw [hash4]
  cases hr : Cells.read c.hashExceptions v.toNat with
  | some b => exact hx _ (Cells.mem_of_read hr)
  | none =>
    have := (v * c.hashMult).isLt
    rw [Option.getD_none, Nat.div_lt_iff_lt_mul (by positivity), ← Nat.pow_add]
    rwa [show c.hashLog + (32 - c.hashLog) = 32 by omega]

/-- A function listed at a run of keys is read back at each of them. -/
theorem Cells.read_map_range' {α : Type} (g : Nat → α) (a n k : Nat) (h1 : a ≤ k) (h2 : k < a + n) :
    Cells.read ((List.range' a n).map fun i => (i, g i)) k = some (g k) := by
  induction n generalizing a with
  | zero => omega
  | succ n ih =>
    rw [List.range'_succ, List.map_cons, Cells.read]
    by_cases h : a = k
    · rw [if_pos h, h]
    · rw [if_neg h, ih (a + 1) (by omega) (by omega)]

/-- The configurations reach every hash function. -/
theorem hash4_any (c : Config) (f : Word → Nat) :
    ∃ l : List (Nat × Nat), (∀ p ∈ l, ∃ v, p.2 = f v) ∧ ∀ v, hash4 { c with hashExceptions := l } v = f v := by
  refine ⟨(List.range' 0 (2 ^ 32)).map fun i => (i, f (BitVec.ofNat 32 i)), fun p hp => ?_, fun v => ?_⟩
  · obtain ⟨i, -, rfl⟩ := List.mem_map.1 hp; exact ⟨_, rfl⟩
  · rw [hash4, Cells.read_map_range' (fun i => f (BitVec.ofNat 32 i)) 0 (2 ^ 32) v.toNat (by omega) (by have := v.isLt; omega)]
    simp

/-- An entry written keeps the form of the table. -/
theorem table_wf_write {m : Table} (h : Nat) {e : List Nat} (he : e ≠ []) (w : Table.wf m) : Table.wf (Cells.write m h e) :=
  ⟨Cells.wf_write _ _ w.1, fun p hp => by
    rcases Cells.mem_write hp with rfl | hp
    · exact he
    · exact w.2 p hp⟩

/-- Everything `insertFrom` does inside the input: it completes and changes HT alone, in which the buckets keep what they kept
but for positions of the range inserted. -/
theorem insertFrom_ok (n p : Nat) (s : State) (hok : s.cfg.ok) (h2 : s.nreg ≤ maxCsize s.cfg) :
    ∃ t, insertFrom n p s = .ok () t ∧ t = { s with ht := t.ht } ∧
      (∀ q ∈ t.ht, q ∈ s.ht ∨ (q.1 < 2 ^ s.cfg.hashLog ∧ q.2.length ≤ s.cfg.candidateDepth)) ∧
      (Table.wf s.ht → Table.wf t.ht) ∧
      ∀ h, ∀ c ∈ t.bucket h, c ∈ s.bucket h ∨ (p ≤ c ∧ c < p + n) := by
  obtain ⟨k1, k2, k3, k4, -⟩ := hok
  induction n generalizing p s with
  | zero => exact ⟨s, rfl, rfl, fun q hq => .inl hq, id, fun h c hc => .inl hc⟩
  | succ n ih =>
    rw [insertFrom]
    by_cases hm : p + s.cfg.mflimit ≤ s.nreg
    · have hh := fun v => hash4_lt s.cfg v k2 k3
      rw [if_pos hm, takeIn_ok (by omega) (by omega), Res.bind_ok, htLookupInsertOp, if_pos (hh _), Res.bind_ok]
      have hb := hh (le32 (s.inRun p 4))
      generalize hash4 s.cfg (le32 (s.inRun p 4)) = b at hb
      obtain ⟨t, e, et, e1, e2, e3⟩ := ih (p + 1)
        { s with ht := Cells.write s.ht b (p :: (s.bucket b).take (s.cfg.candidateDepth - 1)) } h2 k1 k2 k3 k4
      refine ⟨t, e, by rw [et], fun q hq => ?_, fun w => e2 (table_wf_write _ (by simp) w), fun h c hc => ?_⟩
      · rcases e1 q hq with h | h
        · rcases Cells.mem_write h with rfl | h
          · exact .inr ⟨hb, by simp only [List.length_cons, List.length_take]; omega⟩
          · exact .inl h
        · exact .inr h
      · rcases e3 h c hc with h' | h'
        · rw [bucket_write s _ b _ rfl] at h'
          split at h'
          · subst h
            rcases List.mem_cons.1 h' with rfl | h'
            · exact .inr ⟨le_refl _, by omega⟩
            · exact .inl (List.mem_of_mem_take h')
          · exact .inl h'
        · exact .inr ⟨by omega, by omega⟩
    · rw [if_neg hm]
      exact ⟨s, rfl, rfl, fun q hq => .inl hq, id, fun h c hc => .inl hc⟩

/-- Everything `insertInside` does inside the input: it completes and changes HT alone, in which the buckets keep what they
kept but for positions the match covers. -/
theorem insertInside_ok (s : State) (hok : s.cfg.ok) (h2 : s.nreg ≤ maxCsize s.cfg) :
    ∃ t, insertInside s = .ok () t ∧ t = { s with ht := t.ht } ∧
      (∀ q ∈ t.ht, q ∈ s.ht ∨ (q.1 < 2 ^ s.cfg.hashLog ∧ q.2.length ≤ s.cfg.candidateDepth)) ∧
      (Table.wf s.ht → Table.wf t.ht) ∧
      ∀ h, ∀ c ∈ t.bucket h, c ∈ s.bucket h ∨ (s.ip < c ∧ c < s.ip + s.mlen) := by
  have key : ∀ n p, s.ip < p → p + n = s.ip + s.mlen ∨ n = 0 → ∃ t, insertFrom n p s = .ok () t ∧ t = { s with ht := t.ht } ∧
      (∀ q ∈ t.ht, q ∈ s.ht ∨ (q.1 < 2 ^ s.cfg.hashLog ∧ q.2.length ≤ s.cfg.candidateDepth)) ∧
      (Table.wf s.ht → Table.wf t.ht) ∧
      ∀ h, ∀ c ∈ t.bucket h, c ∈ s.bucket h ∨ (s.ip < c ∧ c < s.ip + s.mlen) := fun n p hp hn => by
    obtain ⟨t, e, et, e1, e2, e3⟩ := insertFrom_ok n p s hok h2
    exact ⟨t, e, et, e1, e2, fun h c hc => (e3 h c hc).imp id fun h => ⟨by omega, by omega⟩⟩
  rw [insertInside]
  split
  · split
    · exact key _ _ (by omega) (by omega)
    · exact key _ _ (by omega) (by omega)
  · exact ⟨s, rfl, rfl, fun q hq => .inl hq, id, fun h c hc => .inl hc⟩

theorem append_eq_wrote {s : State} {v : Byte} (h : s.op < maxCsize s.cfg) : append v s = .ok () (s.wrote [v]) := append_ok h

/-- Everything `emitSeqOp` does where the output has room: it appends the bytes of the sequence. -/
theorem emitSeqOp_ok {a b : Nat} {off : Half} {mlen : Nat} {s : State} (hab : a ≤ b) (hb : b ≤ s.nreg) (h2 : s.nreg ≤ maxCsize s.cfg)
    (hc : s.op + (sequenceBytes (s.inRun a (b-a)) off mlen).length ≤ maxCsize s.cfg) :
    emitSeqOp a b off mlen s = .ok () (s.wrote (sequenceBytes (s.inRun a (b-a)) off mlen)) := by
  have hl : (sequenceBytes (s.inRun a (b-a)) off mlen).length = 1 + extSize (b-a) + (b-a) + 2 + extSize (mlen - 4) := by
    simp [sequenceBytes]; omega
  rw [hl] at hc
  rw [emitSeqOp, append_eq_wrote (by omega), Res.bind_ok, encodeLengthOp, appendAll_ok (by simp; omega), Res.bind_ok,
    takeIn_ok (by simp; omega) (by simp; omega), Res.bind_ok]
  simp only [State.wrote_inRun]
  rw [appendAll_ok (by simp; omega), Res.bind_ok, appendAll_ok (by simp; omega), Res.bind_ok, encodeLengthOp, appendAll_ok (by simp; omega)]
  simp only [← State.wrote_append, sequenceBytes, List.append_assoc, List.nil_append, List.cons_append, State.inRun_length]

/-- Everything `emitLastOp` does where the output has room: it appends the bytes of the final sequence. -/
theorem emitLastOp_ok {a : Nat} {s : State} (hb : a ≤ s.nreg) (h2 : s.nreg ≤ maxCsize s.cfg)
    (hc : s.op + (finalBytes 0#4 (s.inRun a (s.nreg-a))).length ≤ maxCsize s.cfg) :
    emitLastOp a s = .ok () (s.wrote (finalBytes 0#4 (s.inRun a (s.nreg-a)))) := by
  have hl : (finalBytes 0#4 (s.inRun a (s.nreg-a))).length = 1 + extSize (s.nreg-a) + (s.nreg-a) := by
    simp [finalBytes]; omega
  rw [hl] at hc
  rw [emitLastOp, append_eq_wrote (by omega), Res.bind_ok, encodeLengthOp, appendAll_ok (by simp; omega), Res.bind_ok,
    takeIn_ok (by simp; omega) (by simp; omega), Res.bind_ok]
  simp only [State.wrote_inRun, State.wrote_nreg]
  rw [appendAll_ok (by simp; omega)]
  simp only [← State.wrote_append, finalBytes, List.singleton_append, State.inRun_length]
  rfl

theorem offsetOf_toNat (b0 b1 : Byte) : (offsetOf b0 b1).toNat = b0.toNat + 256 * b1.toNat := by
  have := byte_toNat_lt b0; have := byte_toNat_lt b1
  simp only [offsetOf, BitVec.toNat_ofNat]; omega

theorem half_eq_zero (h : Half) : h = 0#16 ↔ h.toNat = 0 := by
  constructor
  · rintro rfl; rfl
  · intro e; exact BitVec.eq_of_toNat_eq (by simpa using e)

/-- Everything `copyMatchOp` does: it appends `MLEN` bytes, which repeat the last `OFF`. -/
theorem copyMatchOp_ok {s : State} (h0 : 1 ≤ s.off.toNat) (h1 : s.off.toNat ≤ s.op) (h2 : s.op + s.mlen ≤ maxCsize s.cfg) :
    ∃ vs : List Byte, vs.length = s.mlen ∧ copyMatchOp s = .ok () (s.wrote vs) ∧
      ∀ i (h : i < vs.length), vs[i] = s.outAt (s.op - s.off.toNat + i % s.off.toNat) := by
  obtain ⟨vs, hl, hc, hv⟩ := copyFrom_ok (n := s.mlen) (src := s.op - s.off.toNat) (s := s) (by omega) h2
  exact ⟨vs, hl, by rw [copyMatchOp, if_neg (by omega), hc], copyFrom_periodic h0 h1 hv⟩

theorem takeLitlen_overflow_append {n : Nat} {rest : List Byte} {s : State} (h : room s < n) :
    ∃ u, takeLitlen (selOf n) (extBytes n ++ rest) s = .err .lengthOverflow { s with ip := s.ip + u } := by
  obtain ⟨u, hu⟩ := takeLen_overflow (n := n) (bias := 0) (rm := room s) (rest := rest) (s := s) (by omega)
  exact ⟨u, by rw [takeLitlen, hu]; rfl⟩

theorem takeMatchlen_overflow_append {n : Nat} {rest : List Byte} {s : State} (h : room s < n + 4) :
    ∃ u, takeMatchlen (selOf n) (extBytes n ++ rest) s = .err .lengthOverflow { s with ip := s.ip + u } := by
  obtain ⟨u, hu⟩ := takeLen_overflow (n := n) (bias := 4) (rm := room s) (rest := rest) (s := s) (by omega)
  exact ⟨u, by rw [takeMatchlen, hu]; rfl⟩

theorem takeLitlen_self {n : Nat} {s : State} (h : n ≤ room s) :
    takeLitlen (selOf n) (extBytes n) s = .ok () { s with ip := s.ip + extSize n, litlen := n } := by
  have := takeLitlen_ok (n := n) (rest := []) (s := s) h; rwa [List.append_nil] at this

theorem takeLitlen_overflow {n : Nat} {s : State} (h : room s < n) :
    ∃ u, takeLitlen (selOf n) (extBytes n) s = .err .lengthOverflow { s with ip := s.ip + u } := by
  have := takeLitlen_overflow_append (n := n) (rest := []) (s := s) h; rwa [List.append_nil] at this

theorem takeMatchlen_overflow {n : Nat} {s : State} (h : room s < n + 4) :
    ∃ u, takeMatchlen (selOf n) (extBytes n) s = .err .lengthOverflow { s with ip := s.ip + u } := by
  have := takeMatchlen_overflow_append (n := n) (rest := []) (s := s) h; rwa [List.append_nil] at this

theorem takeMatchlen_self {n : Nat} {s : State} (h : n + 4 ≤ room s) :
    takeMatchlen (selOf n) (extBytes n) s = .ok () { s with ip := s.ip + extSize n, mlen := n + 4 } := by
  have := takeMatchlen_ok (n := n) (rest := []) (s := s) h; rwa [List.append_nil] at this

theorem takeMatchlen_append (n : Nat) (rest : List Byte) (s : State) : takeMatchlen (selOf n) (extBytes n ++ rest) s = takeMatchlen (selOf n) (extBytes n) s := by
  rw [takeMatchlen, takeMatchlen, takeLen_append]

theorem takeLitlen_append (n : Nat) (rest : List Byte) (s : State) : takeLitlen (selOf n) (extBytes n ++ rest) s = takeLitlen (selOf n) (extBytes n) s := by
  rw [takeLitlen, takeLitlen, takeLen_append]

/-- What an answer of `takeLits` says. -/
theorem takeLits_inv {lits : List Byte} {s t : State} {a : Unit} (h : takeLits lits s = .ok a t) : t = { s.wrote lits with ip := s.ip + lits.length } := by
  rw [takeLits, Res.bind_eq_ok] at h
  obtain ⟨_, s1, h1, h2⟩ := h
  obtain ⟨rfl, -⟩ := appendAll_inv h1
  cases h2; rfl

theorem takeLits_ne_err (lits : List Byte) (s : State) (e : ErrKind) (t : State) : takeLits lits s ≠ .err e t := by
  rw [takeLits]
  cases h : appendAll lits s with
  | ok a t => simp
  | fault f => simp
  | err e t => exact absurd h (appendAll_ne_err _ _ _ _)

/-- A chain of 255 that fits is summed and passed over. -/
theorem scanExt_replicate (bias room : Nat) (k : Nat) (n used : Nat) (rest : List Byte) (h : n + 255 * k + bias ≤ room) :
    scanExt bias room n used (List.replicate k 255#8 ++ rest) = scanExt bias room (n + 255 * k) (used + k) rest := by
  induction k generalizing n used with
  | zero => simp
  | succ k ih =>
    have : (255#8).toNat = 255 := rfl
    simp only [List.replicate_succ, List.cons_append, scanExt, this, if_true]
    rw [if_neg (by omega), ih _ _ (by omega)]; congr 1 <;> omega

/-- A chain of 255 too long for the room overflows. -/
theorem takeLen_chain_overflow {k bias rm : Nat} {s : State} (h : rm < 15 + 255 * k + bias) :
    ∃ u, takeLen 15 bias rm (List.replicate k 255#8) s = .err .lengthOverflow u := by
  suffices ∃ u, scanLength 15 bias rm (List.replicate k 255#8) = .overflow u by
    obtain ⟨u, hu⟩ := this; exact ⟨_, by rw [takeLen, hu]⟩
  rw [scanLength]
  by_cases h0 : 15 + bias > rm
  · exact ⟨_, if_pos h0⟩
  · rw [if_neg h0, if_pos rfl]
    suffices ∀ n used, n + bias ≤ rm → rm < n + 255 * k + bias → ∃ u, scanExt bias rm n used (List.replicate k 255#8) = .overflow u from this 15 0 (by omega) h
    clear h h0
    induction k with
    | zero => intro n used h1 h2; omega
    | succ k ih =>
      intro n used h1 h2
      have : (255#8).toNat = 255 := rfl
      simp only [List.replicate_succ, scanExt, this, if_true]
      by_cases h3 : n + 255 + bias > rm
      · exact ⟨_, if_pos h3⟩
      · rw [if_neg h3]; exact ih _ _ (by omega) (by omega)

/-- A chain of 255 that fits and is cut short is truncated. -/
theorem takeLen_chain_truncated {k bias rm : Nat} {s : State} (h : 15 + 255 * k + bias ≤ rm) :
    ∃ u, takeLen 15 bias rm (List.replicate k 255#8) s = .err .truncatedInput u := by
  have := scanExt_replicate bias rm k 15 0 [] (by omega)
  rw [List.append_nil] at this
  exact ⟨_, by rw [takeLen, scanLength, if_neg (by omega), if_pos rfl, this]; rfl⟩

end Sys2Proof.Machine
end

