-- ==== Sys2Proof/Laws/Stream.lean ====
section
/-! SUPPORT. The stream: the bytes left at the cursor, and what the sequences do, as instructions and through `PARSE_SEQUENCE`. -/

namespace Sys2Proof.Machine

/-- Appending bytes appends them, in the sense of `Appended`. -/
theorem State.appended_wrote {s : State} {bs : List Byte} : Appended s (s.wrote bs) bs := by
  refine ⟨rfl, State.wrote_outRun s bs, fun a ha => ?_⟩
  simp only [State.wrote_out, Cells.read_writeRun]; rw [dif_neg (by omega)]

/-- What `restIn` answers where the bytes left are known. -/
theorem StreamAt.restIn_eq {s : State} {bs : List Byte} (h : StreamAt s bs) : restIn s = .ok bs s := by
  obtain ⟨h1, h2, h3⟩ := h; rw [restIn_ok h1 h2, h3]

/-- The bytes left end at `NREG`. -/
theorem StreamAt.length_eq {s : State} {bs : List Byte} (h : StreamAt s bs) : s.ip + bs.length = s.nreg := by
  obtain ⟨h1, h2, h3⟩ := h; rw [← h3]; simp; omega

/-- After bytes are consumed, the bytes left are the ones after them. -/
theorem StreamAt.move {s t : State} {xs ys : List Byte} (h : StreamAt s (xs ++ ys)) (hm : t.inMem = s.inMem)
    (he : t.inEra = s.inEra) (hn : t.nreg = s.nreg) (hc : t.cfg = s.cfg) (hip : t.ip = s.ip + xs.length) : StreamAt t ys := by
  have hl := StreamAt.length_eq h
  obtain ⟨h1, h2, h3⟩ := h
  simp only [List.length_append] at hl
  refine ⟨by omega, by rw [hn, hc]; exact h2, ?_⟩
  rw [State.inRun_same hm he, hip, hn, show s.nreg - (s.ip + xs.length) = (s.nreg - s.ip) - xs.length by omega, ← State.drop_inRun, h3]
  simp

/-- An operation that ends in an error raises it. -/
theorem raises_of_err {α : Type} {r : Res α} {d} {e : ErrKind} {t : State} (h : r = .err e t) : Raises (r.outcome d) e := by
  subst h; exact ⟨_, rfl, rfl, rfl, rfl, rfl⟩

/-- While BUSY, with no move of the host or a wait, a step is one line of the engine. -/
theorem step_eq_engineStep {s : State} (hb : s.status = .busy) (h : s.host = [] ∨ (∃ h, s.host = .wait :: h)) : step s = engineStep s := by
  rcases h with h | ⟨r, h⟩ <;> simp [step, h, engineTurn, hb]

/-- The rest of a step where the bytes left are known. -/
theorem StreamAt.withRest_eq {s : State} {bs : List Byte} (h : StreamAt s bs) (k) : withRest s k = k bs := by
  rw [withRest, StreamAt.restIn_eq h]

/-- The state after a sequence with a match whose match bytes are `vs`. -/
def seqDone (lits vs : List Byte) (off : Half) (mlen : Nat) (s : State) : State :=
  { s with out := Cells.writeRun s.out s.op (lits ++ vs), op := s.op + (lits ++ vs).length
           tok := tokenByte (selOf lits.length) (selOf (mlen - 4)), litlen := lits.length, off := off, mlen := mlen
           ip := s.ip + 1 + extSize lits.length + lits.length + 2 + extSize (mlen - 4) }

/-- The state after a final sequence, before the operation ends. -/
def lastDone (x : BitVec 4) (lits : List Byte) (s : State) : State :=
  { s with out := Cells.writeRun s.out s.op lits, op := s.op + lits.length, tok := tokenByte (selOf lits.length) x.toNat, litlen := lits.length
           ip := s.ip + 1 + extSize lits.length + lits.length }

/-- Everything a sequence that passes the checks does. -/
theorem runSeq_ok {lits : List Byte} {off : Half} {mlen : Nat} {s : State} (h4 : 4 ≤ mlen) (hl : lits.length ≤ s.lim - s.op)
    (ho : 1 ≤ off.toNat) (ho2 : off.toNat ≤ s.op + lits.length) (hm : mlen ≤ s.lim - (s.op + lits.length))
    (hc : s.op + lits.length + mlen ≤ maxCsize s.cfg) :
    ∃ vs : List Byte, vs.length = mlen ∧ runSeq lits off mlen s = .ok (lits, some (off, mlen))
      (seqDone lits vs off mlen s) ∧
      ∀ j (h : j < vs.length), vs[j] = (s.wrote lits).outAt (s.op + lits.length - off.toNat + j % off.toNat) := by
  rw [runSeq, takeLitlen_self (s := takeToken _ s) hl, Res.bind_ok, takeLits_ok (by simp only [takeToken]; omega), Res.bind_ok, takeOffset_ok ho (by simpa [takeToken] using ho2), Res.bind_ok]
  rw [takeMatchlen_self (by simp only [room, takeToken, State.wrote_op, State.wrote_lim]; omega), Res.bind_ok]
  generalize hu : ({ s.wrote lits with tok := tokenByte (selOf lits.length) (selOf (mlen - 4)), litlen := lits.length, off := off, mlen := mlen, ip := s.ip + 1 + extSize lits.length + lits.length + 2 + extSize (mlen - 4) } : State) = u
  have hu' : u = ({ s.wrote lits with tok := tokenByte (selOf lits.length) (selOf (mlen - 4)), litlen := lits.length, off := off, mlen := mlen, ip := s.ip + 1 + extSize lits.length + lits.length + 2 + extSize (mlen - 4) } : State) := hu.symm
  have hgoal : ∀ v : State, v = u → ∃ vs : List Byte, vs.length = mlen ∧ ((copyMatchOp v).bind fun _ s => .ok (lits, some (s.off, s.mlen)) s) = .ok (lits, some (off, mlen))
      (seqDone lits vs off mlen s) ∧
      ∀ j (h : j < vs.length), vs[j] = (s.wrote lits).outAt (s.op + lits.length - off.toNat + j % off.toNat) := by
    rintro v rfl
    obtain ⟨vs, x1, x2, x3⟩ := copyMatchOp_ok (s := v) (by rw [hu']; exact ho) (by rw [hu']; exact ho2) (by rw [hu']; exact hc)
    refine ⟨vs, by rw [x1, hu'], ?_, ?_⟩
    · rw [x2, Res.bind_ok, hu']; simp only [seqDone, Res.ok.injEq]; refine ⟨rfl, ?_⟩
      have := State.wrote_append s lits vs
      simp only [State.wrote, State.mk.injEq, true_and, and_true] at this ⊢; exact ⟨this.1.symm, this.2.symm⟩
    · intro j h; rw [x3 j h, hu']; rfl
  apply hgoal
  rw [← hu]
  simp only [takeToken]
  congr 1
  omega

/-- Everything a final sequence that passes the check does. -/
theorem runLast_ok {x : BitVec 4} {lits : List Byte} {s : State} (hl : lits.length ≤ s.lim - s.op) (hc : s.op + lits.length ≤ maxCsize s.cfg) :
    runLast x lits s = .ok (lits, none)
      (lastDone x lits s) := by
  rw [runLast, takeLitlen_self (s := takeToken _ s) hl, Res.bind_ok, takeLits_ok (by simp only [takeToken]; omega), Res.bind_ok]
  rfl

/-- The four `SEQ` rows have one meaning over their fields. -/
theorem exec_of_isSeq {i : Instr} {lits : List Byte} {off : Half} {mlen : Nat} (h : IsSeq i lits off mlen) (s : State) :
    exec i s = (runSeq lits off mlen s).outcome giveTuple := by
  cases i <;> simp [IsSeq, seqFields] at h <;> obtain ⟨rfl, rfl, rfl⟩ := h <;> rfl

/-- The two `LAST` rows have one meaning over their fields. -/
theorem exec_of_isLast {i : Instr} {x : BitVec 4} {lits : List Byte} (h : IsLast i x lits) (s : State) :
    exec i s = (runLast x lits s).outcome giveTuple := by
  cases i <;> simp [IsLast, lastFields] at h <;> obtain ⟨rfl, rfl⟩ := h <;> rfl

/-- The bytes of a sequence with a match are read back. -/
theorem decodeSequence_seq (lits : List Byte) (off : Half) (mlen : Nat) (rest : List Byte) :
    decodeSequence (sequenceBytes lits off mlen ++ rest) =
      .ok (seqInstr (tokenByte (selOf lits.length) (selOf (mlen - 4))) lits off (mlen - 4 + 4), rest) := by
  rw [sequenceBytes, List.cons_append, decodeSequence, litSel_tokenByte (selOf_le _) (selOf_le _)]
  simp only [List.append_assoc]
  rw [takeLength_extBytes]
  simp only
  rw [if_neg (by simp), List.take_left, List.drop_left, offsetBytes]
  simp only [List.cons_append, List.nil_append, decodeMatch]
  rw [matchSel_tokenByte (selOf_le _), takeLength_extBytes, offsetOf_offsetBytes]

/-- The bytes of a final sequence are read back. -/
theorem decodeSequence_last (x : BitVec 4) (lits : List Byte) :
    decodeSequence (finalBytes x lits) = .ok (lastInstr (tokenByte (selOf lits.length) x.toNat) lits, []) := by
  have hx : x.toNat ≤ 15 := by have := x.isLt; omega
  rw [finalBytes, decodeSequence, litSel_tokenByte (selOf_le _) hx]
  rw [takeLength_extBytes]
  simp [decodeMatch]

/-- Whatever is read as a sequence are the bytes of that sequence. -/
theorem decodeSequence_inv {bs rest : List Byte} {i : Instr} (h : decodeSequence bs = .ok (i, rest)) :
    (∃ lits off m, bs = sequenceBytes lits off (m + 4) ++ rest ∧ i = seqInstr (tokenByte (selOf lits.length) (selOf m)) lits off (m + 4)) ∨
    (∃ x : BitVec 4, ∃ lits, rest = [] ∧ bs = finalBytes x lits ∧ i = lastInstr (tokenByte (selOf lits.length) x.toNat) lits) := by
  match bs with
  | [] => cases h
  | t :: bs =>
    rw [decodeSequence] at h
    split at h
    · cases h
    · rename_i l bs' hl
      obtain ⟨e1, e2⟩ := takeLength_unique (litSel_le t) hl
      split at h
      · cases h
      · rename_i hlen
        have hlen' : (bs'.take l).length = l := by simp; omega
        match hd : bs'.drop l with
        | [] =>
          rw [hd] at h
          simp only [decodeMatch] at h
          cases h
          right
          have hb : bs'.take l = bs' := by
            have := List.take_append_drop l bs'; rw [hd, List.append_nil] at this; exact this
          have hms := matchSel_le t
          have ht : tokenByte (selOf (bs'.take l).length) (BitVec.ofNat 4 (matchSel t)).toNat = t := by
            rw [hlen', e1]
            rw [show (BitVec.ofNat 4 (matchSel t)).toNat = matchSel t by simp; omega]
            exact tokenByte_sels t
          refine ⟨BitVec.ofNat 4 (matchSel t), bs'.take l, rfl, ?_, by rw [ht]⟩
          rw [finalBytes, ht, hlen', e2, hb]
        | [b] => rw [hd] at h; cases h
        | b0 :: b1 :: cs =>
          rw [hd] at h
          simp only [decodeMatch] at h
          split at h
          · cases h
          · rename_i m rest' hm
            obtain ⟨e3, e4⟩ := takeLength_unique (matchSel_le t) hm
            cases h
            left
            have ht : tokenByte (selOf (bs'.take l).length) (selOf m) = t := by
              rw [hlen', e1, e3, tokenByte_sels]
            refine ⟨bs'.take l, offsetOf b0 b1, m, ?_, by rw [ht]⟩
            rw [sequenceBytes, Nat.add_sub_cancel, ht, hlen', offsetBytes_offsetOf, e2]
            conv_lhs => rw [← List.take_append_drop l bs', hd, e4]
            simp

theorem isSeq_seqInstr (t : Byte) (lits : List Byte) (off : Half) (m : Nat) : IsSeq (seqInstr t lits off m) lits off m := by
  unfold seqInstr; split <;> split <;> rfl

theorem isLast_lastInstr (t : Byte) (lits : List Byte) : IsLast (lastInstr t lits) (BitVec.ofNat 4 (matchSel t)) lits := by
  unfold lastInstr; split <;> rfl

theorem matchSel_finalToken {x : BitVec 4} {lits : List Byte} : BitVec.ofNat 4 (matchSel (tokenByte (selOf lits.length) x.toNat)) = x := by
  have hx : x.toNat ≤ 15 := by have := x.isLt; omega
  rw [matchSel_tokenByte hx]; simp

/-- `PARSE_SEQUENCE` on the bytes of a sequence with a match runs that sequence. -/
theorem parseSequenceOp_seq {s : State} {lits : List Byte} {off : Half} {mlen : Nat} {rest : List Byte} (h : StreamAt s (sequenceBytes lits off mlen ++ rest)) :
    parseSequenceOp s = runSeq lits off mlen s := by
  rw [sequenceBytes, List.cons_append] at h
  simp only [List.append_assoc] at h
  rw [parseSequenceOp, fetchTokenOp, StreamAt.restIn_eq h, Res.bind_ok]
  simp only [Res.bind_ok]
  have h1 : StreamAt (takeToken (tokenByte (selOf lits.length) (selOf (mlen - 4))) s) (extBytes lits.length ++ (lits ++ (offsetBytes off ++ (extBytes (mlen - 4) ++ rest)))) :=
    StreamAt.move (xs := [_]) h rfl rfl rfl rfl rfl
  rw [readLitlenOp, StreamAt.restIn_eq h1, Res.bind_ok, runSeq]
  have et : litSel (takeToken (tokenByte (selOf lits.length) (selOf (mlen - 4))) s).tok = selOf lits.length := litSel_tokenByte (selOf_le _) (selOf_le _)
  rw [et]
  by_cases hl : lits.length ≤ room (takeToken (tokenByte (selOf lits.length) (selOf (mlen - 4))) s)
  · rw [takeLitlen_ok hl, takeLitlen_self hl, Res.bind_ok, Res.bind_ok]
    generalize hu : ({ takeToken (tokenByte (selOf lits.length) (selOf (mlen - 4))) s with ip := (takeToken (tokenByte (selOf lits.length) (selOf (mlen - 4))) s).ip + extSize lits.length, litlen := lits.length } : State) = u
    have h2 : StreamAt u (lits ++ (offsetBytes off ++ (extBytes (mlen - 4) ++ rest))) := by
      subst hu; exact h1.move rfl rfl rfl rfl (by simp)
    have hul : u.litlen = lits.length := by subst hu; rfl
    have hut : u.tok = tokenByte (selOf lits.length) (selOf (mlen - 4)) := by subst hu; rfl
    rw [copyLiteralsOp, StreamAt.restIn_eq h2, Res.bind_ok, if_neg (by rw [hul]; simp), hul, List.take_left]
    cases e : takeLits lits u with
    | fault f => rfl
    | err e' t => exact absurd e (takeLits_ne_err _ _ _ _)
    | ok a t =>
      obtain rfl := takeLits_inv e
      rw [Res.bind_ok, Res.bind_ok, Res.bind_ok]
      generalize hv : ({ u.wrote lits with ip := u.ip + lits.length } : State) = v
      have h3 : StreamAt v (offsetBytes off ++ (extBytes (mlen - 4) ++ rest)) := by
        subst hv; exact h2.move rfl rfl rfl rfl rfl
      have hvt : v.tok = tokenByte (selOf lits.length) (selOf (mlen - 4)) := by subst hv; exact hut
      have hend : endTest v = false := by
        have := StreamAt.length_eq h3; simp [endTest] at this ⊢; omega
      rw [hend]
      simp only [Bool.false_eq_true, if_false]
      rw [readOffsetOp, StreamAt.restIn_eq h3, Res.bind_ok]
      simp only [offsetBytes, List.cons_append, offsetOf_offsetBytes]
      have hoo : takeOffset off v = .err .invalidOffset { v with off := off, ip := v.ip + 2 } ∨ takeOffset off v = .ok () { v with off := off, ip := v.ip + 2 } := by
        simp only [takeOffset]; split <;> simp
      rcases hoo with ho | ho <;> rw [ho]
      · rfl
      · rw [Res.bind_ok, Res.bind_ok]
        have h4 : StreamAt { v with off := off, ip := v.ip + 2 } (extBytes (mlen - 4) ++ rest) := h3.move rfl rfl rfl rfl rfl
        rw [readMatchlenOp, StreamAt.restIn_eq h4, Res.bind_ok]
        have em : matchSel ({ v with off := off, ip := v.ip + 2 } : State).tok = selOf (mlen - 4) := by
          show matchSel v.tok = _; rw [hvt, matchSel_tokenByte (selOf_le _)]
        rw [em, takeMatchlen_append]
  · obtain ⟨u, hu⟩ := takeLitlen_overflow (n := lits.length) (s := takeToken (tokenByte (selOf lits.length) (selOf (mlen - 4))) s) (by omega)
    rw [takeLitlen_append, hu]; rfl

/-- `PARSE_SEQUENCE` on the bytes of a final sequence runs that sequence. -/
theorem parseSequenceOp_last {s : State} {x : BitVec 4} {lits : List Byte} (h : StreamAt s (finalBytes x lits)) :
    parseSequenceOp s = runLast x lits s := by
  have hx : x.toNat ≤ 15 := by have := x.isLt; omega
  rw [finalBytes] at h
  rw [parseSequenceOp, fetchTokenOp, StreamAt.restIn_eq h, Res.bind_ok]
  simp only [Res.bind_ok]
  have h1 : StreamAt (takeToken (tokenByte (selOf lits.length) x.toNat) s) (extBytes lits.length ++ lits) :=
    StreamAt.move (xs := [_]) h rfl rfl rfl rfl rfl
  rw [readLitlenOp, StreamAt.restIn_eq h1, Res.bind_ok, runLast]
  have et : litSel (takeToken (tokenByte (selOf lits.length) x.toNat) s).tok = selOf lits.length := litSel_tokenByte (selOf_le _) hx
  rw [et]
  by_cases hl : lits.length ≤ room (takeToken (tokenByte (selOf lits.length) x.toNat) s)
  · rw [takeLitlen_ok hl, takeLitlen_self hl, Res.bind_ok, Res.bind_ok]
    generalize hu : ({ takeToken (tokenByte (selOf lits.length) x.toNat) s with ip := (takeToken (tokenByte (selOf lits.length) x.toNat) s).ip + extSize lits.length, litlen := lits.length } : State) = u
    have h2 : StreamAt u lits := by
      subst hu; exact h1.move rfl rfl rfl rfl (by simp)
    have hul : u.litlen = lits.length := by subst hu; rfl
    rw [copyLiteralsOp, StreamAt.restIn_eq h2, Res.bind_ok, if_neg (by rw [hul]; simp), hul, List.take_length]
    cases e : takeLits lits u with
    | fault f => rfl
    | err e' t => exact absurd e (takeLits_ne_err _ _ _ _)
    | ok a t =>
      have et := takeLits_inv e
      rw [Res.bind_ok, Res.bind_ok, Res.bind_ok]
      rw [if_pos]
      have := StreamAt.length_eq h2
      have e1 : t.ip = u.ip + lits.length := by rw [et]
      have e2 : t.nreg = u.nreg := by rw [et]; rfl
      simp only [endTest, decide_eq_true_eq]; omega
  · obtain ⟨u, hu⟩ := takeLitlen_overflow (n := lits.length) (s := takeToken (tokenByte (selOf lits.length) x.toNat) s) (by omega)
    rw [takeLitlen_append, hu]; rfl

/-- `PARSE_SEQUENCE` after the token byte. -/
theorem parseSequenceOp_token {s : State} {t : Byte} {bs : List Byte} (h : StreamAt s (t :: bs)) :
    parseSequenceOp s = (takeLitlen (litSel t) bs (takeToken t s)).bind fun _ s =>
      (copyLiteralsOp s).bind fun lits s =>
        if endTest s then .ok (lits, none) s
        else
          (readOffsetOp s).bind fun _ s =>
            (readMatchlenOp s).bind fun _ s =>
              (copyMatchOp s).bind fun _ s => .ok (lits, some (s.off, s.mlen)) s := by
  rw [parseSequenceOp, fetchTokenOp, StreamAt.restIn_eq h, Res.bind_ok]
  simp only [Res.bind_ok]
  have h1 : StreamAt (takeToken t s) bs := StreamAt.move (xs := [_]) h rfl rfl rfl rfl rfl
  rw [readLitlenOp, StreamAt.restIn_eq h1, Res.bind_ok]; rfl

/-- `PARSE_SEQUENCE` after the literals, where bytes follow them. -/
theorem parseSequenceOp_literals {s : State} {t : Byte} {lits rest : List Byte} (hsel : litSel t = selOf lits.length)
    (h : StreamAt s (t :: (extBytes lits.length ++ lits ++ rest))) (hl : lits.length ≤ s.lim - s.op) (hc : s.op + lits.length ≤ maxCsize s.cfg) (hr : rest ≠ []) :
    ∃ u : State, u.tok = t ∧ u.op = s.op + lits.length ∧ u.lim = s.lim ∧ StreamAt u rest ∧ u.cfg = s.cfg ∧ parseSequenceOp s =
          (readOffsetOp u).bind fun _ s =>
            (readMatchlenOp s).bind fun _ s =>
              (copyMatchOp s).bind fun _ s => .ok (lits, some (s.off, s.mlen)) s := by
  rw [List.append_assoc] at h
  have h1 : StreamAt (takeToken t s) _ := StreamAt.move (xs := [_]) h rfl rfl rfl rfl rfl
  rw [parseSequenceOp_token h, hsel, takeLitlen_ok (s := takeToken t s) hl, Res.bind_ok]
  generalize hu : ({ takeToken t s with ip := (takeToken t s).ip + extSize lits.length, litlen := lits.length } : State) = u
  have h2 : StreamAt u (lits ++ rest) := by subst hu; exact h1.move rfl rfl rfl rfl (by simp)
  have hul : u.litlen = lits.length := by subst hu; rfl
  have huo : u.op = s.op ∧ u.cfg = s.cfg ∧ u.tok = t ∧ u.lim = s.lim := by subst hu; exact ⟨rfl, rfl, rfl, rfl⟩
  rw [copyLiteralsOp, StreamAt.restIn_eq h2, Res.bind_ok, if_neg (by rw [hul]; simp), hul, List.take_left, takeLits_ok (by rw [huo.1, huo.2.1]; exact hc), Res.bind_ok, Res.bind_ok]
  have h3 : StreamAt { u.wrote lits with ip := u.ip + lits.length } rest := h2.move rfl rfl rfl rfl rfl
  refine ⟨_, ?_, ?_, ?_, h3, ?_, ?_⟩
  · exact huo.2.2.1
  · show u.op + _ = _; rw [huo.1]
  · exact huo.2.2.2
  · exact huo.2.1
  · rw [if_neg]
    have h5 := StreamAt.length_eq h3
    have h6 : rest.length ≠ 0 := by simpa using hr
    intro h7
    have h7 := of_decide_eq_true h7
    omega

end Sys2Proof.Machine
end

