-- ==== Sys2Proof/Laws/Frames.lean ====
section
/-! SUPPORT. What the operations of the two engines leave alone. -/

namespace Sys2Proof.Machine

/-- A property of the state an operation ends in, with a result or an error. -/
def Res.All {α : Type} (P : State → Prop) : Res α → Prop
  | .ok _ s => P s
  | .err _ s => P s
  | .fault _ => True

theorem Res.All.bind {α β : Type} {P Q : State → Prop} {r : Res α} {f : α → State → Res β} (h : Res.All P r)
    (hf : ∀ a s, P s → Res.All Q (f a s)) (hpq : ∀ s, P s → Q s) : Res.All Q (r.bind f) := by
  cases r with
  | ok a s => exact hf a s h
  | err e s => exact hpq s h
  | fault f => trivial

/-- A relation between states that composes along operations. -/
structure IsFrame (R : State → State → Prop) : Prop where
  refl : ∀ s, R s s
  trans : ∀ s t u, R s t → R t u → R s u

theorem IsFrame.bind {R : State → State → Prop} (F : IsFrame R) {α β : Type} {r : Res α} {f : α → State → Res β} {s : State} (h : Res.All (R s) r)
    (hf : ∀ a t, Res.All (R t) (f a t)) : Res.All (R s) (r.bind f) := by
  refine Res.All.bind h (fun a t ht => ?_) (fun _ => id)
  have := hf a t
  revert this; cases f a t <;> simp only [Res.All] <;> first | exact fun h => F.trans _ _ _ ht h | exact id

theorem Cells.writeRun_append {α : Type} (m : List (Nat × α)) (a : Nat) (xs ys : List α) :
    Cells.writeRun m a (xs ++ ys) = Cells.writeRun (Cells.writeRun m a xs) (a + xs.length) ys := by
  induction xs generalizing m a with
  | nil => rfl
  | cons x xs ih => simp only [List.cons_append, Cells.writeRun, ih, List.length_cons]; congr 1; omega

/-- What every operation of the decoder and the output writer keeps, and what it may write: `OUT` from `OP` on. -/
structure DecFrame (s t : State) : Prop where
  cfg : t.cfg = s.cfg
  grain : t.grain = s.grain
  ctl : t.ctl = s.ctl
  status : t.status = s.status
  err : t.err = s.err
  inLen : t.inLen = s.inLen
  outLen : t.outLen = s.outLen
  outLimit : t.outLimit = s.outLimit
  sizeHint : t.sizeHint = s.sizeHint
  nreg : t.nreg = s.nreg
  anchor : t.anchor = s.anchor
  seq4 : t.seq4 = s.seq4
  hidx : t.hidx = s.hidx
  cand : t.cand = s.cand
  lim : t.lim = s.lim
  inMem : t.inMem = s.inMem
  ht : t.ht = s.ht
  host : t.host = s.host
  hostData : t.hostData = s.hostData
  inEra : t.inEra = s.inEra
  outEra : t.outEra = s.outEra
  ip : s.ip ≤ t.ip
  wr : ∃ vs : List Byte, t.out = Cells.writeRun s.out s.op vs ∧ t.op = s.op + vs.length ∧ (t.op ≤ maxCsize s.cfg ∨ vs = [])

/-- An update of decoder registers that does not move `IP` back. -/
theorem DecFrame.of_update {s t : State} (h : t = { s with ip := t.ip, tok := t.tok, litlen := t.litlen, mlen := t.mlen, off := t.off, lenAcc := t.lenAcc, lenBias := t.lenBias, ret := t.ret }) (hip : s.ip ≤ t.ip) : DecFrame s t := by
  rw [h]; constructor <;> first | rfl | exact hip | exact ⟨[], rfl, rfl, .inr rfl⟩

theorem decFrame_isFrame : IsFrame DecFrame where
  refl s := by constructor <;> first | rfl | exact le_refl _ | exact ⟨[], rfl, rfl, .inr rfl⟩
  trans s t u a b := by
    obtain ⟨xs, x1, x2, x3⟩ := a.wr
    obtain ⟨ys, y1, y2, y3⟩ := b.wr
    constructor
    case ip => exact le_trans a.ip b.ip
    case wr =>
      refine ⟨xs ++ ys, by rw [y1, x1, x2, Cells.writeRun_append], by simp; omega, ?_⟩
      rcases y3 with y3 | rfl
      · left; rw [← a.cfg]; exact y3
      · simp at y2; rw [y2]; simpa using x3
    all_goals first
      | exact b.cfg.trans a.cfg | exact b.grain.trans a.grain | exact b.ctl.trans a.ctl | exact b.status.trans a.status | exact b.err.trans a.err
      | exact b.inLen.trans a.inLen | exact b.outLen.trans a.outLen | exact b.outLimit.trans a.outLimit | exact b.sizeHint.trans a.sizeHint
      | exact b.nreg.trans a.nreg | exact b.anchor.trans a.anchor | exact b.seq4.trans a.seq4 | exact b.hidx.trans a.hidx | exact b.cand.trans a.cand
      | exact b.lim.trans a.lim | exact b.inMem.trans a.inMem | exact b.ht.trans a.ht | exact b.host.trans a.host | exact b.hostData.trans a.hostData
      | exact b.inEra.trans a.inEra | exact b.outEra.trans a.outEra

theorem decFrame_append (v : Byte) (s : State) : Res.All (DecFrame s) (append v s) := by
  rw [append]; split
  · constructor <;> first | rfl | exact le_refl _ | exact ⟨[v], rfl, rfl, .inl (by simp only; omega)⟩
  · trivial

theorem decFrame_appendAll (vs : List Byte) (s : State) : Res.All (DecFrame s) (appendAll vs s) := by
  induction vs generalizing s with
  | nil => exact decFrame_isFrame.refl s
  | cons v vs ih => exact decFrame_isFrame.bind (decFrame_append v s) fun _ t => ih t

theorem decFrame_restIn (s : State) : Res.All (DecFrame s) (restIn s) := by
  rw [restIn]; split; exacts [decFrame_isFrame.refl s, trivial]

theorem decFrame_takeIn (a n : Nat) (s : State) : Res.All (DecFrame s) (takeIn a n s) := by
  rw [takeIn]; split; exacts [decFrame_isFrame.refl s, trivial]

theorem decFrame_readOut (a : Nat) (s : State) : Res.All (DecFrame s) (readOut a s) := by
  rw [readOut]; split; exacts [decFrame_isFrame.refl s, trivial]

theorem decFrame_takeLen (sel bias rm : Nat) (bs : List Byte) (s : State) : Res.All (DecFrame s) (takeLen sel bias rm bs s) := by
  rw [takeLen]; split <;> exact DecFrame.of_update rfl (by simp)

theorem decFrame_takeLitlen (sel : Nat) (bs : List Byte) (s : State) : Res.All (DecFrame s) (takeLitlen sel bs s) :=
  decFrame_isFrame.bind (decFrame_takeLen ..) fun _ _ => DecFrame.of_update rfl (by simp)

theorem decFrame_takeMatchlen (sel : Nat) (bs : List Byte) (s : State) : Res.All (DecFrame s) (takeMatchlen sel bs s) :=
  decFrame_isFrame.bind (decFrame_takeLen ..) fun _ _ => DecFrame.of_update rfl (by simp)

theorem decFrame_takeLits (lits : List Byte) (s : State) : Res.All (DecFrame s) (takeLits lits s) :=
  decFrame_isFrame.bind (decFrame_appendAll ..) fun _ _ => DecFrame.of_update rfl (by simp)

theorem decFrame_takeOffset (off : Half) (s : State) : Res.All (DecFrame s) (takeOffset off s) := by
  simp only [takeOffset]; split <;> exact DecFrame.of_update rfl (by simp)

theorem decFrame_fetchToken (s : State) : Res.All (DecFrame s) (fetchTokenOp s) :=
  decFrame_isFrame.bind (decFrame_restIn s) fun bs t => by
    cases bs
    · exact decFrame_isFrame.refl t
    · exact DecFrame.of_update rfl (by simp [takeToken])

theorem decFrame_readLitlen (s : State) : Res.All (DecFrame s) (readLitlenOp s) := decFrame_isFrame.bind (decFrame_restIn s) fun _ _ => decFrame_takeLitlen ..

theorem decFrame_readMatchlen (s : State) : Res.All (DecFrame s) (readMatchlenOp s) := decFrame_isFrame.bind (decFrame_restIn s) fun _ _ => decFrame_takeMatchlen ..

theorem decFrame_readOffset (s : State) : Res.All (DecFrame s) (readOffsetOp s) := decFrame_isFrame.bind (decFrame_restIn s) fun bs t => by
  match bs with
  | [] => exact decFrame_isFrame.refl t
  | [_] => exact decFrame_isFrame.refl t
  | _ :: _ :: _ => exact decFrame_takeOffset ..

theorem decFrame_copyLiterals (s : State) : Res.All (DecFrame s) (copyLiteralsOp s) := decFrame_isFrame.bind (decFrame_restIn s) fun bs t => by
  split
  · exact decFrame_isFrame.refl t
  · exact decFrame_isFrame.bind (decFrame_takeLits ..) fun _ u => decFrame_isFrame.refl u

theorem decFrame_copyFrom (n src : Nat) (s : State) : Res.All (DecFrame s) (copyFrom n src s) := by
  induction n generalizing src s with
  | zero => exact decFrame_isFrame.refl s
  | succ n ih => exact decFrame_isFrame.bind (decFrame_readOut ..) fun _ t => decFrame_isFrame.bind (decFrame_append ..) fun _ u => ih ..

theorem decFrame_copyMatch (s : State) : Res.All (DecFrame s) (copyMatchOp s) := by
  rw [copyMatchOp]; split; exacts [trivial, decFrame_copyFrom ..]

theorem decFrame_parseSequence (s : State) : Res.All (DecFrame s) (parseSequenceOp s) :=
  decFrame_isFrame.bind (decFrame_fetchToken s) fun _ t => decFrame_isFrame.bind (decFrame_readLitlen t) fun _ t => decFrame_isFrame.bind (decFrame_copyLiterals t) fun _ t => by
    split
    · exact decFrame_isFrame.refl t
    · exact decFrame_isFrame.bind (decFrame_readOffset t) fun _ t => decFrame_isFrame.bind (decFrame_readMatchlen t) fun _ t => decFrame_isFrame.bind (decFrame_copyMatch t) fun _ t => decFrame_isFrame.refl t

theorem decFrame_runSeq (lits off mlen) (s : State) : Res.All (DecFrame s) (runSeq lits off mlen s) :=
  decFrame_isFrame.bind (decFrame_isFrame.bind (r := .ok () (takeToken _ s)) (f := fun _ s => takeLitlen _ _ s) (DecFrame.of_update rfl (by simp [takeToken])) fun _ t => decFrame_takeLitlen ..) fun _ t =>
    decFrame_isFrame.bind (decFrame_takeLits ..) fun _ t => decFrame_isFrame.bind (decFrame_takeOffset ..) fun _ t => decFrame_isFrame.bind (decFrame_takeMatchlen ..) fun _ t => decFrame_isFrame.bind (decFrame_copyMatch t) fun _ t => decFrame_isFrame.refl t

theorem decFrame_runLast (x lits) (s : State) : Res.All (DecFrame s) (runLast x lits s) :=
  decFrame_isFrame.bind (decFrame_isFrame.bind (r := .ok () (takeToken _ s)) (f := fun _ s => takeLitlen _ _ s) (DecFrame.of_update rfl (by simp [takeToken])) fun _ t => decFrame_takeLitlen ..) fun _ t =>
    decFrame_isFrame.bind (decFrame_takeLits ..) fun _ t => decFrame_isFrame.refl t

theorem decFrame_lenext (v : Byte) (s : State) : Res.All (DecFrame s) (lenextOp v s) := by
  simp only [lenextOp]; split <;> exact DecFrame.of_update rfl (by simp)

/-- What every operation of the match finder and the token encoder keeps, and what it may write: `OUT` from `OP` on. -/
structure CompFrame (s t : State) : Prop where
  cfg : t.cfg = s.cfg
  inLen : t.inLen = s.inLen
  outLimit : t.outLimit = s.outLimit
  sizeHint : t.sizeHint = s.sizeHint
  tok : t.tok = s.tok
  litlen : t.litlen = s.litlen
  lim : t.lim = s.lim
  lenAcc : t.lenAcc = s.lenAcc
  lenBias : t.lenBias = s.lenBias
  inMem : t.inMem = s.inMem
  hostData : t.hostData = s.hostData
  inEra : t.inEra = s.inEra
  ip : s.ip ≤ t.ip
  wr : ∃ vs : List Byte, t.out = Cells.writeRun s.out s.op vs ∧ t.op = s.op + vs.length

/-- An update of compressor registers that does not move `IP` back. -/
theorem CompFrame.of_update {s t : State} (h : t = { s with ctl := t.ctl, status := t.status, err := t.err, outLen := t.outLen, ret := t.ret, ip := t.ip, anchor := t.anchor, seq4 := t.seq4, hidx := t.hidx, cand := t.cand, ht := t.ht, mlen := t.mlen, off := t.off }) (hip : s.ip ≤ t.ip) : CompFrame s t := by
  rw [h]; constructor <;> first | rfl | exact hip | exact ⟨[], rfl, rfl⟩

theorem compFrame_isFrame : IsFrame CompFrame where
  refl s := CompFrame.of_update rfl (le_refl _)
  trans s t u a b := by
    obtain ⟨xs, x1, x2⟩ := a.wr
    obtain ⟨ys, y1, y2⟩ := b.wr
    constructor
    case ip => exact le_trans a.ip b.ip
    case wr => exact ⟨xs ++ ys, by rw [y1, x1, x2, Cells.writeRun_append], by simp; omega⟩
    all_goals first
      | exact b.cfg.trans a.cfg | exact b.inLen.trans a.inLen | exact b.outLimit.trans a.outLimit | exact b.sizeHint.trans a.sizeHint
      | exact b.tok.trans a.tok | exact b.litlen.trans a.litlen | exact b.lim.trans a.lim | exact b.lenAcc.trans a.lenAcc | exact b.lenBias.trans a.lenBias
      | exact b.inMem.trans a.inMem | exact b.hostData.trans a.hostData | exact b.inEra.trans a.inEra

theorem compFrame_append (v : Byte) (s : State) : Res.All (CompFrame s) (append v s) := by
  rw [append]; split
  · constructor <;> first | rfl | exact le_refl _ | exact ⟨[v], rfl, rfl⟩
  · trivial

theorem compFrame_appendAll (vs : List Byte) (s : State) : Res.All (CompFrame s) (appendAll vs s) := by
  induction vs generalizing s with
  | nil => exact compFrame_isFrame.refl s
  | cons v vs ih => exact compFrame_isFrame.bind (compFrame_append v s) fun _ t => ih t

theorem compFrame_takeIn (a n : Nat) (s : State) : Res.All (CompFrame s) (takeIn a n s) := by
  rw [takeIn]; split; exacts [compFrame_isFrame.refl s, trivial]

theorem compFrame_readIn (a : Nat) (s : State) : Res.All (CompFrame s) (readIn a s) := by
  rw [readIn]; split; exacts [compFrame_isFrame.refl s, trivial]

theorem compFrame_htLookupInsert (h pos : Nat) (s : State) : Res.All (CompFrame s) (htLookupInsertOp h pos s) := by
  rw [htLookupInsertOp]; split; exacts [CompFrame.of_update rfl (le_refl _), trivial]

theorem compFrame_matchVerify (c p : Nat) (s : State) : Res.All (CompFrame s) (matchVerifyOp c p s) := by
  rw [matchVerifyOp]; split
  · exact compFrame_isFrame.refl s
  · exact compFrame_isFrame.bind (compFrame_takeIn ..) fun _ t => compFrame_isFrame.bind (compFrame_takeIn ..) fun _ u => compFrame_isFrame.refl u

theorem compFrame_extendLoop (c p fuel m : Nat) (s : State) : Res.All (CompFrame s) (extendLoop c p fuel m s) := by
  induction fuel generalizing m s with
  | zero => exact compFrame_isFrame.refl s
  | succ f ih =>
    unfold extendLoop; split
    · exact compFrame_isFrame.bind (compFrame_readIn ..) fun _ t => compFrame_isFrame.bind (compFrame_readIn ..) fun _ u => by
        split; exacts [ih _ _, compFrame_isFrame.refl u]
    · exact compFrame_isFrame.refl s

theorem compFrame_tryCandidates (cs : List Nat) (best : Nat) (s : State) : Res.All (CompFrame s) (tryCandidates cs best s) := by
  induction cs generalizing best s with
  | nil => exact compFrame_isFrame.refl s
  | cons c cs ih =>
    rw [tryCandidates]
    exact compFrame_isFrame.bind (compFrame_matchVerify ..) fun _ t => by
      split
      · exact compFrame_isFrame.bind (compFrame_extendLoop ..) fun m u => by
          split
          · exact compFrame_isFrame.bind (r := .ok () _) (f := fun _ s => tryCandidates cs m s) (CompFrame.of_update rfl (le_refl _))
              fun _ v => ih _ v
          · exact ih _ u
      · exact ih _ t

theorem compFrame_findMatch (hash) (s : State) : Res.All (CompFrame s) (findMatchWith hash s) :=
  compFrame_isFrame.bind (compFrame_takeIn ..) fun _ _ => compFrame_isFrame.bind (compFrame_isFrame.bind (r := .ok () _) (f := fun _ s => htLookupInsertOp _ _ s) (CompFrame.of_update rfl (le_refl _)) fun _ _ => compFrame_htLookupInsert ..) fun c _ =>
    compFrame_isFrame.bind (r := .ok () _) (f := fun _ s => tryCandidates c 0 s) (CompFrame.of_update rfl (le_refl _)) fun _ _ => compFrame_tryCandidates ..

theorem compFrame_backLoop (off fuel b : Nat) (s : State) : Res.All (CompFrame s) (backLoop off fuel b s) := by
  induction fuel generalizing b s with
  | zero => exact compFrame_isFrame.refl s
  | succ f ih =>
    rw [backLoop]; split
    · exact compFrame_isFrame.bind (compFrame_readIn ..) fun _ t => compFrame_isFrame.bind (compFrame_readIn ..) fun _ u => by
        split; exacts [ih _ _, compFrame_isFrame.refl u]
    · exact compFrame_isFrame.refl s

theorem compFrame_matchStart (s : State) : Res.All (CompFrame s) (matchStart s) := by
  rw [matchStart]; split; exacts [compFrame_backLoop .., compFrame_isFrame.refl s]

theorem compFrame_insertFrom (n p : Nat) (s : State) : Res.All (CompFrame s) (insertFrom n p s) := by
  induction n generalizing p s with
  | zero => exact compFrame_isFrame.refl s
  | succ n ih =>
    rw [insertFrom]; split
    · exact compFrame_isFrame.bind (compFrame_takeIn ..) fun _ t =>
        compFrame_isFrame.bind (compFrame_htLookupInsert ..) fun _ u => ih _ u
    · exact compFrame_isFrame.refl s

theorem compFrame_insertInside (s : State) : Res.All (CompFrame s) (insertInside s) := by
  rw [insertInside]; split
  · split <;> exact compFrame_insertFrom ..
  · exact compFrame_isFrame.refl s

theorem compFrame_emitSeq (a b off mlen) (s : State) : Res.All (CompFrame s) (emitSeqOp a b off mlen s) :=
  compFrame_isFrame.bind (compFrame_append ..) fun _ _ => compFrame_isFrame.bind (compFrame_appendAll ..) fun _ _ => compFrame_isFrame.bind (compFrame_takeIn ..) fun _ _ => compFrame_isFrame.bind (compFrame_appendAll ..) fun _ _ => compFrame_isFrame.bind (compFrame_appendAll ..) fun _ _ => compFrame_appendAll ..

theorem compFrame_emitLast (a) (s : State) : Res.All (CompFrame s) (emitLastOp a s) :=
  compFrame_isFrame.bind (compFrame_append ..) fun _ _ => compFrame_isFrame.bind (compFrame_appendAll ..) fun _ _ => compFrame_isFrame.bind (compFrame_takeIn ..) fun _ _ => compFrame_appendAll ..

end Sys2Proof.Machine
end

