-- ==== Sys2Proof/Laws/Memory.lean ====
section
/-! SUPPORT. The canonical form of the memories and of the table: it holds at reset, every operation keeps it, and two
memories in it that read alike are equal data. -/

namespace Sys2Proof.Machine

theorem reset_inMem_wf : Memory.wf State.reset.inMem := List.Pairwise.nil

theorem reset_out_wf : Memory.wf State.reset.out := List.Pairwise.nil

theorem reset_ht_wf : Table.wf State.reset.ht := ⟨List.Pairwise.nil, by simp [State.reset, State.resetIn]⟩

/-- A write of one byte keeps the form. -/
theorem memory_wf_write {m : Memory} (a : Nat) (v : Byte) (h : Memory.wf m) : Memory.wf (Cells.write m a v) :=
  Cells.wf_write a v h

/-- A write of a run of bytes keeps the form. -/
theorem memory_wf_writeRun {m : Memory} (a : Nat) (vs : List Byte) (h : Memory.wf m) :
    Memory.wf (Cells.writeRun m a vs) :=
  Cells.wf_writeRun a vs h

/-- Two memories in the form that read alike are equal data. -/
theorem memory_ext {m n : Memory} (hm : Memory.wf m) (hn : Memory.wf n) (h : ∀ a, Cells.read m a = Cells.read n a) :
    m = n :=
  Cells.ext hm hn h

/-- A state in whose frame another stands (the decoder's) keeps both memories in the form. -/
theorem DecFrame.wf {s t : State} (f : DecFrame s t) (hi : Memory.wf s.inMem) (ho : Memory.wf s.out) (hh : Table.wf s.ht) :
    Memory.wf t.inMem ∧ Memory.wf t.out ∧ Table.wf t.ht := by
  obtain ⟨vs, w, -⟩ := f.wr
  exact ⟨by rw [f.inMem]; exact hi, by rw [w]; exact memory_wf_writeRun _ _ ho, by rw [f.ht]; exact hh⟩

/-- A state in whose frame another stands (the compressor's) keeps both memories in the form. -/
theorem CompFrame.wf {s t : State} (f : CompFrame s t) (hi : Memory.wf s.inMem) (ho : Memory.wf s.out) :
    Memory.wf t.inMem ∧ Memory.wf t.out := by
  obtain ⟨vs, w, -⟩ := f.wr
  exact ⟨by rw [f.inMem]; exact hi, by rw [w]; exact memory_wf_writeRun _ _ ho⟩

/-- An insert keeps the form of the table. -/
theorem htLookupInsertOp_wf (h pos : Nat) (s : State) (hh : Table.wf s.ht) :
    Res.All (fun t => Table.wf t.ht) (htLookupInsertOp h pos s) := by
  rw [htLookupInsertOp]; split
  · exact table_wf_write _ (by simp) hh
  · trivial

/-- The other writes of the table are a run of inserts, which keep the form. -/
theorem insertFrom_wf (n p : Nat) (s : State) (hh : Table.wf s.ht) :
    Res.All (fun t => Table.wf t.ht) (insertFrom n p s) := by
  induction n generalizing p s with
  | zero => exact hh
  | succ n ih =>
    rw [insertFrom]; split
    · refine Res.All.bind (P := fun t => Table.wf t.ht) ?_ (fun bs t ht => ?_) fun _ => id
      · rw [takeIn]; split; exacts [hh, trivial]
      · exact Res.All.bind (htLookupInsertOp_wf _ _ t ht) (fun _ u hu => ih _ u hu) fun _ => id
    · exact hh

/-- The host's write to IN keeps the form. -/
theorem hostWriteIn_wf {pos : Nat} {b : Byte} {s t : State} (hi : Memory.wf s.inMem) (h : hostWriteIn pos b s = .next t) :
    Memory.wf t.inMem := by
  rw [hostWriteIn, unlessBusy] at h
  split at h
  · cases h
  · split at h
    · cases h; exact memory_wf_write _ _ hi
    · cases h

end Sys2Proof.Machine
end

