-- ==== Sys2Proof/Laws/PerInstr.lean ====
section
/-! SUPPORT. Statements made of every instruction, one lemma for each constructor. -/

namespace Sys2Proof.Laws.CodedInstruction

/-- An instruction has bytes exactly where it has a place they are decoded at, and then it has at least one (R102: an
internal operation has no bit pattern). -/
def Statement (i : Instr) : Prop :=
  (encode i).isSome = (ctxOf i).isSome ∧ encode i ≠ some []

theorem seq (lits : List Byte) (off : Half) (mlen : Nat) : Statement (.seq lits off mlen) := by
  simp [Statement, encode, ctxOf, sequenceBytes, finalBytes]

theorem seqXL (lits : List Byte) (off : Half) (mlen : Nat) : Statement (.seqXL lits off mlen) := by
  simp [Statement, encode, ctxOf, sequenceBytes, finalBytes]

theorem seqXM (lits : List Byte) (off : Half) (mlen : Nat) : Statement (.seqXM lits off mlen) := by
  simp [Statement, encode, ctxOf, sequenceBytes, finalBytes]

theorem seqXLM (lits : List Byte) (off : Half) (mlen : Nat) : Statement (.seqXLM lits off mlen) := by
  simp [Statement, encode, ctxOf, sequenceBytes, finalBytes]

theorem last (x : BitVec 4) (lits : List Byte) : Statement (.last x lits) := by
  simp [Statement, encode, ctxOf, sequenceBytes, finalBytes]

theorem lastXL (x : BitVec 4) (lits : List Byte) : Statement (.lastXL x lits) := by
  simp [Statement, encode, ctxOf, sequenceBytes, finalBytes]

theorem lenextCont : Statement .lenextCont := by
  simp [Statement, encode, ctxOf, offsetBytes]

theorem lenextEnd (v : Byte) : Statement (.lenextEnd v) := by
  simp [Statement, encode, ctxOf, offsetBytes]

theorem literal (b : Byte) : Statement (.literal b) := by
  simp [Statement, encode, ctxOf, offsetBytes]

theorem offset (off : Half) : Statement (.offset off) := by
  simp [Statement, encode, ctxOf, offsetBytes]

theorem nop : Statement .nop := by
  simp [Statement, encode, ctxOf, offsetBytes]

theorem compress : Statement .compress := by
  simp [Statement, encode, ctxOf, offsetBytes]

theorem decompress : Statement .decompress := by
  simp [Statement, encode, ctxOf, offsetBytes]

theorem decompressInto : Statement .decompressInto := by
  simp [Statement, encode, ctxOf, offsetBytes]

theorem encodeLength (n : Nat) : Statement (.encodeLength n) := by
  simp [Statement, encode, ctxOf, offsetBytes]

theorem sel (n : Nat) : Statement (.sel n) := by
  simp [Statement, encode, ctxOf, offsetBytes]

theorem decodeLength (sel : BitVec 4) (bias room : Nat) : Statement (.decodeLength sel bias room) := by
  simp [Statement, encode, ctxOf, offsetBytes]

theorem hash4 (v : Word) : Statement (.hash4 v) := by
  simp [Statement, encode, ctxOf, offsetBytes]

theorem htLookupInsert (h pos : Nat) : Statement (.htLookupInsert h pos) := by
  simp [Statement, encode, ctxOf, offsetBytes]

theorem matchVerify (c p : Nat) : Statement (.matchVerify c p) := by
  simp [Statement, encode, ctxOf, offsetBytes]

theorem matchExtend (c p : Nat) : Statement (.matchExtend c p) := by
  simp [Statement, encode, ctxOf, offsetBytes]

theorem findMatch : Statement .findMatch := by
  simp [Statement, encode, ctxOf, offsetBytes]

theorem emitSeq (a b : Nat) (off : Half) (mlen : Nat) : Statement (.emitSeq a b off mlen) := by
  simp [Statement, encode, ctxOf, offsetBytes]

theorem emitLast (a : Nat) : Statement (.emitLast a) := by
  simp [Statement, encode, ctxOf, offsetBytes]

theorem fetchToken : Statement .fetchToken := by
  simp [Statement, encode, ctxOf, offsetBytes]

theorem readLitlen : Statement .readLitlen := by
  simp [Statement, encode, ctxOf, offsetBytes]

theorem endTest : Statement .endTest := by
  simp [Statement, encode, ctxOf, offsetBytes]

theorem readOffset : Statement .readOffset := by
  simp [Statement, encode, ctxOf, offsetBytes]

theorem readMatchlen : Statement .readMatchlen := by
  simp [Statement, encode, ctxOf, offsetBytes]

theorem parseSequence : Statement .parseSequence := by
  simp [Statement, encode, ctxOf, offsetBytes]

theorem copyLiterals : Statement .copyLiterals := by
  simp [Statement, encode, ctxOf, offsetBytes]

theorem copyMatch : Statement .copyMatch := by
  simp [Statement, encode, ctxOf, offsetBytes]

end Sys2Proof.Laws.CodedInstruction
end

