-- ==== Sys2Proof/Tests/Slice0.lean ====
section
/-! SUPPORT. The model's own tests: the smoke test of `wellFormed`, the decoding of words written out from the spec's
encodings, single steps with the results the spec's vectors give (spec/95_test_vectors.md, whose row names are cited), and
for each obligation with hypotheses a concrete state that meets them. -/

namespace Sys2Proof.Tests

open Sys2Proof.Machine

/-! ### `wellFormed` refuses an ill-formed term of each check -/

theorem test_wf_seq_long_literals : wellFormed (.seq (List.replicate 15 0#8) 1#16 4) = false := by decide
theorem test_wf_seq_short_match : wellFormed (.seq [] 1#16 3) = false := by decide
theorem test_wf_seq_long_match : wellFormed (.seq [] 1#16 19) = false := by decide
theorem test_wf_seqXL_short_literals : wellFormed (.seqXL (List.replicate 14 0#8) 1#16 4) = false := by decide
theorem test_wf_seqXL_long_match : wellFormed (.seqXL (List.replicate 15 0#8) 1#16 19) = false := by decide
theorem test_wf_seqXM_short_match : wellFormed (.seqXM [] 1#16 18) = false := by decide
theorem test_wf_seqXM_long_literals : wellFormed (.seqXM (List.replicate 15 0#8) 1#16 19) = false := by decide
theorem test_wf_seqXLM_short_literals : wellFormed (.seqXLM [] 1#16 19) = false := by decide
theorem test_wf_seqXLM_short_match : wellFormed (.seqXLM (List.replicate 15 0#8) 1#16 18) = false := by decide
theorem test_wf_last_long : wellFormed (.last 0#4 (List.replicate 15 0#8)) = false := by decide
theorem test_wf_lastXL_short : wellFormed (.lastXL 0#4 (List.replicate 14 0#8)) = false := by decide
theorem test_wf_lenextEnd_255 : wellFormed (.lenextEnd 255#8) = false := by decide
theorem test_wf_decodeLength_bias : wellFormed (.decodeLength 0#4 3 0) = false := by decide
theorem test_wf_matchVerify_order : wellFormed (.matchVerify 4 4) = false := by decide
theorem test_wf_matchExtend_order : wellFormed (.matchExtend 5 4) = false := by decide
theorem test_wf_emitSeq_order : wellFormed (.emitSeq 2 1 1#16 4) = false := by decide
theorem test_wf_emitSeq_zero_offset : wellFormed (.emitSeq 0 0 0#16 4) = false := by decide
theorem test_wf_emitSeq_short_match : wellFormed (.emitSeq 0 0 1#16 3) = false := by decide

/-! ### Decoding words written out from the spec's encodings (R92 to R102; the streams of part 2B and 2C) -/

/-- `EMIT_SEQ("abcd", 4, 7)`: `LLLLMMMM` = 0100 0011, the literals, the offset 0x0004 low byte first. -/
theorem test_decode_seq : decode .sequence [0b01000011#8, 0x61#8, 0x62#8, 0x63#8, 0x64#8, 0x04#8, 0x00#8, 0x50#8] =
    .ok (.seq [0x61#8, 0x62#8, 0x63#8, 0x64#8] 4#16 7, [0x50#8]) := by decide

/-- `EMIT_SEQ("ab", 256, 18)`: the offset's high byte comes second. -/
theorem test_decode_seq_offset_order : decode .sequence [0x2E#8, 0x61#8, 0x62#8, 0x00#8, 0x01#8] =
    .ok (.seq [0x61#8, 0x62#8] 256#16 18, []) := by decide

/-- `EMIT_SEQ("x"*15, 1, 4)`: `1111MMMM`, one extension byte `00`. -/
theorem test_decode_seqXL :
    decode .sequence ([0b11110000#8, 0x00#8] ++ List.replicate 15 0x78#8 ++ [0x01#8, 0x00#8]) =
      .ok (.seqXL (List.replicate 15 0x78#8) 1#16 4, []) := by decide

/-- `EMIT_SEQ([], 4, 274)`: `LLLL1111`, extension bytes `FF 00`. -/
theorem test_decode_seqXM : decode .sequence [0b00001111#8, 0x04#8, 0x00#8, 0xFF#8, 0x00#8] =
    .ok (.seqXM [] 4#16 274, []) := by decide

/-- P2, its first sequence: `FF 05`, twenty literals, `14 00 06`. -/
theorem test_decode_seqXLM :
    decode .sequence ([0b11111111#8, 0x05#8] ++ List.replicate 20 0x41#8 ++ [0x14#8, 0x00#8, 0x06#8, 0x50#8]) =
      .ok (.seqXLM (List.replicate 20 0x41#8) 20#16 25, [0x50#8]) := by decide

/-- K3: `LLLLxxxx` = 0100 0000. -/
theorem test_decode_last : decode .sequence [0b01000000#8, 0x61#8, 0x62#8, 0x63#8, 0x64#8] =
    .ok (.last 0#4 [0x61#8, 0x62#8, 0x63#8, 0x64#8], []) := by decide

/-- L7: `1111xxxx`, one extension byte `01`; the low nibble is kept and ignored (R206). -/
theorem test_decode_lastXL : decode .sequence ([0xF7#8, 0x01#8] ++ List.replicate 16 0x41#8) =
    .ok (.lastXL 7#4 (List.replicate 16 0x41#8), []) := by decide

theorem test_decode_lenextCont : decode .lenext [0b11111111#8, 0x00#8] = .ok (.lenextCont, [0x00#8]) := by decide
theorem test_decode_lenextEnd : decode .lenext [0xFE#8] = .ok (.lenextEnd 254#8, []) := by decide
theorem test_decode_literal : decode .literal [0xFF#8, 0x00#8] = .ok (.literal 0xFF#8, [0x00#8]) := by decide

/-- R60: low byte first. -/
theorem test_decode_offset : decode .offset [0x34#8, 0x12#8] = .ok (.offset 0x1234#16, []) := by decide

theorem test_decode_nop : decode .command [0b00#8] = .ok (.nop, []) := by decide
theorem test_decode_compress : decode .command [0b01#8] = .ok (.compress, []) := by decide
theorem test_decode_decompress : decode .command [0b10#8] = .ok (.decompress, []) := by decide
theorem test_decode_decompressInto : decode .command [0b11#8] = .ok (.decompressInto, []) := by decide

/-- E1, E4, E3, E7, E9 and a value too wide for `CMD.OP`: what is rejected, by name. -/
theorem test_decode_rejects :
    decode .sequence [] = .error .noToken ∧ decode .sequence [0xF0#8] = .error .literalExtensionCut ∧
    decode .sequence [0x20#8, 0x61#8] = .error .literalsCut ∧
    decode .sequence [0x10#8, 0x61#8, 0x01#8] = .error .offsetCut ∧
    decode .sequence [0x1F#8, 0x61#8, 0x01#8, 0x00#8] = .error .matchExtensionCut ∧
    decode .lenext [] = .error .noElement ∧ decode .command [4#8] = .error .notACommand := by decide

/-- Words of the opcode table. -/
theorem test_table_words :
    decodeTableWord 2 0 = some .nop ∧ decodeTableWord 2 3 = some .decompressInto ∧
    decodeTableWord 8 0x12 = some (.seq [0#8] 0#16 6) ∧
    decodeTableWord 8 0xF0 = some (.seqXL (List.replicate 15 0#8) 0#16 4) ∧
    decodeTableWord 8 0x0F = some (.seqXM [] 0#16 19) ∧
    decodeTableWord 8 0xFF = some (.seqXLM (List.replicate 15 0#8) 0#16 19) ∧
    decodeTableWord 16 0x1234 = some (.offset 0x1234#16) := by decide

/-! ### Small states -/

/-- The configuration of R7 with a small `MAX_SIZE`. -/
def small : Config := { Config.spec with maxSize := 100 }

/-- The state after reset with bytes in IN. -/
def holding (bs : List Byte) : State :=
  { State.resetIn small with inMem := Cells.writeRun [] 0 bs, inLen := bs.length }

/-- A decompression at its start, at a line. -/
def decoding (c : Ctl) (g : Grain) (bs : List Byte) (lim : Nat) : State :=
  { holding bs with
    status := .busy, ctl := c, grain := g, nreg := bs.length, outLimit := lim, lim := lim, outEra := 1 }

/-- The same after some output. -/
def produced (s : State) (out : List Byte) : State := { s with out := Cells.writeRun [] 0 out, op := out.length }

/-- A compression at its start. -/
def encoding (bs : List Byte) : State :=
  { holding bs with status := .busy, ctl := .scan, nreg := bs.length, outEra := 1 }

/-- What is asked of the next state, if there is one. -/
def look {α : Type} (o : Host.Outcome State Fault Refusal) (f : State → α) : Option α :=
  match o with
  | .next t => some (f t)
  | .fault _ => none
  | .refused _ => none

/-- The error an outcome raises. -/
def raised (o : Host.Outcome State Fault Refusal) : Option (Status × Option ErrKind × Nat) :=
  look o fun t => (t.status, t.err, t.outLen)

def abcd : List Byte := [0x61#8, 0x62#8, 0x63#8, 0x64#8]

/-- P1. -/
def streamP1 : List Byte := [0x11#8, 0x61#8, 0x01#8, 0x00#8, 0x50#8, 0x62#8, 0x63#8, 0x64#8, 0x65#8, 0x66#8]

/-! ### Single steps -/

/-- P1, steps 1 to 7. -/
theorem test_seq : look (exec (.seq [0x61#8] 1#16 5) (decoding .sequence .sequence streamP1 100))
    (fun t => (t.tok, t.ip, t.op, t.outRun 0 6)) = some (0x11#8, 4, 6, List.replicate 6 0x61#8) := by decide

/-- P4, E18: offset 5 over 4 bytes. -/
theorem test_seq_invalid_offset : raised (exec (.seq abcd 5#16 4) (decoding .sequence .sequence [] 100)) =
    some (.error, some .invalidOffset, 0) := by decide

/-- `EMIT_SEQ("x"*15, 1, 4)` read back: 15 literals and 4 bytes, 19 stream bytes. -/
theorem test_seqXL : look (exec (.seqXL (List.replicate 15 0x78#8) 1#16 4) (decoding .sequence .sequence [] 100))
    (fun t => (t.ip, t.op, t.outRun 0 19)) = some (19, 19, List.replicate 19 0x78#8) := by decide

/-- L12, and L11: at 16 the match does not fit. -/
theorem test_seqXM :
    look (exec (.seqXM [0x61#8] 1#16 19) (decoding .sequence .sequence [] 20)) (fun t => (t.ip, t.op)) = some (5, 20) ∧
    raised (exec (.seqXM [0x61#8] 1#16 19) (decoding .sequence .sequence [] 16)) =
      some (.error, some .lengthOverflow, 0) := by decide

def twenty : List Byte := (List.range 20).map (BitVec.ofNat 8)

/-- P2, steps 1 to 7: `IP` 25, `OP` 45, the last five bytes are the first five again. -/
theorem test_seqXLM : look (exec (.seqXLM twenty 20#16 25) (decoding .sequence .sequence [] 100))
    (fun t => (t.ip, t.op, t.outRun 40 5)) = some (25, 45, [0#8, 1#8, 2#8, 3#8, 4#8]) := by decide

/-- P1, steps 8 to 12. -/
theorem test_last : look (exec (.last 0#4 [0x62#8, 0x63#8]) (produced (decoding .sequence .sequence [] 100) [0x61#8]))
    (fun t => (t.status, t.outLen, t.outRun 0 3)) = some (.done, 3, [0x61#8, 0x62#8, 0x63#8]) := by decide

/-- L7 and L8. -/
theorem test_lastXL :
    look (exec (.lastXL 0#4 (List.replicate 16 0x41#8)) (decoding .sequence .sequence [] 16)) (fun t => (t.status, t.outLen)) =
      some (.done, 16) ∧
    raised (exec (.lastXL 0#4 (List.replicate 17 0x41#8)) (decoding .sequence .sequence [] 16)) =
      some (.error, some .lengthOverflow, 0) := by decide

/-- L6: 15 + 255 exceeds 16. -/
theorem test_lenextCont : raised (exec .lenextCont { decoding .litExt .field [] 16 with lenAcc := 15 }) =
    some (.error, some .lengthOverflow, 0) := by decide

/-- 2A: 15, `FF`, `0A` is 280. -/
theorem test_lenextEnd : look (exec (.lenextEnd 0x0A#8) { decoding .litExt .field [] 1000 with lenAcc := 270 })
    (fun t => (t.lenAcc, t.ip)) = some (280, 1) := by decide

theorem test_literal : look (exec (.literal 0xAB#8) (produced (decoding (.literals 1) .field [] 9) abcd))
    (fun t => (t.ip, t.op, t.outRun 4 1)) = some (1, 5, [0xAB#8]) := by decide

/-- T6: 4 is valid over four bytes, 5 is not. -/
theorem test_offset :
    look (exec (.offset 4#16) (produced (decoding .readOffset .field [] 9) abcd)) (fun t => (t.off, t.ip)) = some (4#16, 2) ∧
    raised (exec (.offset 5#16) (produced (decoding .readOffset .field [] 9) abcd)) =
      some (.error, some .invalidOffset, 0) := by decide

/-- 2D: unchanged after DONE. -/
theorem test_nop : look (exec .nop { holding [] with status := .done, outLen := 2 }) (fun t => (t.status, t.outLen)) =
    some (.done, 2) := by decide

/-- 2D, P6: the start event and the head of `COMPRESS`. -/
theorem test_compress : look (exec .compress { holding abcd with status := .error, err := some .truncatedInput, op := 9 })
    (fun t => (t.status, t.err, t.nreg, t.ip, t.op)) = some (.busy, none, 4, 0, 0) := by decide

/-- R251: an input above `MAX_SIZE` has no transition. -/
theorem test_compress_illegal : exec .compress { holding [] with inLen := 101 } = .refused .illegalStart := rfl

/-- Part 3: the start event and the head of `DECOMPRESS`. -/
theorem test_decompress : look (exec .decompress { holding abcd with outLimit := 7 })
    (fun t => (t.status, t.nreg, t.lim, t.ctl)) = some (.busy, 4, 7, .sequence) := by decide

/-- P7, step 12: the limit is `OUT_LIMIT`, whatever the hint. -/
theorem test_decompressInto : look (exec .decompressInto { holding abcd with outLimit := 10, sizeHint := 99 })
    (fun t => (t.status, t.lim)) = some (.busy, 10) := by decide

/-- 2A, rows 270 and 14. -/
theorem test_encodeLength :
    look (exec (.encodeLength 270) (encoding [])) (fun t => t.outRun 0 t.op) = some [0xFF#8, 0x00#8] ∧
    look (exec (.encodeLength 14) (encoding [])) (fun t => t.op) = some 0 := by decide

theorem test_sel : look (exec (.sel 14) (encoding [])) (fun t => t.ret) = some (.num 14) ∧
    look (exec (.sel 16) (encoding [])) (fun t => t.ret) = some (.num 15) := by decide

/-- 2A: `FF 0A` under room 1000. -/
theorem test_decodeLength : look (exec (.decodeLength 15#4 0 1000) (decoding .readLitlen .operation [0xFF#8, 0x0A#8] 9))
    (fun t => (t.ret, t.ip)) = some (.num 280, 2) := by decide

/-- 2A: room 18 and bias 4, overflow at the selector, nothing read. -/
theorem test_decodeLength_overflow : look (exec (.decodeLength 15#4 4 18) (decoding .readMatchlen .operation [0x00#8] 9))
    (fun t => (t.status, t.err, t.ip)) = some (.error, some .lengthOverflow, 0) := by decide

/-- 2B: "the second and third rows show the byte order", and "abcd". -/
theorem test_hash4 : look (exec (.hash4 1#32) (encoding [])) (fun t => t.ret) = some (.num 2531) ∧
    look (exec (.hash4 0x01000000#32) (encoding [])) (fun t => t.ret) = some (.num 2832) ∧
    look (exec (.hash4 0x64636261#32) (encoding [])) (fun t => t.ret) = some (.num 1584) := by decide

/-- P6, `IP = 8`: bucket 1584 held 0 and holds 8 after. -/
theorem test_htLookupInsert : look (exec (.htLookupInsert 1584 8) { encoding [] with ht := [(7, [3]), (1584, [0])] })
    (fun t => (t.ret, t.ht)) = some (.entry [0], [(7, [3]), (1584, [8])]) := by decide

/-- 2B, the rows at distance 65535 and 65536. -/
theorem test_matchVerify :
    look (exec (.matchVerify 0 65535) { State.reset with
      nreg := 65551, inMem := Cells.writeRun [(0, 0x57#8), (1, 0x58#8), (2, 0x59#8), (3, 0x5A#8)] 65535
        [0x57#8, 0x58#8, 0x59#8, 0x5A#8] }) (fun t => t.ret) = some (.bit true) ∧
    look (exec (.matchVerify 0 65536) { State.reset with nreg := 65552 }) (fun t => t.ret) = some (.bit false) := by decide

/-- 2B, first row: the match stops at `NREG - 5`. -/
theorem test_matchExtend : look (exec (.matchExtend 0 4) (encoding (abcd ++ abcd ++ abcd ++ abcd))) (fun t => t.ret) =
    some (.num 7) := by decide

/-- 2B, fourth row: `00*13`, overlapping. -/
theorem test_matchExtend_overlap : look (exec (.matchExtend 0 1) (encoding (List.replicate 13 0#8))) (fun t => t.ret) =
    some (.num 7) := by decide

/-- K10: at `IP = 4`, offset 4, length 7, bucket 1584. -/
theorem test_findMatch :
    look (exec .findMatch { encoding (abcd ++ abcd ++ abcd ++ abcd) with ip := 4, ht := [(1584, [0])] })
      (fun t => (t.ret, t.off, t.mlen, t.ht)) = some (.bit true, 4#16, 7, [(1584, [4])]) := by decide

/-- K15: "aahk" meets the candidate of "abcd" in its bucket, takes the bucket, and is no match. -/
theorem test_findMatch_collision :
    look (exec .findMatch { encoding (abcd ++ [0x61#8, 0x61#8, 0x68#8, 0x6B#8] ++ abcd) with ip := 4, ht := [(1584, [0])] })
      (fun t => (t.ret, t.mlen, t.ht)) = some (.bit false, 0, [(1584, [4])]) := by decide

/-- 2B: `EMIT_SEQ("ab", 256, 18)`. -/
theorem test_emitSeq : look (exec (.emitSeq 0 2 256#16 18) (encoding abcd)) (fun t => t.outRun 0 t.op) =
    some [0x2E#8, 0x61#8, 0x62#8, 0x00#8, 0x01#8] := by decide

/-- 2B: `EMIT_SEQ([], 4, 274)`. -/
theorem test_emitSeq_extended : look (exec (.emitSeq 2 2 4#16 274) (encoding abcd)) (fun t => t.outRun 0 t.op) =
    some [0x0F#8, 0x04#8, 0x00#8, 0xFF#8, 0x00#8] := by decide

/-- 2B: `EMIT_LAST` of the last literals, and of fifteen. -/
theorem test_emitLast :
    look (exec (.emitLast 2) (encoding abcd)) (fun t => t.outRun 0 t.op) = some [0x20#8, 0x63#8, 0x64#8] ∧
    look (exec (.emitLast 0) (encoding (List.replicate 15 0x41#8))) (fun t => t.outRun 0 t.op) =
      some (0xF0#8 :: 0x00#8 :: List.replicate 15 0x41#8) := by decide

/-- P1, step 1; E1. -/
theorem test_fetchToken : look (exec .fetchToken (decoding .fetchToken .operation streamP1 9)) (fun t => (t.tok, t.ip)) =
      some (0x11#8, 1) ∧
    raised (exec .fetchToken (decoding .fetchToken .operation [] 9)) = some (.error, some .truncatedInput, 0) := by decide

/-- P2, step 2. -/
theorem test_readLitlen :
    look (exec .readLitlen { decoding .readLitlen .operation [0xFF#8, 0x05#8, 0x30#8] 100 with tok := 0xFF#8, ip := 1 })
      (fun t => (t.litlen, t.ip)) = some (20, 2) := by decide

/-- L4: 15 exceeds 14 before the missing byte is noticed. -/
theorem test_readLitlen_overflow :
    raised (exec .readLitlen { decoding .readLitlen .operation [0xF0#8] 14 with tok := 0xF0#8, ip := 1 }) =
      some (.error, some .lengthOverflow, 0) := by decide

/-- P1, steps 4 and 11. -/
theorem test_endTest :
    look (exec .endTest { decoding .endTest .operation streamP1 9 with ip := 2 }) (fun t => t.ret) = some (.bit false) ∧
    look (exec .endTest { decoding .endTest .operation streamP1 9 with ip := 10 }) (fun t => t.ret) = some (.bit true) := by
  decide

/-- P1, step 5. -/
theorem test_readOffset :
    look (exec .readOffset (produced { decoding .readOffset .operation streamP1 9 with ip := 2 } [0x61#8]))
      (fun t => (t.off, t.ip)) = some (1#16, 4) := by decide

/-- E7: one byte of two. -/
theorem test_readOffset_truncated :
    raised (exec .readOffset (produced { decoding .readOffset .operation [0x10#8, 0x61#8, 0x01#8] 9 with ip := 2 } [0x61#8])) =
      some (.error, some .truncatedInput, 0) := by decide

/-- P5, step 4 at both limits. -/
theorem test_readMatchlen :
    look (exec .readMatchlen
      (produced { decoding .readMatchlen .operation [0x1F#8, 0x61#8, 0x01#8, 0x00#8, 0x00#8, 0x00#8] 20 with
        tok := 0x1F#8, ip := 4 } [0x61#8])) (fun t => (t.mlen, t.ip)) = some (19, 5) ∧
    look (exec .readMatchlen
      (produced { decoding .readMatchlen .operation [0x1F#8, 0x61#8, 0x01#8, 0x00#8, 0x00#8, 0x00#8] 16 with
        tok := 0x1F#8, ip := 4 } [0x61#8])) (fun t => (t.err, t.ip)) = some (some .lengthOverflow, 4) := by decide

/-- P1, steps 1 to 7, and the tuple of R205. -/
theorem test_parseSequence : look (exec .parseSequence (decoding .sequence .operation streamP1 100))
    (fun t => (t.ip, t.op, t.ret)) = some (4, 6, .tuple [0x61#8] (some (1#16, 5))) := by decide

/-- E12: one byte where an offset must be. -/
theorem test_parseSequence_truncated : raised (exec .parseSequence (decoding .sequence .operation [0x00#8, 0x00#8] 100)) =
    some (.error, some .truncatedInput, 0) := by decide

/-- P1, step 3. -/
theorem test_copyLiterals :
    look (exec .copyLiterals { decoding .copyLiterals .operation streamP1 100 with ip := 1, litlen := 1 })
      (fun t => (t.ip, t.op, t.outRun 0 1)) = some (2, 1, [0x61#8]) := by decide

/-- E3: two wanted, one left, none copied. -/
theorem test_copyLiterals_truncated :
    look (exec .copyLiterals { decoding .copyLiterals .operation [0x20#8, 0x61#8] 100 with ip := 1, litlen := 2 })
      (fun t => (t.err, t.op, t.ip)) = some (some .truncatedInput, 0, 1) := by decide

/-- P3, step 12: source 5 copies c, a, d and the c just written. -/
theorem test_copyMatch :
    look (exec .copyMatch { produced (decoding .copyMatch .operation [] 100)
      [0x61#8, 0x62#8, 0x63#8, 0x61#8, 0x62#8, 0x63#8, 0x61#8, 0x64#8] with off := 3#16, mlen := 4 })
      (fun t => (t.op, t.outRun 8 4)) = some (12, [0x63#8, 0x61#8, 0x64#8, 0x63#8]) := by decide

/-- The host's turn comes first, and an engine at rest does nothing (R311). -/
theorem test_step_host : look (step { holding [] with host := [.write .inLen 12] }) (fun t => (t.inLen, t.host)) =
    some (12, []) := by decide

/-- A word of the opcode table is what the very next step runs: the command starts, the offset and the sequence raise
`InvalidOffset` over an empty output (E15). -/
theorem test_withFetchWord :
    look (step (State.reset.withFetchWord 2 1)) (fun t => (t.status, t.ctl)) = some (.busy, .scan) ∧
    raised (step (State.reset.withFetchWord 8 0x0F)) = some (.error, some .invalidOffset, 0) ∧
    look (step (State.reset.withFetchWord 16 0x0100)) (fun t => (t.off, t.err)) = some (0x0100#16, some .invalidOffset) := by
  decide

/-! ### Witnesses: states and operands that meet the hypotheses of the obligations, clause by clause, at the boundaries

`MAX_SIZE` is 100 in these states, so `MAX_CSIZE` is 116 and `POS_W` is 7. -/

/-- The stream at the cursor, checked by evaluation. -/
theorem streamAt_of {s : State} {bs : List Byte}
    (h : decide (s.ip ≤ s.nreg ∧ s.nreg ≤ maxCsize s.cfg ∧ s.inRun s.ip (s.nreg - s.ip) = bs) = true) : StreamAt s bs := by
  have h := of_decide_eq_true h
  exact h

theorem loaded_of {s : State} {bs : List Byte} (h : decide (s.inLen = bs.length ∧ s.inRun 0 bs.length = bs) = true) :
    Loaded s bs := by
  have h := of_decide_eq_true h
  exact h

theorem ready_of {s : State} (h : decide (s.status ≠ .busy ∧ (s.host = [] ∨ s.host = [.wait])) = true) : Ready s := by
  have h := of_decide_eq_true h
  exact h

theorem tableBelow_of {s : State} {n : Nat} (h : decide (∀ p ∈ s.ht, ∀ c ∈ p.2, c < n) = true) : TableBelow s n := by
  intro b c hc
  rw [State.bucket] at hc
  cases hr : Cells.read s.ht b with
  | none => rw [hr] at hc; cases hc
  | some e => rw [hr] at hc; exact of_decide_eq_true h _ (Cells.mem_of_read hr) c hc

/-- Whether a state is the end of an operation with this answer. -/
def ended (t : State) : Except ErrKind (List Byte) → Bool
  | .ok bs => decide (t.status = .done ∧ t.err = none ∧ t.outLen = bs.length ∧ t.outRun 0 t.outLen = bs)
  | .error e => decide (t.status = .error ∧ t.err = some e ∧ t.outLen = 0)

/-- An answer, checked by running the machine `n` steps. -/
theorem answers_of (n : Nat) {i : Instr} {s : State} {r : Except ErrKind (List Byte)}
    (h : (match exec i s with
      | .next t => (match steps n t with | .next u => ended u r | .fault _ => false | .refused _ => false)
      | .fault _ => false
      | .refused _ => false) = true) : Answers i s r := by
  split at h
  · rename_i t ht
    split at h
    · rename_i u hu
      refine ⟨t, u, ht, ⟨n, hu⟩, ?_⟩
      cases r <;> (have h := of_decide_eq_true h; exact h)
    all_goals cases h
  all_goals cases h

/-- An idle machine before a host's move. -/
def before (m : HostMove) : State := { holding abcd with host := [m] }

/-- A busy machine before a host's move. -/
def busyBefore (m : HostMove) : State := { decoding .sequence .sequence streamP1 100 with host := [m] }

theorem witness_ResetSetsHostRegisters : (busyBefore .reset).host = .reset :: [] ∧ (holding abcd).status ≠ .busy ∧
    (holding abcd).host = [] ∧ (before .wait).status ≠ .busy ∧ (before .wait).host = .wait :: [] := by decide

theorem witness_NopChangesNothing : (before (.write .cmd 0)).host = .write .cmd 0 :: [] := rfl

theorem witness_StartEventOfCommands_legal :
    (holding []).status ≠ .busy ∧
    (∃ s : State, s.status ≠ .busy ∧ s.inLen = 100 ∧ s.outLimit = 100 ∧ s.inLen ≤ s.cfg.maxSize ∧ s.outLimit ≤ s.cfg.maxSize) ∧
    (∃ s : State, s.status ≠ .busy ∧ s.inLen = 116 ∧ s.inLen ≤ maxCsize s.cfg ∧ s.outLimit ≤ s.cfg.maxSize) :=
  ⟨by decide, ⟨{ holding [] with inLen := 100 }, by decide⟩, ⟨{ holding [] with inLen := 116 }, by decide⟩⟩

theorem witness_StartEventOfCommands_illegal :
    (∃ s : State, s.status ≠ .busy ∧ ¬ (s.inLen ≤ s.cfg.maxSize ∧ s.outLimit ≤ s.cfg.maxSize)) ∧
    (∃ s : State, s.status ≠ .busy ∧ ¬ (s.inLen ≤ maxCsize s.cfg ∧ s.outLimit ≤ s.cfg.maxSize)) :=
  ⟨⟨{ holding [] with inLen := 101 }, by decide⟩, ⟨{ holding [] with inLen := 117 }, by decide⟩⟩

theorem witness_CommandWhileBusyIgnored :
    (busyBefore (.write .cmd 3)).status = .busy ∧ (busyBefore (.write .cmd 3)).host = .write .cmd 3 :: [] := ⟨rfl, rfl⟩

theorem witness_HostRegisterAccess :
    (before (.write .inLen 127)).status ≠ .busy ∧ 127 < 2 ^ posW (before (.write .inLen 127)).cfg ∧
    (before (.write .inLen 127)).host = .write .inLen 127 :: [] ∧
    (before (.write .outLimit 127)).host = .write .outLimit 127 :: [] ∧
    (before (.write .sizeHint 127)).host = .write .sizeHint 127 :: [] ∧
    (before (.write .outLen 5)).host = .write .outLen 5 :: [] ∧ (before (.read .err)).host = .read .err :: [] := by decide

theorem witness_HostAccessWhileBusyRefused :
    (busyBefore (.read .status)).status = .busy ∧ (busyBefore (.read .status)).host = .read .status :: [] ∧
    (busyBefore (.read .err)).host = .read .err :: [] ∧ (busyBefore (.write .inLen 0)).host = .write .inLen 0 :: [] ∧
    (busyBefore (.writeIn 0 0#8)).host = .writeIn 0 0#8 :: [] ∧ (busyBefore (.readOut 0)).host = .readOut 0 :: [] := by decide

theorem witness_HostWritesInputReadsResult :
    (before (.writeIn 115 7#8)).status ≠ .busy ∧ 115 < maxCsize (before (.writeIn 115 7#8)).cfg ∧
    (before (.writeIn 115 7#8)).host = .writeIn 115 7#8 :: [] ∧
    (∃ s : State, s.host = .readOut 0 :: [] ∧ s.status = .done ∧ 0 < s.outLen) ∧
    (∃ s : State, s.host = .readOut 1 :: [] ∧ s.status ≠ .busy ∧ ¬ (s.status = .done ∧ 1 < s.outLen)) :=
  ⟨by decide, by decide, rfl, ⟨{ before (.readOut 0) with status := .done, outLen := 1 }, by decide⟩,
    ⟨{ before (.readOut 1) with status := .done, outLen := 1 }, by decide⟩⟩

theorem witness_ResultPersists :
    (∃ s t : State, s.status = .done ∧ s.outLen = 1 ∧ (∀ v rest, s.host = .write .cmd v :: rest → v = 0) ∧
      (∀ rest, s.host ≠ .reset :: rest) ∧ step s = .next t) ∧
    (∃ s t : State, s.status = .error ∧ (∀ v rest, s.host = .write .cmd v :: rest → v = 0) ∧
      (∀ rest, s.host ≠ .reset :: rest) ∧ step s = .next t) :=
  ⟨⟨{ before (.write .cmd 0) with status := .done, outLen := 1 }, _, rfl, rfl, fun v rest h => by cases h; rfl, nofun, rfl⟩,
    ⟨{ before .wait with status := .error, err := some .truncatedInput }, _, rfl, nofun, nofun, rfl⟩⟩

theorem witness_EncodeLengthAppends : 14 < 15 ∧
    ∃ s : State, 15 ≤ 15 ∧ s.op + (15 - 15) / 255 + 1 = maxCsize s.cfg :=
  ⟨by decide, { encoding [] with op := 115 }, by decide⟩

theorem witness_DecodeLengthRoundTrip :
    ∃ s : State, 280 + 4 ≤ 284 ∧ StreamAt s (extBytes 280 ++ [0x50#8]) :=
  ⟨decoding .readLitlen .operation [0xFF#8, 0x0A#8, 0x50#8] 9, by decide, streamAt_of (by decide)⟩

theorem witness_DecodeLengthCases :
    StreamAt (holding []) [] ∧ 14 < (15#4).toNat + 0 ∧ (14#4).toNat + 0 ≤ 14 ∧ (14#4).toNat < 15 ∧ (15#4).toNat = 15 ∧
    (∃ s : State, StreamAt s (List.replicate 1 255#8 ++ 0x0A#8 :: []) ∧ 0x0A#8 ≠ 255#8 ∧ 15 + 255 * 1 + (0x0A#8).toNat + 0 ≤ 280) ∧
    (∃ s : State, StreamAt s (List.replicate 3 255#8) ∧ 15 + 255 * 3 + 0 ≤ 780) ∧
    (∃ s : State, StreamAt s (List.replicate 0 255#8 ++ 0x01#8 :: []) ∧ 15 + 255 * 0 + 0 ≤ 15 ∧ 15 < 15 + 255 * 0 + (0x01#8).toNat + 0) :=
  ⟨streamAt_of (by decide), by decide, by decide, by decide, by decide,
    ⟨decoding .readLitlen .operation [0xFF#8, 0x0A#8] 9, streamAt_of (by decide), by decide, by decide⟩,
    ⟨decoding .readLitlen .operation [0xFF#8, 0xFF#8, 0xFF#8] 9, streamAt_of (by decide), by decide⟩,
    ⟨decoding .readLitlen .operation [0x01#8] 9, streamAt_of (by decide), by decide, by decide⟩⟩

theorem witness_LengthSpellingUnique : 15 ≤ 15 ∧ 254#8 ≠ 255#8 := by decide

theorem witness_HashFourValue : State.reset.cfg.hashMult = 2654435761#32 ∧ State.reset.cfg.hashLog = 12 ∧
    State.reset.cfg.hashExceptions = [] ∧ (∃ s : State, s.cfg.ok ∧ s.cfg.hashLog = 32) ∧
    (small.ok ∧ ∃ f : Word → Nat, ∀ v, f v < 2 ^ small.hashLog) :=
  ⟨rfl, rfl, rfl, ⟨State.resetIn { small with hashLog := 32 }, by decide⟩, by decide, fun _ => 4095, fun _ => show 4095 < 2 ^ 12 by decide⟩

theorem witness_LookupThenInsert : 4095 < 2 ^ State.reset.cfg.hashLog ∧ State.reset.cfg.candidateDepth = 1 := by decide

theorem witness_VerifyComparesFourBytes :
    0 < 1 ∧ 1 + 4 = (encoding [0#8, 0#8, 0#8, 0#8, 0#8]).nreg ∧
    (encoding [0#8, 0#8, 0#8, 0#8, 0#8]).nreg ≤ maxCsize (encoding [0#8, 0#8, 0#8, 0#8, 0#8]).cfg := by decide

theorem witness_ExtendIsMaximal : 0 < 1 ∧ (encoding (List.replicate 13 0#8)).nreg ≤ maxCsize (encoding (List.replicate 13 0#8)).cfg ∧
    1 + 9 ≤ (encoding (List.replicate 13 0#8)).nreg ∧ (encoding (List.replicate 13 0#8)).nreg < 5 + 9 := by decide

theorem witness_SelIsMinimumWithFifteen : IsSeq (.seqXM abcd 4#16 19) abcd 4#16 19 := rfl

/-- `CANDIDATE_DEPTH` 2 (R149), by hand: the newer candidate 6 matches "abcd", the older 0 matches "abcdab", which is longer. -/
theorem test_candidateDepth :
    look (exec .findMatch { encoding (abcd ++ [0x61#8, 0x62#8] ++ abcd ++ [0x63#8, 0x63#8] ++ abcd ++ [0x61#8] ++ List.replicate 7 0x62#8) with
        cfg := { small with candidateDepth := 2 }, ip := 12, ht := [(1584, [6, 0])] })
      (fun t => (t.ret, t.off, t.mlen, t.ht)) = some (.bit true, 12#16, 6, [(1584, [12, 6])]) := by decide

/-- `LAZY` (R148), by hand: "bcdab" at the next position is longer than four, and not longer than five. -/
def atLookahead : State :=
  { encoding ([0x62#8, 0x63#8, 0x64#8, 0x61#8, 0x62#8, 0x78#8] ++ abcd ++ [0x61#8, 0x62#8] ++ List.replicate 7 0x79#8) with
    cfg := { small with lazy := true }, ctl := .lookahead, ip := 6, off := 3#16, mlen := 4, ht := [(2551, [0])] }

theorem test_lazy :
    look (step atLookahead) (fun t => (t.ip, t.off, t.mlen, t.ctl)) = some (7, 7#16, 5, .lookahead) ∧
    look (step { atLookahead with mlen := 5 }) (fun t => (t.ip, t.off, t.mlen, t.ctl)) = some (6, 3#16, 5, .emit) := by decide

/-- `BACKWARD_EXTEND` (R150), by hand: the "x" before the match is before its source too. -/
def atBackward : State :=
  { encoding ([0x78#8] ++ abcd ++ [0x78#8] ++ abcd ++ abcd ++ abcd) with
    cfg := { small with backwardExtend := true }, ctl := .emit, ip := 6, off := 5#16, mlen := 4 }

theorem test_backwardExtend : look (step atBackward) (fun t => (t.ip, t.anchor, t.outRun 0 t.op)) =
    some (10, 10, [0x51#8, 0x78#8, 0x61#8, 0x62#8, 0x63#8, 0x64#8, 0x05#8, 0x00#8]) := by decide

/-- `INSERT_INSIDE_MATCH` (R150), with the buckets of R154: positions 5, 6 and 7 of "abcdabcd...". -/
theorem test_insertInsideMatch :
    look (step { encoding (abcd ++ abcd ++ abcd ++ abcd ++ abcd ++ abcd) with
        cfg := { small with insertInsideMatch := true }, ctl := .emit, ip := 4, off := 4#16, mlen := 4, ht := [(1584, [4])] })
      (fun t => (t.ip, t.ht)) = some (8, [(1584, [4]), (2551, [5]), (2960, [6]), (3512, [7])]) := by decide

/-- `EMPTY_OUTPUT` (R177, D8): the token of R7, and the other choice D8 quotes. -/
theorem test_emptyOutput :
    look (step (encoding [])) (fun t => (t.status, t.outLen, t.outRun 0 1)) = some (.done, 1, [0x00#8]) ∧
    look (step { encoding [] with cfg := { small with emptyOutput := [] } }) (fun t => (t.status, t.outLen)) =
      some (.done, 0) := by decide

/-- `HASH4` of another hardware (D3): one value goes to another bucket. -/
theorem test_hashExceptions :
    look (exec (.hash4 1#32) { encoding [] with cfg := { small with hashExceptions := [(1, 5)] } }) (fun t => t.ret) =
      some (.num 5) ∧
    look (exec (.hash4 0x64636261#32) { encoding [] with cfg := { small with hashExceptions := [(1, 5)] } }) (fun t => t.ret) =
      some (.num 1584) := by decide

/-- K10 where the finder finds. -/
def atMatch : State := { encoding (abcd ++ abcd ++ abcd ++ abcd) with ip := 4, ht := [(1584, [0])] }

theorem witness_FindMatchReports : atMatch.cfg.ok ∧ atMatch.ip + atMatch.cfg.mflimit = atMatch.nreg ∧
    atMatch.nreg ≤ maxCsize atMatch.cfg ∧ TableBelow atMatch atMatch.ip :=
  ⟨by decide, by decide, by decide, tableBelow_of (by decide)⟩

theorem witness_FindMatchSoundForAnyHash : ∃ (hash : Word → Nat) (s t : State), TableBelow s s.ip ∧ s.ip + 9 ≤ s.nreg ∧
    findMatchWith hash s = .ok true t :=
  ⟨fun _ => 7, { atMatch with ht := [(7, [0])] }, _, tableBelow_of (by decide), by decide, rfl⟩

theorem witness_EmitSeqAppends : ∃ s : State, 0 ≤ 2 ∧ 4 ≤ 18 ∧ 2 ≤ s.nreg ∧ s.nreg ≤ maxCsize s.cfg ∧
    s.op + 3 + extSize (2 - 0) + (2 - 0) + extSize (18 - 4) = maxCsize s.cfg :=
  ⟨{ encoding abcd with op := 111 }, by decide⟩

theorem witness_EmitLastAppends : ∃ s : State, 0 ≤ s.nreg ∧ s.nreg ≤ maxCsize s.cfg ∧
    s.op + 1 + extSize (s.nreg - 0) + (s.nreg - 0) = maxCsize s.cfg :=
  ⟨{ encoding abcd with op := 111 }, by decide⟩

theorem witness_FetchTokenReadsByte : StreamAt (decoding .fetchToken .operation streamP1 9) (0x11#8 :: streamP1.tail) ∧
    StreamAt (decoding .fetchToken .operation [] 9) [] := ⟨streamAt_of (by decide), streamAt_of (by decide)⟩

/-- A stream of one extension byte, with a token. -/
def atLength (lim : Nat) : State := { decoding .readLitlen .operation [0x05#8] lim with tok := 0xFF#8 }

theorem witness_LengthReadsFollowTheToken :
    StreamAt (atLength 20) (extBytes 20 ++ []) ∧ (atLength 20).tok.toNat / 16 = min 20 15 ∧
    (atLength 20).tok.toNat % 16 = min 20 15 ∧ 20 ≤ (atLength 20).lim - (atLength 20).op ∧
    (atLength 19).lim - (atLength 19).op < 20 ∧ 20 + 4 ≤ (atLength 24).lim - (atLength 24).op ∧
    (atLength 23).lim - (atLength 23).op < 20 + 4 :=
  ⟨streamAt_of (by decide), by decide⟩

/-- Two bytes of offset before a decoder that has produced four bytes. -/
def atOffset (bs : List Byte) : State := produced (decoding .readOffset .operation bs 9) abcd

theorem witness_ReadOffsetChecks :
    StreamAt (atOffset [0x04#8, 0x00#8]) (0x04#8 :: 0x00#8 :: []) ∧ 1 ≤ 4 ∧ 4 ≤ (atOffset []).op ∧
    StreamAt (atOffset [0x00#8, 0x00#8]) (0x00#8 :: 0x00#8 :: []) ∧
    StreamAt (atOffset [0x05#8, 0x00#8]) (0x05#8 :: 0x00#8 :: []) ∧ (atOffset []).op < 5 ∧
    StreamAt (atOffset [0x05#8]) [0x05#8] ∧ StreamAt (atOffset []) [] :=
  ⟨streamAt_of (by decide), by decide, by decide, streamAt_of (by decide), streamAt_of (by decide), by decide,
    streamAt_of (by decide), streamAt_of (by decide)⟩

theorem witness_EndTestComparesCursor : (holding []).ip = (holding []).nreg ∧ (encoding abcd).ip ≠ (encoding abcd).nreg := by
  decide

theorem witness_CopyLiteralsAllOrNothing :
    (∃ s : State, StreamAt s (abcd ++ []) ∧ abcd.length = s.litlen ∧ s.op + s.litlen = maxCsize s.cfg) ∧
    (∃ s : State, StreamAt s abcd ∧ abcd.length < s.litlen) :=
  ⟨⟨{ decoding .copyLiterals .operation abcd 9 with litlen := 4, op := 112 }, streamAt_of (by decide), by decide, by decide⟩,
    ⟨{ decoding .copyLiterals .operation abcd 9 with litlen := 5 }, streamAt_of (by decide), by decide⟩⟩

theorem witness_CopyMatchPeriodic : ∃ s : State, 1 ≤ s.off.toNat ∧ s.off.toNat = s.op ∧ s.op + s.mlen = maxCsize s.cfg :=
  ⟨{ produced (decoding .copyMatch .operation [] 100) abcd with off := 4#16, mlen := 112 }, by decide⟩

theorem witness_ParseSequenceRunsTheDecoded : StreamAt (decoding .sequence .sequence streamP1 100) streamP1 ∧
    decodeSequence streamP1 = .ok (.seq [0x61#8] 1#16 5, streamP1.drop 4) := ⟨streamAt_of (by decide), rfl⟩

theorem witness_ParseSequenceDelivers :
    (∃ s : State, StreamAt s (sequenceBytes [0x61#8] 1#16 5 ++ [0x00#8]) ∧ s.op + [0x61#8].length ≤ s.lim ∧
      s.lim ≤ s.cfg.maxSize ∧ 4 ≤ 5 ∧ 1 ≤ (1#16).toNat ∧ (1#16).toNat = s.op + [0x61#8].length ∧
      s.op + [0x61#8].length + 5 = s.lim) ∧
    (∃ s : State, StreamAt s (finalBytes 3#4 abcd) ∧ s.op + abcd.length = s.lim ∧ s.lim ≤ s.cfg.maxSize) :=
  ⟨⟨decoding .sequence .sequence [0x11#8, 0x61#8, 0x01#8, 0x00#8, 0x00#8] 6, streamAt_of (by decide), by decide⟩,
    ⟨decoding .sequence .sequence (0x43#8 :: abcd) 4, streamAt_of (by decide), by decide⟩⟩

theorem witness_SequenceAppendsLiteralsAndMatch : ∃ s : State, IsSeq (.seq abcd 4#16 7) abcd 4#16 7 ∧ 4 ≤ 7 ∧
    abcd.length ≤ s.lim - s.op ∧ 1 ≤ (4#16).toNat ∧ (4#16).toNat = s.op + abcd.length ∧
    7 = s.lim - (s.op + abcd.length) ∧ s.op + abcd.length + 7 ≤ maxCsize s.cfg :=
  ⟨decoding .sequence .sequence [] 11, rfl, by decide⟩

theorem witness_FinalSequenceEndsWithSuccess : ∃ s : State, IsLast (.last 3#4 abcd) 3#4 abcd ∧ abcd.length = s.lim - s.op ∧
    s.op + abcd.length ≤ maxCsize s.cfg := ⟨decoding .sequence .sequence [] 4, rfl, by decide⟩

theorem witness_SequenceErrorsInOrder : ∃ s : Nat → State, (∀ n, (s n).op + abcd.length ≤ maxCsize (s n).cfg) ∧
    IsSeq (.seq abcd 4#16 7) abcd 4#16 7 ∧ IsSeq (.seq abcd 5#16 7) abcd 5#16 7 ∧ IsSeq (.seq abcd 0#16 7) abcd 0#16 7 ∧
    IsLast (.last 0#4 abcd) 0#4 abcd ∧ (s 3).lim - (s 3).op < abcd.length ∧ abcd.length ≤ (s 4).lim - (s 4).op ∧
    (s 4).op + abcd.length < (5#16).toNat ∧ (4#16).toNat ≤ (s 10).op + abcd.length ∧ 4 ≤ 7 ∧
    (s 10).lim - ((s 10).op + abcd.length) < 7 :=
  ⟨decoding .sequence .sequence [], fun _ => (by decide : 0 + 4 ≤ maxCsize small), rfl, rfl, rfl, rfl, by decide⟩

theorem witness_ElementsOfTheStream :
    (∃ s : State, (s.lenAcc + (255#8).toNat) + s.lenBias = s.lim - s.op) ∧
    (∃ s : State, s.lim - s.op < (s.lenAcc + (1#8).toNat) + s.lenBias) ∧
    (∃ s : State, s.op + 1 = maxCsize s.cfg) ∧
    (∃ s : State, 1 ≤ (4#16).toNat ∧ (4#16).toNat = s.op ∧ s.op < (5#16).toNat ∧ (0#16).toNat = 0) :=
  ⟨⟨{ decoding .litExt .field [] 270 with lenAcc := 15 }, by decide⟩, ⟨{ decoding .matchExt .field [] 19 with lenAcc := 15, lenBias := 4 }, by decide⟩,
    ⟨{ decoding (.literals 1) .field [] 100 with op := 115 }, by decide⟩, ⟨atOffset [], by decide⟩⟩

theorem witness_ErrorPriority :
    -- L3
    (∃ s : State, litSel 0x50#8 = selOf 5 ∧ StreamAt s (0x50#8 :: (extBytes 5 ++ [0x61#8])) ∧ s.lim - s.op < 5 ∧
      [0x61#8].length < 5) ∧
    -- L4
    (∃ s : State, litSel 0xF0#8 = 15 ∧ StreamAt s [0xF0#8] ∧ s.lim - s.op < 15) ∧
    -- E17
    (∃ s : State, litSel 0x0F#8 = selOf ([] : List Byte).length ∧ ([] : List Byte).length ≤ s.lim - s.op ∧
      s.op + ([] : List Byte).length ≤ maxCsize s.cfg ∧
      StreamAt s (0x0F#8 :: (extBytes ([] : List Byte).length ++ [] ++ 0x01#8 :: 0x00#8 :: [])) ∧
      s.op + ([] : List Byte).length < (0x01#8).toNat + 256 * (0x00#8).toNat) ∧
    -- E12
    (∃ s : State, litSel 0x00#8 = selOf ([] : List Byte).length ∧
      StreamAt s (0x00#8 :: (extBytes ([] : List Byte).length ++ [] ++ [0x00#8]))) :=
  ⟨⟨decoding .sequence .sequence [0x50#8, 0x61#8] 4, by decide, streamAt_of (by decide), by decide, by decide⟩,
    ⟨decoding .sequence .sequence [0xF0#8] 14, by decide, streamAt_of (by decide), by decide⟩,
    ⟨decoding .sequence .sequence [0x0F#8, 0x01#8, 0x00#8] 9, by decide, by decide, by decide, streamAt_of (by decide), by decide⟩,
    ⟨decoding .sequence .sequence [0x00#8, 0x00#8] 9, by decide, streamAt_of (by decide)⟩⟩

theorem witness_ErrorPriority_chains :
    -- L6 and its truncated neighbour
    (∃ s : State, litSel 0xF0#8 = 15 ∧ StreamAt s (0xF0#8 :: List.replicate 1 255#8) ∧ s.lim - s.op < 15 + 255 * 1) ∧
    (∃ s : State, litSel 0xF0#8 = 15 ∧ StreamAt s (0xF0#8 :: List.replicate 0 255#8) ∧ 15 + 255 * 0 = s.lim - s.op) ∧
    -- L14, E9
    (∃ s : State, litSel 0x1F#8 = selOf [0x61#8].length ∧ matchSel 0x1F#8 = 15 ∧ [0x61#8].length ≤ s.lim - s.op ∧
      s.op + [0x61#8].length ≤ maxCsize s.cfg ∧
      StreamAt s (0x1F#8 :: (extBytes [0x61#8].length ++ [0x61#8] ++ 0x01#8 :: 0x00#8 :: List.replicate 0 255#8)) ∧
      1 ≤ (0x01#8).toNat + 256 * (0x00#8).toNat ∧ (0x01#8).toNat + 256 * (0x00#8).toNat = s.op + [0x61#8].length ∧
      s.lim - (s.op + [0x61#8].length) < 15 + 255 * 0 + 4) ∧
    (∃ s : State, StreamAt s (0x1F#8 :: (extBytes [0x61#8].length ++ [0x61#8] ++ 0x01#8 :: 0x00#8 :: List.replicate 0 255#8)) ∧
      15 + 255 * 0 + 4 = s.lim - (s.op + [0x61#8].length)) :=
  ⟨⟨decoding .sequence .sequence [0xF0#8, 0xFF#8] 16, by decide, streamAt_of (by decide), by decide⟩,
    ⟨decoding .sequence .sequence [0xF0#8] 15, by decide, streamAt_of (by decide), by decide⟩,
    ⟨decoding .sequence .sequence [0x1F#8, 0x61#8, 0x01#8, 0x00#8] 16, by decide, by decide, by decide, by decide,
      streamAt_of (by decide), by decide⟩,
    ⟨decoding .sequence .sequence [0x1F#8, 0x61#8, 0x01#8, 0x00#8] 20, streamAt_of (by decide), by decide⟩⟩

theorem witness_DecodeOfEncode :
    (wellFormed (.seqXM [] 4#16 274) = true ∧ encode (.seqXM [] 4#16 274) = some [0x0F#8, 0x04#8, 0x00#8, 0xFF#8, 0x00#8] ∧
      lastFields (.seqXM [] 4#16 274) = none) ∧
    (wellFormed (.last 3#4 abcd) = true ∧ encode (.last 3#4 abcd) = some (0x43#8 :: abcd) ∧
      (lastFields (.last 3#4 abcd) ≠ none → ([] : List Byte) = [])) := by decide

theorem witness_EncodeOfDecode : decode .sequence streamP1 = .ok (.seq [0x61#8] 1#16 5, streamP1.drop 4) := rfl

theorem witness_SequenceLengthInBytes : (∃ bs, encode (.seq abcd 4#16 7) = some bs) ∧ IsSeq (.seq abcd 4#16 7) abcd 4#16 7 ∧
    (∃ bs, encode (.last 0#4 abcd) = some bs) ∧ IsLast (.last 0#4 abcd) 0#4 abcd := ⟨⟨_, rfl⟩, rfl, ⟨_, rfl⟩, rfl⟩

theorem witness_StepRunsDecodedInstruction :
    ((before (.write .cmd 3)).host = .write .cmd 3 :: [] ∧ (3#8).toNat = 3 ∧ decode .command [3#8] = .ok (.decompressInto, [])) ∧
    (∃ s : State, s.status = .busy ∧ s.host = [] ∧ StreamAt s streamP1 ∧ s.ctl = .sequence ∧
      ∃ i rest, decode .sequence streamP1 = .ok (i, rest)) ∧
    (∃ s : State, s.status = .busy ∧ (∃ h, s.host = .wait :: h) ∧ StreamAt s [0x00#8, 0x00#8] ∧ s.ctl = .sequence ∧
      ∃ e, decode .sequence [0x00#8, 0x00#8] = .error e) :=
  ⟨⟨rfl, rfl, rfl⟩,
    ⟨decoding .sequence .sequence streamP1 100, rfl, rfl, streamAt_of (by decide), rfl, _, _, rfl⟩,
    ⟨{ decoding .sequence .sequence [0x00#8, 0x00#8] 100 with host := [.wait] }, rfl, ⟨[], rfl⟩, streamAt_of (by decide), rfl, _, rfl⟩⟩

theorem witness_StepRunsDecodedInstruction_fields :
    (∃ s : State, s.status = .busy ∧ s.host = [] ∧ StreamAt s [0x05#8] ∧ s.ctl = .litExt ∧
      decode .lenext [0x05#8] = .ok (.lenextEnd 5#8, [])) ∧
    (∃ s : State, s.status = .busy ∧ s.host = [] ∧ StreamAt s [0xFF#8] ∧ s.ctl = .matchExt ∧
      decode .lenext [0xFF#8] = .ok (.lenextCont, [])) ∧
    (∃ s : State, s.status = .busy ∧ s.host = [] ∧ StreamAt s [0x05#8] ∧ s.ctl = .literals (0 + 1) ∧
      decode .literal [0x05#8] = .ok (.literal 5#8, [])) ∧
    (∃ s : State, s.status = .busy ∧ s.host = [] ∧ StreamAt s [0x05#8, 0x00#8] ∧ s.ctl = .readOffset ∧ s.grain = .field ∧
      decode .offset [0x05#8, 0x00#8] = .ok (.offset 5#16, [])) :=
  ⟨⟨decoding .litExt .field [0x05#8] 9, rfl, rfl, streamAt_of (by decide), rfl, rfl⟩,
    ⟨decoding .matchExt .field [0xFF#8] 9, rfl, rfl, streamAt_of (by decide), rfl, rfl⟩,
    ⟨decoding (.literals 1) .field [0x05#8] 9, rfl, rfl, streamAt_of (by decide), rfl, rfl⟩,
    ⟨decoding .readOffset .field [0x05#8, 0x00#8] 9, rfl, rfl, streamAt_of (by decide), rfl, rfl, rfl⟩⟩

theorem witness_StepRunsSequencerLine_compress :
    (∃ t, atMatch.status = .busy ∧ HostIdle atMatch ∧ atMatch.ctl = .scan ∧ atMatch.ip + atMatch.cfg.mflimit ≤ atMatch.nreg ∧
      exec .findMatch atMatch = .next t ∧ t.status = .busy) ∧
    (∃ s t : State, s.status = .busy ∧ HostIdle s ∧ s.ctl = .scan ∧ s.nreg < s.ip + s.cfg.mflimit ∧ s.nreg ≠ 0 ∧
      exec (.emitLast s.anchor) s = .next t ∧ t.status = .busy) ∧
    (∃ s : State, s.status = .busy ∧ HostIdle s ∧ s.ctl = .scan ∧ s.nreg < s.ip + s.cfg.mflimit ∧ s.nreg = 0 ∧
      s.op + s.cfg.emptyOutput.length ≤ maxCsize s.cfg) ∧
    (∃ s : State, s.status = .busy ∧ HostIdle s ∧ s.ctl = .lookahead ∧ s.nreg < s.ip + 1 + s.cfg.mflimit) ∧
    (∃ s t : State, s.status = .busy ∧ HostIdle s ∧ s.ctl = .lookahead ∧ s.ip + 1 + s.cfg.mflimit ≤ s.nreg ∧
      exec .findMatch { s with ip := s.ip + 1 } = .next t ∧ t.status = .busy) ∧
    (∃ s t : State, s.status = .busy ∧ HostIdle s ∧ s.ctl = .emit ∧ s.cfg.backwardExtend = false ∧
      s.cfg.insertInsideMatch = false ∧ exec (.emitSeq s.anchor s.ip s.off s.mlen) s = .next t) ∧
    (∃ (s t u : State) (b : Nat), s.status = .busy ∧ HostIdle s ∧ s.ctl = .emit ∧ matchStart s = .ok b s ∧ b < s.ip ∧
      exec (.emitSeq s.anchor b s.off (s.mlen + (s.ip - b))) s = .next t ∧ insertInside t = .ok () u) :=
  ⟨⟨_, rfl, .inl rfl, rfl, by decide, rfl, rfl⟩, ⟨{ encoding abcd with host := [.wait] }, _, rfl, .inr ⟨_, rfl⟩, rfl, by decide, by decide, rfl, rfl⟩,
    ⟨encoding [], rfl, .inl rfl, rfl, by decide, rfl, by decide⟩,
    ⟨{ atMatch with ctl := .lookahead }, rfl, .inl rfl, rfl, by decide⟩,
    ⟨{ atMatch with ctl := .lookahead, ip := 3 }, _, rfl, .inl rfl, rfl, by decide, rfl, rfl⟩,
    ⟨{ atMatch with ctl := .emit, off := 4#16, mlen := 7 }, _, rfl, .inl rfl, rfl, rfl, rfl, rfl⟩,
    ⟨atBackward, _, _, 5, rfl, .inl rfl, rfl, rfl, by decide, rfl, rfl⟩⟩

theorem witness_StepRunsSequencerLine_decompress :
    (∃ s t : State, s.status = .busy ∧ HostIdle s ∧ s.ctl = .copyMatch ∧ exec .copyMatch s = .next t) ∧
    (∃ s : State, s.status = .busy ∧ HostIdle s ∧ s.ctl = .endTest ∧ s.ip = s.nreg) ∧
    (∃ s : State, s.status = .busy ∧ HostIdle s ∧ s.ctl = .endTest ∧ s.ip ≠ s.nreg) ∧
    (∀ lim, lim = 14 ∨ lim = 15 → ∃ s : State, s.status = .busy ∧ HostIdle s ∧ s.ctl = .readLitlen ∧ s.grain = .field ∧
      s.tok.toNat / 16 = 15 ∧ s.lim - s.op = lim) ∧
    (∃ s : State, s.status = .busy ∧ HostIdle s ∧ s.ctl = .readMatchlen ∧ s.grain = .field ∧ s.tok.toNat % 16 + 4 = s.lim - s.op ∧
      s.tok.toNat % 16 ≠ 15) ∧
    (∀ n, n = 1 ∨ n = 2 → ∃ s : State, s.status = .busy ∧ HostIdle s ∧ s.ctl = .copyLiterals ∧ s.grain = .field ∧
      StreamAt s [0x61#8] ∧ s.litlen = n) ∧
    (∃ s : State, s.status = .busy ∧ HostIdle s ∧ s.ctl = .literals 0) ∧
    (∃ s : State, s.status = .busy ∧ HostIdle s ∧ s.ctl = .litExt ∧ StreamAt s []) ∧
    (∃ s : State, s.status = .busy ∧ HostIdle s ∧ s.ctl = .readOffset ∧ s.grain = .field ∧ StreamAt s [0x01#8]) :=
  ⟨⟨{ produced (decoding .copyMatch .operation [] 100) abcd with off := 4#16, mlen := 4 }, _, rfl, .inl rfl, rfl, rfl⟩,
    ⟨{ decoding .endTest .operation [] 9 with host := [.wait] }, rfl, .inr ⟨_, rfl⟩, rfl, rfl⟩,
    ⟨decoding .endTest .operation [0#8] 9, rfl, .inl rfl, rfl, by decide⟩,
    fun lim _ => ⟨{ decoding .readLitlen .field [] lim with tok := 0xF0#8 }, rfl, .inl rfl, rfl, rfl,
      show (0xF0#8).toNat / 16 = 15 by decide, rfl⟩,
    ⟨{ decoding .readMatchlen .field [] 18 with tok := 0x0E#8 }, rfl, .inl rfl, rfl, rfl, rfl, by decide⟩,
    fun n _ => ⟨{ decoding .copyLiterals .field [0x61#8] 9 with litlen := n }, rfl, .inl rfl, rfl, rfl,
      ⟨by show (0 : Nat) ≤ 1; omega, by show 1 ≤ maxCsize small; decide, rfl⟩, rfl⟩,
    ⟨decoding (.literals 0) .field [] 9, rfl, .inl rfl, rfl⟩,
    ⟨decoding .litExt .field [] 9, rfl, .inl rfl, rfl, streamAt_of (by decide)⟩,
    ⟨decoding .readOffset .field [0x01#8] 9, rfl, .inl rfl, rfl, rfl, streamAt_of (by decide)⟩⟩

theorem witness_InvariantAtReset : small.ok := by decide

/-- The invariant of a decompression that has produced nothing yet. -/
theorem decoding_invariant : Invariant (decoding .sequence .sequence streamP1 100) where
  cfg := by decide
  canonical := ⟨by decide, by decide, by decide, by decide, by decide, by decide, by decide⟩
  widths := ⟨by decide, by decide, by decide, by decide, by decide, by decide, by decide, by decide, by decide, by decide,
    by decide, by decide, by decide⟩
  busy := by decide
  error := by decide
  result := fun _ => rfl
  written := fun a ha => absurd ha (by simp [decoding, holding, State.resetIn])
  line := ⟨by decide, by decide, by decide, by decide, fun a ha => absurd ha (by simp [decoding, holding, State.resetIn])⟩

/-- The invariant of a compression at its start. -/
theorem encoding_invariant : Invariant (encoding (abcd ++ abcd ++ abcd ++ abcd)) where
  cfg := by decide
  canonical := ⟨by decide, by decide, by decide, by decide, by decide, by decide, by decide⟩
  widths := ⟨by decide, by decide, by decide, by decide, by decide, by decide, by decide, by decide, by decide, by decide,
    by decide, by decide, by decide⟩
  busy := by decide
  error := by decide
  result := fun _ => rfl
  written := fun a ha => absurd ha (by simp [encoding, holding, State.resetIn])
  line := ⟨⟨by decide, by decide, by decide, by decide, fun a ha => absurd ha (by simp [encoding, holding, State.resetIn])⟩,
    tableBelow_of (by decide)⟩

/-- K10 with its match found and not yet emitted. -/
def atEmit : State := { atMatch with ctl := .emit, off := 4#16, mlen := 7, ht := [(1584, [4])] }

theorem atEmit_invariant : Invariant atEmit where
  cfg := by decide
  canonical := ⟨by decide, by decide, by decide, by decide, by decide, by decide, by decide⟩
  widths := ⟨by decide, by decide, by decide, by decide, by decide, by decide, by decide, by decide, by decide, by decide,
    by decide, by decide, by decide⟩
  busy := by decide
  error := by decide
  result := fun _ => rfl
  written := fun a ha => absurd ha (by simp [atEmit, atMatch, encoding, holding, State.resetIn])
  line := ⟨⟨by decide, by decide, by decide, by decide,
    fun a ha => absurd ha (by simp [atEmit, atMatch, encoding, holding, State.resetIn])⟩,
    tableBelow_of (by decide), ⟨by decide, by decide, by decide, by decide, by decide⟩⟩

/-- The invariant of an idle machine. -/
theorem idle_invariant : Invariant { holding abcd with inLen := 101 } where
  cfg := by decide
  canonical := ⟨by decide, by decide, by decide, by decide, by decide, by decide, by decide⟩
  widths := ⟨by decide, by decide, by decide, by decide, by decide, by decide, by decide, by decide, by decide, by decide,
    by decide, by decide, by decide⟩
  busy := by decide
  error := by decide
  result := fun _ => rfl
  written := fun a ha => absurd ha (by simp [holding, State.resetIn])
  line := trivial

/-- The same before a move of the host. -/
theorem before_invariant (m : HostMove) : Invariant { before m with inLen := 101 } :=
  have i := idle_invariant
  ⟨i.cfg, ⟨i.canonical.1, i.canonical.2, i.canonical.3, i.canonical.4, i.canonical.5, i.canonical.6, i.canonical.7⟩,
    ⟨i.widths.inLen, i.widths.outLen, i.widths.outLimit, i.widths.sizeHint, i.widths.ip, i.widths.op, i.widths.nreg,
      i.widths.anchor, i.widths.lim, i.widths.mlen, i.widths.litlen, i.widths.hidx, i.widths.cand⟩,
    i.busy, i.error, i.result, i.written, i.line⟩

theorem witness_InvariantKept : ∃ t u v : State, Invariant (decoding .sequence .sequence streamP1 100) ∧
    step (decoding .sequence .sequence streamP1 100) = .next t ∧ Invariant (encoding (abcd ++ abcd ++ abcd ++ abcd)) ∧
    step (encoding (abcd ++ abcd ++ abcd ++ abcd)) = .next u ∧ Invariant atEmit ∧ step atEmit = .next v :=
  ⟨_, _, _, decoding_invariant, rfl, encoding_invariant, rfl, atEmit_invariant, rfl⟩

theorem witness_EngineNeverFaults :
    (Invariant atEmit ∧ HostIdle atEmit) ∧ HostIdle { atEmit with host := [.wait] } ∧
    (∃ s : State, Invariant s ∧ step s = .fault .noSuchPosition) ∧ (∃ s : State, Invariant s ∧ step s = .refused .illegalStart) :=
  ⟨⟨atEmit_invariant, .inl rfl⟩, .inr ⟨_, rfl⟩, ⟨_, before_invariant (.readOut 116), rfl⟩, ⟨_, before_invariant (.write .cmd 1), rfl⟩⟩

theorem witness_EngineLeavesInputAlone : (∃ t, HostIdle atEmit ∧ step atEmit = .next t) ∧
    (∃ s t : State, s.status = .busy ∧ HostIdle s ∧ s.host ≠ [] ∧ step s = .next t) :=
  ⟨⟨_, .inl rfl, rfl⟩, { atEmit with host := [.wait] }, _, rfl, .inr ⟨_, rfl⟩, by decide, rfl⟩

theorem witness_OutputOnlyAppendedCursorForward : ∃ t, HostIdle atEmit ∧ step atEmit = .next t ∧ atEmit.op < t.op :=
  ⟨_, .inl rfl, rfl, by decide⟩

theorem witness_EnginesKeepApart :
    (∃ t, HostIdle atEmit ∧ atEmit.status = .busy ∧ step atEmit = .next t ∧ atEmit.ctl.compresses) ∧
    (∃ t, HostIdle (decoding .sequence .sequence streamP1 100) ∧ step (decoding .sequence .sequence streamP1 100) = .next t ∧
      ¬ (decoding .sequence .sequence streamP1 100).ctl.compresses) :=
  ⟨⟨_, .inl rfl, rfl, rfl, .inr (.inr rfl)⟩, ⟨_, .inl rfl, rfl, by decide⟩⟩

theorem witness_OperationEndsOnlySo : ∃ t, Invariant atEmit ∧ HostIdle atEmit ∧ atEmit.status = .busy ∧ step atEmit = .next t :=
  ⟨_, atEmit_invariant, .inl rfl, rfl, rfl⟩

theorem witness_TableHoldsEarlierPositions :
    (∃ t, (holding abcd).status ≠ .busy ∧ exec .compress (holding abcd) = .next t) ∧
    (∃ t, Invariant atEmit ∧ HostIdle atEmit ∧ atEmit.ctl.compresses ∧ step atEmit = .next t ∧ t.ctl = .scan) ∧
    (∃ t, Invariant (encoding (abcd ++ abcd ++ abcd ++ abcd)) ∧ step (encoding (abcd ++ abcd ++ abcd ++ abcd)) = .next t ∧
      t.ctl = .scan) :=
  ⟨⟨_, by decide, rfl⟩, ⟨_, atEmit_invariant, .inl rfl, .inr (.inr rfl), rfl, rfl⟩, ⟨_, encoding_invariant, rfl, rfl⟩⟩

theorem witness_DecompressEnds : Invariant (decoding .sequence .sequence streamP1 100) ∧
    HostIdle (decoding .sequence .sequence streamP1 100) ∧ (decoding .sequence .sequence streamP1 100).status = .busy ∧
    ¬ (decoding .sequence .sequence streamP1 100).ctl.compresses ∧
    (decoding .sequence .sequence streamP1 100).ctl = .sequence := ⟨decoding_invariant, .inl rfl, rfl, by decide, rfl⟩

theorem witness_CompressEnds : Invariant (encoding (abcd ++ abcd ++ abcd ++ abcd)) ∧
    HostIdle (encoding (abcd ++ abcd ++ abcd ++ abcd)) ∧ (encoding (abcd ++ abcd ++ abcd ++ abcd)).ctl = .scan :=
  ⟨encoding_invariant, .inl rfl, rfl⟩

/-- K10, run to its end: the hypotheses of the statements about a compression that has answered. -/
theorem witness_CompressSizeBound : ∃ (s : State) (bs out : List Byte), s.cfg.ok ∧ Ready s ∧ Loaded s bs ∧
    Answers .compress s (.ok out) :=
  ⟨holding (abcd ++ abcd ++ abcd ++ abcd), abcd ++ abcd ++ abcd ++ abcd, 0x43#8 :: abcd ++ [0x04#8, 0x00#8, 0x50#8, 0x64#8] ++ abcd, by decide, ready_of (by decide),
    loaded_of (by decide), answers_of 10 (by decide)⟩

theorem witness_CompressConforms : (∃ (s : State) (bs out : List Byte), s.cfg.ok ∧ bs ≠ [] ∧ Ready s ∧ Loaded s bs ∧
    Answers .compress s (.ok out)) ∧
    ∃ (s : State) (out : List Byte), s.cfg.ok ∧ s.cfg.emptyOutput = [0x00#8] ∧ Ready s ∧ Loaded s [] ∧
    Answers .compress s (.ok out) :=
  ⟨⟨{ holding (abcd ++ abcd ++ abcd ++ abcd) with host := [.wait] }, abcd ++ abcd ++ abcd ++ abcd, 0x43#8 :: abcd ++ [0x04#8, 0x00#8, 0x50#8, 0x64#8] ++ abcd, by decide, by decide, ready_of (by decide),
    loaded_of (by decide), answers_of 10 (by decide)⟩,
    holding [], [0x00#8], by decide, rfl, ready_of (by decide), loaded_of (by decide), answers_of 2 (by decide)⟩

theorem witness_EmptyAndShortInputs :
    (∃ (s : State) (bs : List Byte), s.cfg.ok ∧ Ready s ∧ Loaded s bs ∧ s.outLimit ≤ s.cfg.maxSize ∧
      bs.length ≤ s.cfg.maxSize ∧ bs.length = 12 ∧ s.cfg.mflimit = 12) ∧
    (∃ s : State, s.cfg.ok ∧ s.cfg.emptyOutput = [0x00#8] ∧ Ready s ∧ Loaded s [] ∧ s.outLimit = s.cfg.maxSize) ∧
    (∃ s : State, Ready s ∧ Loaded s [0x00#8] ∧ s.outLimit = 0) :=
  ⟨⟨holding (abcd ++ abcd ++ abcd), abcd ++ abcd ++ abcd, by decide, ready_of (by decide), loaded_of (by decide), by decide⟩,
    ⟨holding [], by decide, rfl, ready_of (by decide), loaded_of (by decide), rfl⟩,
    ⟨{ holding [0x00#8] with outLimit := 0 }, ready_of (by decide), loaded_of (by decide), rfl⟩⟩

/-- P7, steps 3 to 5. -/
theorem witness_RoundTrip : ∃ (s s' : State) (bs out : List Byte), s.cfg.ok ∧
    (bs = [] → ∃ x, s.cfg.emptyOutput = [x] ∧ x.toNat < 16) ∧ Ready s ∧ Loaded s bs ∧
    bs.length ≤ s.cfg.maxSize ∧ s.outLimit ≤ s.cfg.maxSize ∧ Answers .compress s (.ok out) ∧ s'.cfg = s.cfg ∧ Ready s' ∧
    Loaded s' out ∧ bs.length = s'.outLimit ∧ s'.outLimit ≤ s'.cfg.maxSize :=
  ⟨holding (abcd ++ abcd ++ abcd ++ abcd),
    { holding (0x43#8 :: abcd ++ [0x04#8, 0x00#8, 0x50#8, 0x64#8] ++ abcd) with outLimit := 16 }, abcd ++ abcd ++ abcd ++ abcd,
    0x43#8 :: abcd ++ [0x04#8, 0x00#8, 0x50#8, 0x64#8] ++ abcd, by decide, nofun, ready_of (by decide), loaded_of (by decide), by decide,
    by decide, answers_of 10 (by decide), rfl, ready_of (by decide), loaded_of (by decide), by decide, by decide⟩

theorem witness_DecompressMatchesReference : Ready (holding streamP1) ∧ Loaded (holding streamP1) streamP1 ∧
    streamP1.length ≤ maxCsize (holding streamP1).cfg ∧ (holding streamP1).outLimit ≤ (holding streamP1).cfg.maxSize :=
  ⟨ready_of (by decide), loaded_of (by decide), by decide, by decide⟩

/-- P1's answer, at the grain of a field. -/
theorem witness_GrainsAgree : Ready (holding streamP1) ∧
    Answers .decompress { holding streamP1 with grain := .field }
      (.ok (List.replicate 6 0x61#8 ++ [0x62#8, 0x63#8, 0x64#8, 0x65#8, 0x66#8])) :=
  ⟨ready_of (by decide), answers_of 40 (by decide)⟩

theorem witness_AnswerIndependentOfHistory : ∃ s s' : State, Ready s ∧ Ready s' ∧ Loaded s streamP1 ∧ Loaded s' streamP1 ∧
    s.cfg = s'.cfg ∧ s.outLimit = s'.outLimit ∧ s.grain = s'.grain ∧ s ≠ s' :=
  ⟨holding streamP1, { holding streamP1 with status := .error, err := some .lengthOverflow, op := 5, out := [(0, 7#8)] },
    ready_of (by decide), ready_of (by decide), loaded_of (by decide), loaded_of (by decide), rfl, rfl, rfl, by decide⟩

theorem witness_SizeHintHasNoEffect : Ready (holding streamP1) := ready_of (by decide)

/-- T3: the prefix of length 2 of `10 61 01 00 50 62 63 64 65 66` ends with literals; the one of length 3 does not. -/
theorem witness_TruncationOfAcceptedStream : ∃ (bs out : List Byte), Ready (holding bs) ∧ Loaded (holding bs) bs ∧
    Answers .decompress (holding bs) (.ok out) ∧
    (2 < bs.length ∧ Ready (holding (bs.take 2)) ∧ Loaded (holding (bs.take 2)) (bs.take 2) ∧ (2, 1) ∈ literalEnds bs) ∧
    (3 < bs.length ∧ Loaded (holding (bs.take 3)) (bs.take 3) ∧ ∀ n, (3, n) ∉ literalEnds bs) :=
  ⟨0x10#8 :: streamP1.tail, List.replicate 5 0x61#8 ++ [0x62#8, 0x63#8, 0x64#8, 0x65#8, 0x66#8], ready_of (by decide),
    loaded_of (by decide), answers_of 5 (by decide), ⟨by decide, ready_of (by decide), loaded_of (by decide), by decide⟩,
    ⟨by decide, loaded_of (by decide), by
      have h : literalEnds (0x10#8 :: streamP1.tail) = [(2, 1)] := by decide
      intro n; rw [h]; simp⟩⟩

/-- P4. -/
theorem witness_CraftedOffsetIsInvalid : ∃ s : State, Ready s ∧ Loaded s (sequenceBytes abcd 5#16 4 ++ [0x00#8]) ∧
    s.inLen ≤ maxCsize s.cfg ∧ s.outLimit ≤ s.cfg.maxSize ∧ abcd.length ≤ s.outLimit ∧ abcd.length < (5#16).toNat :=
  ⟨holding (0x40#8 :: abcd ++ [0x05#8, 0x00#8, 0x00#8]), ready_of (by decide), loaded_of (by decide), by decide⟩

end Sys2Proof.Tests
end

section
/-! SUPPORT. Runs that end: the engine runs line by line to the end of its operation, and the end has one answer. -/

namespace Sys2Proof.Machine

/-- The answer of an operation (R250). -/
abbrev Answer := Except ErrKind (List Byte)

/-- The host makes no further move but to wait for the end of the operation, as in `Ready`. -/
abbrev Quiet (s : State) : Prop := s.host = [] ∨ s.host = [.wait]

theorem Quiet.hostIdle {s : State} (h : Quiet s) : HostIdle s := h.imp id fun h => ⟨[], h⟩

theorem Ended.not_busy {s : State} {a : Answer} (h : Ended s a) : s.status ≠ .busy := by
  cases a <;> rw [h.1] <;> decide

/-- An end has one answer. -/
theorem Ended.unique {s : State} {a b : Answer} (ha : Ended s a) (hb : Ended s b) : a = b := by
  cases a with
  | error e =>
    obtain ⟨hst, he, -⟩ := ha
    cases b with
    | error f => obtain ⟨-, hf, -⟩ := hb; rw [he] at hf; cases hf; rfl
    | ok ys => have := hst.symm.trans hb.1; cases this
  | ok xs =>
    obtain ⟨hst, -, -, hx⟩ := ha
    cases b with
    | error f => have := hst.symm.trans hb.1; cases this
    | ok ys => obtain ⟨-, -, -, hy⟩ := hb; rw [← hx, hy]

/-- After the end nothing happens but that the host's wait is over. -/
theorem Ended.step_eq {s : State} {a : Answer} (hq : Quiet s) (h : Ended s a) :
    step s = .next { s with host := [] } := by
  have hb := h.not_busy
  rcases hq with hq | hq
  · simp only [step, hq, engineTurn, if_neg hb]; rw [← hq]
  · simp only [step, hq, if_neg hb]

theorem Ended.dropHost {s : State} {a : Answer} (h : Ended s a) : Ended { s with host := [] } a := by
  cases a with
  | error e => exact h
  | ok bs =>
    obtain ⟨hst, he, hl, rfl⟩ := h
    exact ⟨hst, he, hl, State.outRun_congr fun _ _ => rfl⟩

/-- The answer stays. -/
theorem Ended.after_steps {s u : State} {a : Answer} {n : Nat} (hq : Quiet s) (h : Ended s a) (hu : steps n s = .next u) :
    Ended u a := by
  induction n generalizing s with
  | zero => cases hu; exact h
  | succ n ih =>
    rw [steps, h.step_eq hq] at hu
    exact ih (.inl rfl) h.dropHost hu

/-- BUSY at every step before it, the machine comes to the end of the operation, with this answer. -/
inductive Finishes : State → Answer → Prop
  | ended {s : State} {a : Answer} (quiet : Quiet s) (h : Ended s a) : Finishes s a
  | line {s t : State} {a : Answer} (busy : s.status = .busy) (h : step s = .next t) (rest : Finishes t a) :
    Finishes s a

theorem Finishes.reaches {s : State} {a : Answer} (h : Finishes s a) : ∃ u, Reaches s u ∧ Ended u a := by
  induction h with
  | ended _ h => exact ⟨_, ⟨0, rfl⟩, h⟩
  | line _ hstep _ ih =>
    obtain ⟨u, ⟨n, hn⟩, hu⟩ := ih
    exact ⟨u, ⟨n + 1, by rw [steps, hstep]; exact hn⟩, hu⟩

/-- Whatever end some number of steps leads to, the answer is the one the run finishes with. -/
theorem Finishes.unique {s u : State} {a b : Answer} {n : Nat} (h : Finishes s a) (hn : steps n s = .next u)
    (hu : Ended u b) : b = a := by
  induction h generalizing n with
  | ended hq h => exact hu.unique (h.after_steps hq hn)
  | line hbusy hstep _ ih =>
    cases n with
    | zero => cases hn; exact absurd hbusy hu.not_busy
    | succ n => rw [steps, hstep] at hn; exact ih hn

theorem Finishes.reaches_iff {s : State} {a b : Answer} (h : Finishes s a) :
    (∃ u, Reaches s u ∧ Ended u b) ↔ b = a := by
  constructor
  · rintro ⟨u, ⟨n, hn⟩, hu⟩; exact h.unique hn hu
  · rintro rfl; exact h.reaches

/-- An error raised ends the operation. -/
theorem finishes_raise {s : State} (hq : Quiet s) (e : ErrKind) : Finishes (raise e s) (.error e) :=
  .ended hq ⟨rfl, rfl, rfl⟩

/-- `finish` ends the operation with the bytes up to `OP`. -/
theorem finishes_finish {s : State} (hq : Quiet s) (he : s.err = none) : Finishes (finish s) (.ok (s.outRun 0 s.op)) :=
  .ended hq ⟨rfl, he, by simp, State.outRun_congr fun _ _ => rfl⟩

end Sys2Proof.Machine
end

section
/-! SUPPORT. A decompression as its operations in the order of R205, whatever the grain: the lines of each grain follow the
operations, up to the registers no operation of R205 reads. -/

namespace Sys2Proof.Machine

/-- A decompression stands before these bytes, and the host is quiet. -/
structure Live (s : State) (bs : List Byte) : Prop where
  busy : s.status = .busy
  quiet : Quiet s
  stream : StreamAt s bs

theorem Live.step_eq {s : State} {bs : List Byte} (h : Live s bs) : step s = engineStep s :=
  step_eq_engineStep h.busy h.quiet.hostIdle

/-- A line of the engine, then the rest of the run. -/
theorem Live.finishes {s t : State} {bs : List Byte} {a : Answer} (h : Live s bs) (hline : engineStep s = .next t)
    (ht : Finishes t a) : Finishes s a :=
  .line h.busy (h.step_eq.trans hline) ht

/-- A line that raises an error. -/
theorem Live.finishes_of_raise {s u : State} {bs : List Byte} {e : ErrKind} (h : Live s bs) (hu : u.host = s.host)
    (hline : engineStep s = .next (raise e u)) : Finishes s (.error e) :=
  h.finishes hline (finishes_raise (by rw [Quiet, hu]; exact h.quiet) e)

/-- Equal but for the line, the last result handed back and the length in progress: what the grains leave different, and no
operation of R205 reads. -/
def Alike (s t : State) : Prop := ∃ c r n b, t = { s with ctl := c, ret := r, lenAcc := n, lenBias := b }

theorem Alike.refl (s : State) : Alike s s := ⟨_, _, _, _, rfl⟩

theorem Alike.trans {s t u : State} (h : Alike s t) (h' : Alike t u) : Alike s u := by
  obtain ⟨_, _, _, _, rfl⟩ := h
  obtain ⟨_, _, _, _, rfl⟩ := h'
  exact ⟨_, _, _, _, rfl⟩

theorem Alike.grain {s t : State} (h : Alike s t) : t.grain = s.grain := by obtain ⟨_, _, _, _, rfl⟩ := h; rfl

theorem Live.alike {s t : State} {bs : List Byte} (h : Live s bs) (ht : Alike s t) : Live t bs := by
  obtain ⟨_, _, _, _, rfl⟩ := ht
  exact ⟨h.busy, h.quiet, h.stream.move (xs := []) rfl rfl rfl rfl rfl⟩

/-- An operation that completes leads on to `k`, from every state like the one it ends in; one that raises an error gives the
answer; it does not fault. -/
def Res.Leads {α : Type} (r : Res α) (a : Answer) (k : α → State → Prop) : Prop :=
  match r with
  | .ok x u => ∀ t, Alike u t → k x t
  | .err e _ => a = .error e
  | .fault _ => False

/-- At line `c` the answer follows from `op` and then line `next`. -/
def Follows {α : Type} (F : Ctl → State → Answer → Prop) (c : Ctl) (op : State → Res α) (next : Ctl) : Prop :=
  ∀ {s : State} {bs : List Byte} {a : Answer}, Live s bs → (op s).Leads a (fun _ t => F next t a) → F c s a

/-- `F c s a` says that the decompression standing at line `c` in state `s` answers `a`; it does so as R205 and R224 say,
operation by operation. -/
structure RunsInOrder (F : Ctl → State → Answer → Prop) : Prop where
  fetchToken : Follows F .fetchToken fetchTokenOp .readLitlen
  readLitlen : Follows F .readLitlen readLitlenOp .copyLiterals
  copyLiterals : Follows F .copyLiterals copyLiteralsOp .endTest
  final : ∀ {s : State} {bs : List Byte} {a : Answer}, Live s bs → endTest s = true →
    (∀ t, Alike s t → Finishes (finish t) a) → F .endTest s a
  more : ∀ {s : State} {bs : List Byte} {a : Answer}, Live s bs → endTest s = false →
    (∀ t, Alike s t → F .readOffset t a) → F .endTest s a
  readOffset : Follows F .readOffset readOffsetOp .readMatchlen
  readMatchlen : Follows F .readMatchlen readMatchlenOp .copyMatch
  copyMatch : Follows F .copyMatch copyMatchOp .fetchToken

/-! ### The lines of the decompressor -/

section
variable {s : State}

theorem engineStep_at_sequence (hc : s.ctl = .sequence) : engineStep s = sequenceStep s := by rw [engineStep, hc]
theorem engineStep_at_fetchToken (hc : s.ctl = .fetchToken) : engineStep s = opStep .fetchToken .readLitlen s := by
  rw [engineStep, hc]
theorem engineStep_at_readLitlen (hc : s.ctl = .readLitlen) : engineStep s =
    if s.grain = .field then lenHead (litSel s.tok) 0 .litExt endLitlen s else opStep .readLitlen .copyLiterals s := by
  rw [engineStep, hc]
theorem engineStep_at_litExt (hc : s.ctl = .litExt) : engineStep s = fieldStep .lenext (afterExt endLitlen) s := by
  rw [engineStep, hc]
theorem engineStep_at_copyLiterals (hc : s.ctl = .copyLiterals) : engineStep s =
    if s.grain = .field then literalsHead s else opStep .copyLiterals .endTest s := by rw [engineStep, hc]
theorem engineStep_at_literals_zero (hc : s.ctl = .literals 0) : engineStep s = .next { s with ctl := .endTest } := by
  rw [engineStep, hc]
theorem engineStep_at_literals_succ {n : Nat} (hc : s.ctl = .literals (n + 1)) :
    engineStep s = fieldStep .literal (fun _ s => { s with ctl := .literals n }) s := by
  rw [engineStep, hc]
theorem engineStep_at_endTest (hc : s.ctl = .endTest) : engineStep s = andThen (exec .endTest s) afterEndTest := by
  rw [engineStep, hc]
theorem engineStep_at_readOffset (hc : s.ctl = .readOffset) : engineStep s =
    if s.grain = .field then fieldStep .offset (fun _ s => { s with ctl := .readMatchlen }) s
    else opStep .readOffset .readMatchlen s := by rw [engineStep, hc]
theorem engineStep_at_readMatchlen (hc : s.ctl = .readMatchlen) : engineStep s =
    if s.grain = .field then lenHead (matchSel s.tok) 4 .matchExt endMatchlen s
    else opStep .readMatchlen .copyMatch s := by rw [engineStep, hc]
theorem engineStep_at_matchExt (hc : s.ctl = .matchExt) : engineStep s = fieldStep .lenext (afterExt endMatchlen) s := by
  rw [engineStep, hc]
theorem engineStep_at_copyMatch (hc : s.ctl = .copyMatch) : engineStep s = opStep .copyMatch (entryCtl s.grain) s := by
  rw [engineStep, hc]

end

/-! ### A whole sequence a step -/

/-- An outcome of `PARSE_SEQUENCE` after which the run finishes with the answer. -/
def Yields (r : Res (List Byte × Option (Half × Nat))) (a : Answer) : Prop :=
  ∃ t, r.outcome giveTuple = .next t ∧ Finishes t a

/-! What is left of `PARSE_SEQUENCE` from each of its operations on. -/

def copyRest (lits : List Byte) (s : State) : Res (List Byte × Option (Half × Nat)) :=
  (copyMatchOp s).bind fun _ s => .ok (lits, some (s.off, s.mlen)) s
def matchlenRest (lits : List Byte) (s : State) : Res (List Byte × Option (Half × Nat)) :=
  (readMatchlenOp s).bind fun _ s => copyRest lits s
def offsetRest (lits : List Byte) (s : State) : Res (List Byte × Option (Half × Nat)) :=
  (readOffsetOp s).bind fun _ s => matchlenRest lits s
def endRest (lits : List Byte) (s : State) : Res (List Byte × Option (Half × Nat)) :=
  if endTest s then .ok (lits, none) s else offsetRest lits s
def literalsRest (s : State) : Res (List Byte × Option (Half × Nat)) := (copyLiteralsOp s).bind endRest
def litlenRest (s : State) : Res (List Byte × Option (Half × Nat)) := (readLitlenOp s).bind fun _ s => literalsRest s

theorem parseSequenceOp_eq_bind (s : State) : parseSequenceOp s = (fetchTokenOp s).bind fun _ s => litlenRest s := rfl

/-- R205: at a token byte the machine does what `PARSE_SEQUENCE` does, whether it has decoded a sequence or not. -/
theorem sequenceStep_eq_parse {s : State} {bs : List Byte} (h : StreamAt s bs) :
    sequenceStep s = (parseSequenceOp s).outcome giveTuple := by
  rw [sequenceStep, h.withRest_eq, decode]
  cases hd : decodeSequence bs with
  | error r => rfl
  | ok d =>
    obtain ⟨i, rest⟩ := d
    rcases decodeSequence_inv hd with ⟨lits, off, m, rfl, rfl⟩ | ⟨x, lits, -, rfl, rfl⟩
    · rw [parseSequenceOp_seq h]; exact exec_of_isSeq (isSeq_seqInstr ..) s
    · have hl := isLast_lastInstr (tokenByte (selOf lits.length) x.toNat) lits
      rw [matchSel_finalToken] at hl
      rw [parseSequenceOp_last h]; exact exec_of_isLast hl s

/-- At the grain of a sequence only the token byte is a line; the others stand inside its step. -/
def WholeSequence (c : Ctl) (s : State) (a : Answer) : Prop :=
  s.grain = .sequence → s.ctl = .sequence →
    match c with
    | .fetchToken => Finishes s a
    | .readLitlen => Yields (litlenRest s) a
    | .copyLiterals => Yields (literalsRest s) a
    | .endTest => ∀ lits, Yields (endRest lits s) a
    | .readOffset => ∀ lits, Yields (offsetRest lits s) a
    | .readMatchlen => ∀ lits, Yields (matchlenRest lits s) a
    | .copyMatch => ∀ lits, Yields (copyRest lits s) a
    | _ => False

/-- An operation and what is left after it. -/
theorem yields_bind {α : Type} {r : Res α} {s : State} {a : Answer} {k : α → State → Prop}
    {f : α → State → Res (List Byte × Option (Half × Nat))} (hq : Quiet s) (frame : Res.All (DecFrame s) r)
    (h : r.Leads a k) (hf : ∀ x u, DecFrame s u → (∀ t, Alike u t → k x t) → Yields (f x u) a) :
    Yields (r.bind f) a := by
  cases r with
  | ok x u => exact hf x u frame h
  | err e u =>
    obtain rfl := h
    exact ⟨_, rfl, finishes_raise (by rw [Quiet, frame.host]; exact hq) e⟩
  | fault f => exact h.elim

theorem wholeSequence_runsInOrder : RunsInOrder WholeSequence where
  fetchToken := by
    intro s bs a hl h hg hc
    obtain ⟨t, ht, hfin⟩ : Yields (parseSequenceOp s) a := by
      rw [parseSequenceOp_eq_bind]
      exact yields_bind hl.quiet (decFrame_fetchToken s) h fun _ u hu hk =>
        hk _ (Alike.refl _) (hu.grain.trans hg) (hu.ctl.trans hc)
    exact hl.finishes ((engineStep_at_sequence hc).trans ((sequenceStep_eq_parse hl.stream).trans ht)) hfin
  readLitlen := fun {s} _ _ hl h hg hc =>
    yields_bind hl.quiet (decFrame_readLitlen s) h fun _ _ hu hk =>
      hk _ (Alike.refl _) (hu.grain.trans hg) (hu.ctl.trans hc)
  copyLiterals := fun {s} _ _ hl h hg hc =>
    yields_bind hl.quiet (decFrame_copyLiterals s) h fun x _ hu hk =>
      hk _ (Alike.refl _) (hu.grain.trans hg) (hu.ctl.trans hc) x
  final := fun {s} _ _ _ he h _ _ lits =>
    ⟨finish { s with ret := .tuple lits none }, by rw [endRest, if_pos he]; rfl, h _ ⟨_, _, _, _, rfl⟩⟩
  more := fun {s} _ _ _ he h hg hc lits => by
    rw [endRest, if_neg (by simp [he])]; exact h s (Alike.refl s) hg hc lits
  readOffset := fun {s} _ _ hl h hg hc lits =>
    yields_bind hl.quiet (decFrame_readOffset s) h fun _ _ hu hk =>
      hk _ (Alike.refl _) (hu.grain.trans hg) (hu.ctl.trans hc) lits
  readMatchlen := fun {s} _ _ hl h hg hc lits =>
    yields_bind hl.quiet (decFrame_readMatchlen s) h fun _ _ hu hk =>
      hk _ (Alike.refl _) (hu.grain.trans hg) (hu.ctl.trans hc) lits
  copyMatch := fun {s} _ _ hl h hg hc lits =>
    yields_bind hl.quiet (decFrame_copyMatch s) h fun _ u hu hk =>
      ⟨{ u with ret := .tuple lits (some (u.off, u.mlen)) }, rfl,
        hk _ ⟨_, _, _, _, rfl⟩ (hu.grain.trans hg) (hu.ctl.trans hc)⟩

/-! ### One operation or one field a step -/

/-- At a finer grain every operation of R205 has a line of its own. -/
def LineByLine (g : Grain) (c : Ctl) (s : State) (a : Answer) : Prop := s.grain = g → s.ctl = c → Finishes s a

/-- A line that executes an operation of R205 as an instruction. -/
theorem follows_of_opStep {α : Type} {g : Grain} {c next : Ctl} {i : Instr} {op : State → Res α}
    (hline : ∀ s, s.grain = g → s.ctl = c → engineStep s = opStep i next s)
    (hexec : ∀ s, exec i s = (op s).outcome fun _ u => u) (frame : ∀ s, Res.All (DecFrame s) (op s)) :
    Follows (LineByLine g) c op next := by
  intro s bs a hl h hg hc
  have hrun : engineStep s = andThen ((op s).outcome fun _ u => u) fun s => { s with ctl := next } := by
    rw [hline s hg hc, opStep, hexec]
  have hframe := frame s
  cases hop : op s with
  | ok x u =>
    rw [hop] at h hrun hframe
    have hbusy : u.status = .busy := hframe.status.trans hl.busy
    refine hl.finishes (t := { u with ctl := next }) (by simpa [andThen, hbusy] using hrun) ?_
    exact h _ ⟨_, _, _, _, rfl⟩ (hframe.grain.trans hg) rfl
  | err e u =>
    rw [hop] at h hrun hframe
    obtain rfl := h
    exact hl.finishes_of_raise hframe.host (by simpa [andThen] using hrun)
  | fault f => rw [hop] at h; exact h.elim

/-- `END_TEST` as a line. -/
theorem engineStep_endTest_busy {s : State} (hb : s.status = .busy) (hc : s.ctl = .endTest) :
    engineStep s = .next (afterEndTest (giveBit (endTest s) s)) := by
  rw [engineStep_at_endTest hc]
  show andThen (.next (giveBit (endTest s) s)) afterEndTest = _
  rw [andThen, giveBit_status, if_pos hb]

theorem lineByLine_final (g : Grain) {s : State} {bs : List Byte} {a : Answer} (hl : Live s bs) (he : endTest s = true)
    (h : ∀ t, Alike s t → Finishes (finish t) a) : LineByLine g .endTest s a := fun _ hc => by
  refine hl.finishes (engineStep_endTest_busy hl.busy hc) ?_
  rw [afterEndTest, he, if_pos (by simp)]
  exact h _ ⟨_, _, _, _, rfl⟩

theorem lineByLine_more (g : Grain) {s : State} {bs : List Byte} {a : Answer} (hl : Live s bs) (he : endTest s = false)
    (h : ∀ t, Alike s t → LineByLine g .readOffset t a) : LineByLine g .endTest s a := fun hg hc => by
  refine hl.finishes (engineStep_endTest_busy hl.busy hc) ?_
  rw [afterEndTest, he, if_neg (by simp)]
  exact h _ ⟨_, _, _, _, rfl⟩ hg rfl

theorem operation_runsInOrder : RunsInOrder (LineByLine .operation) where
  fetchToken := follows_of_opStep (fun _ _ hc => engineStep_at_fetchToken hc) (fun _ => rfl) decFrame_fetchToken
  readLitlen := follows_of_opStep (fun _ hg hc => (engineStep_at_readLitlen hc).trans (if_neg (by simp [hg])))
    (fun _ => rfl) decFrame_readLitlen
  copyLiterals := follows_of_opStep (fun _ hg hc => (engineStep_at_copyLiterals hc).trans (if_neg (by simp [hg])))
    (fun _ => rfl) decFrame_copyLiterals
  final := lineByLine_final _
  more := lineByLine_more _
  readOffset := follows_of_opStep (fun _ hg hc => (engineStep_at_readOffset hc).trans (if_neg (by simp [hg])))
    (fun _ => rfl) decFrame_readOffset
  readMatchlen := follows_of_opStep (fun _ hg hc => (engineStep_at_readMatchlen hc).trans (if_neg (by simp [hg])))
    (fun _ => rfl) decFrame_readMatchlen
  copyMatch := follows_of_opStep (fun _ hg hc => by rw [engineStep_at_copyMatch hc, hg]; rfl) (fun _ => rfl)
    decFrame_copyMatch

/-! ### One field a step -/

/-- A field of the stream whose element is decoded and completes. -/
theorem Live.finishes_fieldStep {s : State} {bs rest : List Byte} {a : Answer} {c : Ctx} {after : Instr → State → State}
    {i : Instr} {t : State} (hl : Live s bs) (hline : engineStep s = fieldStep c after s) (hd : decode c bs = .ok (i, rest))
    (hexec : exec i s = .next t) (hb : t.status = .busy) (ht : Finishes (after i t) a) : Finishes s a := by
  refine hl.finishes ?_ ht
  rw [hline, fieldStep, hl.stream.withRest_eq, hd]
  simp only [hexec, andThen, if_pos hb]

/-- A field of the stream whose element raises an error. -/
theorem Live.finishes_fieldStep_raise {s : State} {bs rest : List Byte} {c : Ctx} {after : Instr → State → State}
    {i : Instr} {u : State} {e : ErrKind} (hl : Live s bs) (hline : engineStep s = fieldStep c after s)
    (hd : decode c bs = .ok (i, rest)) (hexec : exec i s = .next (raise e u)) (hu : u.host = s.host) :
    Finishes s (.error e) := by
  refine hl.finishes_of_raise hu ?_
  rw [hline, fieldStep, hl.stream.withRest_eq, hd]
  simp [hexec, andThen]

/-- A field of the stream inside which the bytes end. -/
theorem Live.finishes_fieldStep_cut {s : State} {bs : List Byte} {c : Ctx} {after : Instr → State → State} {r : Reject}
    (hl : Live s bs) (hline : engineStep s = fieldStep c after s) (hd : decode c bs = .error r) :
    Finishes s (.error .truncatedInput) := by
  refine hl.finishes_of_raise (u := s) rfl ?_
  rw [hline, fieldStep, hl.stream.withRest_eq, hd]

/-- What a scan of a length is for the operation that makes it (R123). -/
def scanRes (r : Scan) (s : State) : Res Nat :=
  match r with
  | .value n used => .ok n { s with ip := s.ip + used }
  | .overflow used => .err .lengthOverflow { s with ip := s.ip + used }
  | .truncated used => .err .truncatedInput { s with ip := s.ip + used }

theorem takeLen_eq_scan (sel bias rm : Nat) (bs : List Byte) (s : State) :
    takeLen sel bias rm bs s = scanRes (scanLength sel bias rm bs) s := rfl

/-- The two `LENEXT` rows have one meaning (R93). -/
theorem exec_lenext (b : Byte) (s : State) :
    exec (if b = 255#8 then .lenextCont else .lenextEnd b) s = (lenextOp b s).outcome giveNum := by
  split
  · subst_vars; rfl
  · rfl

theorem afterExt_lenext (done : State → State) (b : Byte) (s : State) :
    afterExt done (if b = 255#8 then .lenextCont else .lenextEnd b) s = if b = 255#8 then s else done s := by
  by_cases hb : b = 255#8 <;> simp [afterExt, hb]

/-- The state after an extension byte. -/
def State.addExt (b : Byte) (s : State) : State := { s with ip := s.ip + 1, lenAcc := s.lenAcc + b.toNat }

theorem lenextOp_overflow {b : Byte} {s : State} (h : s.lenAcc + b.toNat + s.lenBias > room s) :
    lenextOp b s = .err .lengthOverflow (s.addExt b) := if_pos h

theorem lenextOp_ok {b : Byte} {s : State} (h : ¬ s.lenAcc + b.toNat + s.lenBias > room s) :
    lenextOp b s = .ok (s.lenAcc + b.toNat) (s.addExt b) := if_neg h

/-- The extension bytes of a length, one a step, come to what their scan says; `s₀` stands where the scan began. -/
theorem finishes_lenext {ext : Ctl} {done : State → State} {a : Answer} {s₀ : State}
    (hline : ∀ t : State, t.ctl = ext → engineStep t = fieldStep .lenext (afterExt done) t) {bs : List Byte} {used : Nat}
    {s : State} (hl : Live s bs) (hc : s.ctl = ext) (hs : Alike { s₀ with ip := s₀.ip + used } s)
    (h : (scanRes (scanExt s.lenBias (room s₀) s.lenAcc used bs) s₀).Leads a fun n t =>
      t.lenAcc = n → Finishes (done t) a) : Finishes s a := by
  induction bs generalizing s used with
  | nil =>
    obtain rfl := h
    exact hl.finishes_fieldStep_cut (hline s hc) rfl
  | cons b bs ih =>
    have hroom : room s₀ = room s := by obtain ⟨_, _, _, _, rfl⟩ := hs; rfl
    have hnext : ∀ m, Alike { s₀ with ip := s₀.ip + (used + 1) } (giveNum m (s.addExt b)) := fun m => by
      obtain ⟨_, _, _, _, rfl⟩ := hs; exact ⟨_, _, _, _, rfl⟩
    have hexec := exec_lenext b s
    rw [scanExt] at h
    by_cases hover : s.lenAcc + b.toNat + s.lenBias > room s
    · rw [if_pos (hroom ▸ hover)] at h
      obtain rfl := h
      rw [lenextOp_overflow hover, Res.outcome_err] at hexec
      exact hl.finishes_fieldStep_raise (hline s hc) rfl hexec rfl
    · rw [if_neg (hroom ▸ hover)] at h
      rw [lenextOp_ok hover, Res.outcome_ok] at hexec
      refine hl.finishes_fieldStep (hline s hc) rfl hexec hl.busy ?_
      rw [afterExt_lenext]
      by_cases hb : b = 255#8
      · rw [if_pos hb] at h ⊢
        exact ih ⟨hl.busy, hl.quiet, hl.stream.move (xs := [b]) rfl rfl rfl rfl rfl⟩ hc (hnext _) h
      · rw [if_neg hb] at h ⊢
        exact h _ (hnext _) rfl

/-- A length, its selector and its extension bytes one a step, comes to what `DECODE_LENGTH` answers (R123). -/
theorem finishes_lenHead {sel bias : Nat} {ext : Ctl} {done : State → State} {bs : List Byte} {a : Answer} {s : State}
    (hext : ∀ t : State, t.ctl = ext → engineStep t = fieldStep .lenext (afterExt done) t) (hl : Live s bs)
    (hline : engineStep s = lenHead sel bias ext done s)
    (h : (takeLen sel bias (room s) bs s).Leads a fun n t => t.lenAcc = n → Finishes (done t) a) : Finishes s a := by
  rw [takeLen_eq_scan, scanLength] at h
  rw [lenHead] at hline
  split at h
  · rename_i hover
    obtain rfl := h
    rw [if_pos hover] at hline
    exact hl.finishes_of_raise (by rfl) hline
  · rename_i hfit
    rw [if_neg hfit] at hline
    split at h
    · rename_i hsel
      rw [if_pos hsel] at hline
      exact hl.finishes hline (finishes_lenext hext (hl.alike ⟨_, _, _, _, rfl⟩) rfl ⟨_, _, _, _, rfl⟩ h)
    · rename_i hsel
      rw [if_neg hsel] at hline
      exact hl.finishes hline (h _ ⟨_, _, _, _, rfl⟩ rfl)

/-- The state after literals are taken (R220). -/
def State.tookLits (s : State) (lits : List Byte) : State := { s.wrote lits with ip := s.ip + lits.length }

theorem State.tookLits_cons (s : State) (b : Byte) (lits : List Byte) :
    s.tookLits (b :: lits) = (s.tookLits [b]).tookLits lits := by
  rw [State.tookLits, State.wrote_cons, List.length_cons, Nat.add_comm lits.length, ← Nat.add_assoc]; rfl

theorem Alike.tookLits {s t : State} (h : Alike s t) (lits : List Byte) : Alike (s.tookLits lits) (t.tookLits lits) := by
  obtain ⟨_, _, _, _, rfl⟩ := h; exact ⟨_, _, _, _, rfl⟩

/-- The literals, one a step, end where they are all taken at once. -/
theorem finishes_literals {g : Grain} {a : Answer} {lits rest : List Byte} {s : State} (hl : Live s (lits ++ rest))
    (hg : s.grain = g) (hc : s.ctl = .literals lits.length) (hfit : s.op + lits.length ≤ maxCsize s.cfg ∨ lits = [])
    (h : ∀ t, Alike (s.tookLits lits) t → LineByLine g .endTest t a) : Finishes s a := by
  induction lits generalizing s with
  | nil =>
    exact hl.finishes (engineStep_at_literals_zero hc) (h _ ⟨_, _, _, _, rfl⟩ hg rfl)
  | cons b lits ih =>
    have hfit : s.op + 1 + lits.length ≤ maxCsize s.cfg := by
      rcases hfit with hfit | hfit
      · rw [List.length_cons] at hfit; omega
      · cases hfit
    have hexec : exec (.literal b) s = .next (s.tookLits [b]) := by
      show (takeLits [b] s).outcome quiet = _
      rw [takeLits_ok (by rw [List.length_singleton]; omega)]; rfl
    have hlive : Live { s.tookLits [b] with ctl := .literals lits.length } (lits ++ rest) :=
      ⟨hl.busy, hl.quiet, hl.stream.move (xs := [b]) rfl rfl rfl rfl rfl⟩
    refine hl.finishes_fieldStep (engineStep_at_literals_succ hc) rfl hexec hl.busy
      (ih hlive hg rfl (.inl hfit) fun t ht => h t ?_)
    rw [State.tookLits_cons]
    exact .trans (.tookLits ⟨_, _, _, _, rfl⟩ lits) ht

/-- A length read as `lenHead` and its extension bytes, where the operation stores what `takeLen` answers. -/
theorem follows_of_lenHead {c ext next : Ctl} {sel : State → Nat} {bias : Nat} {done : State → State}
    {store : Nat → State → State} {op : State → Res Unit}
    (hline : ∀ s : State, s.grain = .field → s.ctl = c → engineStep s = lenHead (sel s) bias ext done s)
    (hext : ∀ s : State, s.ctl = ext → engineStep s = fieldStep .lenext (afterExt done) s)
    (hop : ∀ s bs, StreamAt s bs → op s = (takeLen (sel s) bias (room s) bs s).bind fun n s => .ok () (store n s))
    (hdone : ∀ {u t : State}, Alike u t → Alike (store t.lenAcc u) (done t))
    (hkeep : ∀ t, (done t).grain = t.grain ∧ (done t).ctl = next) : Follows (LineByLine .field) c op next := by
  intro s bs a hl h hg hc
  refine finishes_lenHead hext hl (hline s hg hc) ?_
  have hframe := decFrame_takeLen (sel s) bias (room s) bs s
  rw [hop s bs hl.stream] at h
  cases hlen : takeLen (sel s) bias (room s) bs s with
  | ok n u =>
    rw [hlen] at h hframe
    rintro t ht rfl
    exact h _ (hdone ht) ((hkeep t).1.trans (ht.grain.trans (hframe.grain.trans hg))) (hkeep t).2
  | err e u => rw [hlen] at h; exact h
  | fault f => rw [hlen] at h; exact h

theorem field_readLitlen : Follows (LineByLine .field) .readLitlen readLitlenOp .copyLiterals :=
  follows_of_lenHead (store := fun n s => { s with litlen := n })
    (fun _ hg hc => (engineStep_at_readLitlen hc).trans (if_pos hg)) (fun _ hc => engineStep_at_litExt hc)
    (fun s bs h => by rw [readLitlenOp, h.restIn_eq]; rfl)
    (fun h => by obtain ⟨_, _, _, _, rfl⟩ := h; exact ⟨_, _, _, _, rfl⟩) fun _ => ⟨rfl, rfl⟩

theorem field_readMatchlen : Follows (LineByLine .field) .readMatchlen readMatchlenOp .copyMatch :=
  follows_of_lenHead (store := fun n s => { s with mlen := n + 4 })
    (fun _ hg hc => (engineStep_at_readMatchlen hc).trans (if_pos hg)) (fun _ hc => engineStep_at_matchExt hc)
    (fun s bs h => by rw [readMatchlenOp, h.restIn_eq]; rfl)
    (fun h => by obtain ⟨_, _, _, _, rfl⟩ := h; exact ⟨_, _, _, _, rfl⟩) fun _ => ⟨rfl, rfl⟩

theorem field_copyLiterals : Follows (LineByLine .field) .copyLiterals copyLiteralsOp .endTest := by
  intro s bs a hl h hg hc
  have hline : engineStep s = if bs.length < s.litlen then .next (raise .truncatedInput s)
      else .next { s with ctl := .literals s.litlen } :=
    ((engineStep_at_copyLiterals hc).trans (if_pos hg)).trans (hl.stream.withRest_eq _)
  rw [copyLiteralsOp, hl.stream.restIn_eq, Res.bind_ok] at h
  split at h
  · rename_i hshort
    obtain rfl := h
    exact hl.finishes_of_raise rfl (hline.trans (if_pos hshort))
  · rename_i hlong
    refine hl.finishes (hline.trans (if_neg hlong)) ?_
    have hlen : (bs.take s.litlen).length = s.litlen := by rw [List.length_take]; omega
    have hlive : Live { s with ctl := .literals s.litlen } (bs.take s.litlen ++ bs.drop s.litlen) := by
      rw [List.take_append_drop]; exact hl.alike ⟨_, _, _, _, rfl⟩
    generalize bs.take s.litlen = lits at h hlen hlive
    cases happ : appendAll lits s with
    | ok x u =>
      rw [takeLits, happ] at h
      obtain ⟨rfl, hfit⟩ := appendAll_inv happ
      refine finishes_literals hlive hg (by rw [hlen]) hfit fun t ht => h t ?_
      exact .trans ⟨_, _, _, _, rfl⟩ ht
    | err e u => exact absurd happ (appendAll_ne_err _ _ _ _)
    | fault f => rw [takeLits, happ] at h; exact h.elim

theorem field_readOffset : Follows (LineByLine .field) .readOffset readOffsetOp .readMatchlen := by
  intro s bs a hl h hg hc
  have hline : engineStep s = fieldStep .offset (fun _ s => { s with ctl := .readMatchlen }) s :=
    (engineStep_at_readOffset hc).trans (if_pos hg)
  rw [readOffsetOp, hl.stream.restIn_eq, Res.bind_ok] at h
  match bs with
  | [] => obtain rfl := h; exact hl.finishes_fieldStep_cut hline rfl
  | [_] => obtain rfl := h; exact hl.finishes_fieldStep_cut hline rfl
  | b0 :: b1 :: rest =>
    have hexec : exec (.offset (offsetOf b0 b1)) s = (takeOffset (offsetOf b0 b1) s).outcome quiet := rfl
    have hframe := decFrame_takeOffset (offsetOf b0 b1) s
    simp only at h
    cases hoff : takeOffset (offsetOf b0 b1) s with
    | ok x u =>
      rw [hoff] at h hexec hframe
      exact hl.finishes_fieldStep hline rfl hexec (hframe.status.trans hl.busy)
        (h _ ⟨_, _, _, _, rfl⟩ (hframe.grain.trans hg) rfl)
    | err e u =>
      rw [hoff] at h hexec hframe
      obtain rfl := h
      exact hl.finishes_fieldStep_raise hline rfl hexec hframe.host
    | fault f => rw [hoff] at h; exact h.elim

theorem field_runsInOrder : RunsInOrder (LineByLine .field) where
  fetchToken := follows_of_opStep (fun _ _ hc => engineStep_at_fetchToken hc) (fun _ => rfl) decFrame_fetchToken
  readLitlen := field_readLitlen
  copyLiterals := field_copyLiterals
  final := lineByLine_final _
  more := lineByLine_more _
  readOffset := field_readOffset
  readMatchlen := field_readMatchlen
  copyMatch := follows_of_opStep (fun _ hg hc => by rw [engineStep_at_copyMatch hc, hg]; rfl) (fun _ => rfl)
    decFrame_copyMatch

end Sys2Proof.Machine
end

section
/-! SUPPORT. The reference reading of a stream (`expand`) is what a decompression answers that runs the operations of R205 in
their order. -/

namespace Sys2Proof.Machine

/-! ### The reference reading, by the operations of R205 -/

/-- The reference reading from the match length on; the literals are in `out`, and `off` has been checked. -/
def expandMatchlen (limit fuel : Nat) (t : Byte) (off : Half) (out cs : List Byte) : Answer :=
  match scanLength (matchSel t) 4 (limit - out.length) cs with
  | .overflow _ => .error .lengthOverflow
  | .truncated _ => .error .truncatedInput
  | .value m v => expandFrom limit fuel (cs.drop v) (copyBack (m + 4) off.toNat out)

/-- The reference reading after the literals. -/
def expandEnd (limit fuel : Nat) (t : Byte) (out : List Byte) : List Byte → Answer
  | [] => .ok out
  | [_] => .error .truncatedInput
  | b0 :: b1 :: cs =>
    if offsetOf b0 b1 = 0#16 ∨ (offsetOf b0 b1).toNat > out.length then .error .invalidOffset
    else expandMatchlen limit fuel t (offsetOf b0 b1) out cs

/-- The reference reading from the `l` literals on. -/
def expandLits (limit fuel : Nat) (t : Byte) (l : Nat) (out bs : List Byte) : Answer :=
  if bs.length < l then .error .truncatedInput else expandEnd limit fuel t (out ++ bs.take l) (bs.drop l)

/-- The reference reading after the token byte. -/
def expandLitlen (limit fuel : Nat) (t : Byte) (out bs : List Byte) : Answer :=
  match scanLength (litSel t) 0 (limit - out.length) bs with
  | .overflow _ => .error .lengthOverflow
  | .truncated _ => .error .truncatedInput
  | .value l u => expandLits limit fuel t l out (bs.drop u)

theorem expandFrom_cons (limit fuel : Nat) (t : Byte) (bs out : List Byte) :
    expandFrom limit (fuel + 1) (t :: bs) out = expandLitlen limit fuel t out bs := by
  rw [expandFrom, expandLitlen]
  cases scanLength (litSel t) 0 (limit - out.length) bs with
  | overflow u => rfl
  | truncated u => rfl
  | value l u =>
    simp only [expandLits]
    by_cases hl : (bs.drop u).length < l
    · rw [if_pos hl, if_pos hl]
    · rw [if_neg hl, if_neg hl]
      have hout : (out ++ (bs.drop u).take l).length = out.length + l := by
        rw [List.length_append, List.length_take]; omega
      match (bs.drop u).drop l with
      | [] => rfl
      | [_] => rfl
      | b0 :: b1 :: cs => rewrite [expandEnd, expandMatchlen, hout]; rfl

/-! ### The match copy on lists -/

theorem State.outRun_wrote (s : State) (vs : List Byte) :
    (s.wrote vs).outRun 0 (s.op + vs.length) = s.outRun 0 s.op ++ vs := by
  rw [State.outRun_add, Nat.zero_add, State.wrote_outRun]
  congr 1
  exact State.outRun_congr fun i hi => by rw [Nat.zero_add, State.wrote_outAt_below _ _ hi]

/-- The loop of `COPY_MATCH` in bounds is the copy inside a list. -/
theorem copyFrom_eq_copyBack {n off : Nat} {s : State} (h0 : 1 ≤ off) (h1 : off ≤ s.op)
    (h2 : s.op + n ≤ maxCsize s.cfg) :
    ∃ vs : List Byte, copyFrom n (s.op - off) s = .ok () (s.wrote vs) ∧ vs.length = n ∧
      copyBack n off (s.outRun 0 s.op) = s.outRun 0 s.op ++ vs := by
  induction n generalizing s with
  | zero => exact ⟨[], rfl, rfl, by rw [copyBack, List.append_nil]⟩
  | succ n ih =>
    generalize hb : s.outAt (s.op - off) = b
    have hread : (s.outRun 0 s.op).getD ((s.outRun 0 s.op).length - off) 0#8 = b := by
      rw [List.getD_eq_getElem _ _ (by rw [State.outRun_length]; omega), State.outRun_getElem, State.outRun_length,
        Nat.zero_add, hb]
    obtain ⟨vs, hcopy, hlen, hback⟩ := ih (s := s.wrote [b]) (by rw [State.wrote_op]; omega)
      (by rw [State.wrote_op, State.wrote_cfg, List.length_singleton]; omega)
    have hsrc : (s.wrote [b]).op - off = s.op - off + 1 := by rw [State.wrote_op, List.length_singleton]; omega
    refine ⟨b :: vs, ?_, by rw [List.length_cons, hlen], ?_⟩
    · rw [copyFrom, readOut, if_pos (by omega), Res.bind_ok, hb, append_eq_wrote (by omega), Res.bind_ok, ← hsrc, hcopy,
        ← State.wrote_cons]
    · rw [copyBack, hread, ← State.outRun_wrote, ← State.wrote_op, hback, State.wrote_op, State.outRun_wrote,
        List.append_assoc, List.singleton_append]

/-! ### A decompression reads a stream -/

/-- A decompression with this limit stands before the bytes `bs`, has made the bytes `out`, and has no error. -/
structure Reading (limit : Nat) (s : State) (bs out : List Byte) : Prop extends Live s bs where
  noErr : s.err = none
  made : s.outRun 0 s.op = out
  lim : s.lim = limit
  output : s.op ≤ limit
  legal : limit ≤ s.cfg.maxSize

theorem Reading.op_eq {limit : Nat} {s : State} {bs out : List Byte} (h : Reading limit s bs out) : s.op = out.length := by
  rw [← h.made, State.outRun_length]

/-- Bytes consumed, and the decoder's registers with any values. -/
theorem Reading.skip {limit n : Nat} {s t : State} {bs out : List Byte} (h : Reading limit s bs out) (hn : n ≤ bs.length)
    (ht : t = { s with
      ip := s.ip + n, tok := t.tok, litlen := t.litlen, off := t.off, mlen := t.mlen, ctl := t.ctl, ret := t.ret,
      lenAcc := t.lenAcc, lenBias := t.lenBias }) :
    Reading limit t (bs.drop n) out := by
  have hstream : StreamAt s (bs.take n ++ bs.drop n) := by rw [List.take_append_drop]; exact h.stream
  rw [ht]
  exact ⟨⟨h.busy, h.quiet, hstream.move rfl rfl rfl rfl (by rw [List.length_take, Nat.min_eq_left hn])⟩, h.noErr,
    by rw [← h.made]; exact State.outRun_congr fun _ _ => rfl, h.lim, h.output, h.legal⟩

theorem Reading.alike {limit : Nat} {s t : State} {bs out : List Byte} (h : Reading limit s bs out) (ht : Alike s t) :
    Reading limit t bs out := by
  obtain ⟨_, _, _, _, rfl⟩ := ht
  exact h.skip (n := 0) (Nat.zero_le _) rfl

/-- Bytes appended within the limit. -/
theorem Reading.wrote {limit : Nat} {s : State} {bs out vs : List Byte} (h : Reading limit s bs out)
    (hfit : s.op + vs.length ≤ limit) : Reading limit (s.wrote vs) bs (out ++ vs) :=
  ⟨⟨h.busy, h.quiet, h.stream.move (xs := []) rfl rfl rfl rfl rfl⟩, h.noErr,
    by rw [State.wrote_op, State.outRun_wrote, h.made], h.lim, hfit, h.legal⟩

theorem Reading.inBounds {limit : Nat} {s : State} {bs out : List Byte} (h : Reading limit s bs out) :
    limit ≤ maxCsize s.cfg := le_trans h.legal (maxSize_lt_maxCsize s.cfg).le

/-! ### Operation by operation -/

section
variable {F : Ctl → State → Answer → Prop} {limit fuel : Nat} {s : State} {bs out : List Byte}

/-- From a token byte on the answer is the reference reading, within this fuel. -/
def ReadsOn (F : Ctl → State → Answer → Prop) (limit fuel : Nat) : Prop :=
  ∀ {s : State} {bs out : List Byte}, Reading limit s bs out → bs.length < fuel →
    F .fetchToken s (expandFrom limit fuel bs out)

theorem expand_copyMatch (D : RunsInOrder F) (K : ReadsOn F limit fuel) (h : Reading limit s bs out) (ho : OffsetValid s)
    (hm : s.mlen ≤ room s) (hf : bs.length < fuel) :
    F .copyMatch s (expandFrom limit fuel bs (copyBack s.mlen s.off.toNat out)) := by
  obtain ⟨h0, h1⟩ := ho
  have hfit : s.op + s.mlen ≤ limit := by have := h.output; have := h.lim; rw [room] at hm; omega
  obtain ⟨vs, hcopy, hlen, hback⟩ := copyFrom_eq_copyBack h0 h1 (hfit.trans h.inBounds)
  refine D.copyMatch h.toLive ?_
  rw [copyMatchOp, if_neg (by omega), hcopy, ← h.made, hback, h.made]
  exact fun t ht => K ((h.wrote (by rw [hlen]; exact hfit)).alike ht) hf

theorem expand_readMatchlen (D : RunsInOrder F) (K : ReadsOn F limit fuel) (h : Reading limit s bs out)
    (ho : OffsetValid s) (hf : bs.length < fuel) : F .readMatchlen s (expandMatchlen limit fuel s.tok s.off out bs) := by
  refine D.readMatchlen h.toLive ?_
  have hroom : room s = limit - out.length := by rw [room, h.lim, h.op_eq]
  rw [readMatchlenOp, h.stream.restIn_eq, Res.bind_ok, takeMatchlen, takeLen_eq_scan, hroom, expandMatchlen]
  cases hscan : scanLength (matchSel s.tok) 4 (limit - out.length) bs with
  | overflow u => rfl
  | truncated u => rfl
  | value m v =>
    obtain ⟨hfit, hv, -⟩ := scanLength_value hscan
    rw [← hroom] at hfit
    rintro _ ⟨_, _, _, _, rfl⟩
    exact expand_copyMatch D K (h.skip hv rfl) ho hfit (by rw [List.length_drop]; omega)

theorem expand_readOffset (D : RunsInOrder F) (K : ReadsOn F limit fuel) (h : Reading limit s bs out) (hbs : bs ≠ [])
    (hf : bs.length ≤ fuel) : F .readOffset s (expandEnd limit fuel s.tok out bs) := by
  refine D.readOffset h.toLive ?_
  rw [readOffsetOp, h.stream.restIn_eq, Res.bind_ok]
  match bs with
  | [] => exact absurd rfl hbs
  | [_] => rfl
  | b0 :: b1 :: cs =>
    show (takeOffset (offsetOf b0 b1) s).Leads _ _
    rw [expandEnd, ← h.op_eq]
    by_cases hbad : offsetOf b0 b1 = 0#16 ∨ (offsetOf b0 b1).toNat > s.op
    · rw [takeOffset_invalid hbad, if_pos hbad]; rfl
    · have hpos : 1 ≤ (offsetOf b0 b1).toNat := by
        have := mt (half_eq_zero _).2 fun h0 => hbad (.inl h0)
        omega
      have hback : (offsetOf b0 b1).toNat ≤ s.op := by omega
      rw [takeOffset_ok hpos hback, if_neg hbad]
      rintro _ ⟨_, _, _, _, rfl⟩
      simp only [List.length_cons] at hf
      exact expand_readMatchlen D K (h.skip (n := 2) (by simp) rfl) ⟨hpos, hback⟩
        (show cs.length < fuel by omega)

theorem expand_endTest (D : RunsInOrder F) (K : ReadsOn F limit fuel) (h : Reading limit s bs out)
    (hf : bs.length ≤ fuel) : F .endTest s (expandEnd limit fuel s.tok out bs) := by
  have hlen := h.stream.length_eq
  cases bs with
  | nil =>
    refine D.final h.toLive (by simpa [endTest] using hlen) fun t ht => ?_
    have ht := h.alike ht
    rw [expandEnd, ← ht.made]
    exact finishes_finish ht.quiet ht.noErr
  | cons b bs =>
    refine D.more h.toLive (by simp [endTest] at hlen ⊢; omega) ?_
    rintro _ ⟨_, _, _, _, rfl⟩
    exact expand_readOffset D K (h.alike ⟨_, _, _, _, rfl⟩) (by simp) hf

theorem expand_copyLiterals (D : RunsInOrder F) (K : ReadsOn F limit fuel) (h : Reading limit s bs out)
    (hl : s.litlen ≤ room s) (hf : bs.length ≤ fuel) :
    F .copyLiterals s (expandLits limit fuel s.tok s.litlen out bs) := by
  refine D.copyLiterals h.toLive ?_
  rw [copyLiteralsOp, h.stream.restIn_eq, Res.bind_ok, expandLits]
  by_cases hshort : bs.length < s.litlen
  · rw [if_pos hshort, if_pos hshort]; rfl
  · have hlen : (bs.take s.litlen).length = s.litlen := by rw [List.length_take]; omega
    have hfit : s.op + (bs.take s.litlen).length ≤ limit := by
      have := h.output; have := h.lim; rw [room] at hl; omega
    rw [if_neg hshort, if_neg hshort, takeLits_ok (hfit.trans h.inBounds), Res.bind_ok]
    rintro _ ⟨_, _, _, _, rfl⟩
    refine expand_endTest D K ((h.wrote hfit).skip (by omega) ?_) (by rw [List.length_drop]; omega)
    rw [hlen]; rfl

theorem expand_readLitlen (D : RunsInOrder F) (K : ReadsOn F limit fuel) (h : Reading limit s bs out)
    (hf : bs.length ≤ fuel) : F .readLitlen s (expandLitlen limit fuel s.tok out bs) := by
  refine D.readLitlen h.toLive ?_
  have hroom : room s = limit - out.length := by rw [room, h.lim, h.op_eq]
  rw [readLitlenOp, h.stream.restIn_eq, Res.bind_ok, takeLitlen, takeLen_eq_scan, hroom, expandLitlen]
  cases hscan : scanLength (litSel s.tok) 0 (limit - out.length) bs with
  | overflow u => rfl
  | truncated u => rfl
  | value l u =>
    obtain ⟨hfit, hu, -⟩ := scanLength_value hscan
    rw [← hroom] at hfit
    rintro _ ⟨_, _, _, _, rfl⟩
    exact expand_copyLiterals D K (h.skip hu rfl) hfit (by rw [List.length_drop]; omega)

/-- R224: sequence by sequence, the answer is the reference reading. -/
theorem RunsInOrder.readsOn (D : RunsInOrder F) (limit fuel : Nat) : ReadsOn F limit fuel := by
  induction fuel with
  | zero => exact fun _ hf => absurd hf (Nat.not_lt_zero _)
  | succ fuel ih =>
    intro s bs out h hf
    refine D.fetchToken h.toLive ?_
    rw [fetchTokenOp, h.stream.restIn_eq, Res.bind_ok]
    cases bs with
    | nil => rfl
    | cons t bs =>
      rw [expandFrom_cons]
      rintro _ ⟨_, _, _, _, rfl⟩
      exact expand_readLitlen D ih (h.skip (n := 1) (by simp) rfl) (Nat.le_of_lt_succ (Nat.lt_of_succ_lt hf))

end

/-! ### From the start to the answer -/

theorem reading_beginDecompress {s : State} (hs : Ready s) (hin : s.inLen ≤ maxCsize s.cfg)
    (hout : s.outLimit ≤ s.cfg.maxSize) : Reading s.outLimit (beginDecompress s) (s.inRun 0 s.inLen) [] :=
  ⟨⟨rfl, hs.2, Nat.zero_le _, hin, State.inRun_congr fun _ _ => rfl⟩, rfl, rfl, rfl, Nat.zero_le _, hout⟩

/-- R224, at every grain: a decompression started finishes with the reference reading of its input. -/
theorem beginDecompress_finishes {s : State} (hs : Ready s) (hin : s.inLen ≤ maxCsize s.cfg)
    (hout : s.outLimit ≤ s.cfg.maxSize) :
    Finishes (beginDecompress s) (expand s.outLimit (s.inRun 0 s.inLen)) := by
  have h := reading_beginDecompress hs hin hout
  have hf := Nat.lt_succ_self (s.inRun 0 s.inLen).length
  cases hg : s.grain with
  | sequence => exact wholeSequence_runsInOrder.readsOn _ _ h hf hg (by rw [beginDecompress_ctl, hg]; rfl)
  | operation => exact operation_runsInOrder.readsOn _ _ h hf hg (by rw [beginDecompress_ctl, hg]; rfl)
  | field => exact field_runsInOrder.readsOn _ _ h hf hg (by rw [beginDecompress_ctl, hg]; rfl)

/-- What DECOMPRESS answers, at every grain: within the contract of R251 the reference reading of its input and nothing else,
outside it nothing. -/
theorem answers_decompress_iff {s : State} {r : Answer} (hs : Ready s) :
    Answers .decompress s r ↔ (s.inLen ≤ maxCsize s.cfg ∧ s.outLimit ≤ s.cfg.maxSize) ∧
      r = expand s.outLimit (s.inRun 0 s.inLen) := by
  have hexec : exec .decompress s = execDecompress s := rfl
  rw [execDecompress, startWhen, if_neg hs.1] at hexec
  by_cases hlegal : s.inLen ≤ maxCsize s.cfg ∧ s.outLimit ≤ s.cfg.maxSize
  · rw [if_pos hlegal] at hexec
    rw [← (beginDecompress_finishes hs hlegal.1 hlegal.2).reaches_iff]
    constructor
    · rintro ⟨t, u, ht, hu, he⟩
      rw [hexec] at ht
      cases ht
      exact ⟨hlegal, u, hu, he⟩
    · rintro ⟨-, u, hu, he⟩
      exact ⟨_, u, hexec, hu, he⟩
  · rw [if_neg hlegal] at hexec
    constructor
    · rintro ⟨t, u, ht, -⟩
      rw [hexec] at ht
      cases ht
    · exact fun h => absurd h.1 hlegal

/-- Settles O55: at every grain the answer is the reference reading of the input, which does not mention the grain. -/
theorem grainsAgree : Obligations.GrainsAgree := by
  unfold Obligations.GrainsAgree
  intro s g r hs
  have hin : ({ s with grain := g } : State).inRun 0 s.inLen = s.inRun 0 s.inLen :=
    State.inRun_congr fun _ _ => rfl
  rw [answers_decompress_iff hs, answers_decompress_iff (s := { s with grain := g }) hs, hin]

end Sys2Proof.Machine
end

section
/-! SUPPORT. The host's port: what each move of the host can do to the state, said once. -/

namespace Sys2Proof.Machine

/-- A move that is no wait is made in one step. -/
theorem step_eq_hostTurn {s : State} {m : HostMove} {rest : List HostMove} (h : s.host = m :: rest) (hm : m ≠ .wait) :
    step s = hostTurn m { s with host := rest } := by
  cases m <;> simp [step, h] at hm ⊢

/-- A wait while BUSY leaves the step to the engine. -/
theorem step_wait_busy {s : State} {rest : List HostMove} (h : s.host = .wait :: rest) (hb : s.status = .busy) :
    step s = engineStep s := step_eq_engineStep hb (.inr ⟨rest, h⟩)

/-- A wait is over where no operation runs. -/
theorem step_wait_idle {s : State} {rest : List HostMove} (h : s.host = .wait :: rest) (hb : s.status ≠ .busy) :
    step s = .next { s with host := rest } := by simp only [step, h, if_neg hb]

/-- R311: with no operation and no move of the host, nothing happens. -/
theorem step_idle {s : State} (h : s.host = []) (hb : s.status ≠ .busy) : step s = .next s := by
  simp only [step, h, engineTurn, if_neg hb]

theorem unlessBusy_idle {s : State} (hb : s.status ≠ .busy) (o : Host.Outcome State Fault Refusal) :
    unlessBusy s o = o := if_neg hb

theorem ifFits_ok {v : Nat} {s t : State} (h : v < 2 ^ posW s.cfg) : ifFits v s t = .next t := if_pos h

/-- An access that is legal only while no operation runs answers only then. -/
theorem unlessBusy_inv {s t : State} {o : Host.Outcome State Fault Refusal} (h : unlessBusy s o = .next t) :
    s.status ≠ .busy ∧ o = .next t := by
  rw [unlessBusy] at h
  split at h
  · cases h
  · exact ⟨‹_›, h⟩

theorem ifFits_inv {v : Nat} {s t u : State} (h : ifFits v s t = .next u) : v < 2 ^ posW s.cfg ∧ u = t := by
  rw [ifFits] at h
  split at h
  · cases h; exact ⟨‹_›, rfl⟩
  · cases h

/-- A command that answers has no effect, or starts an operation inside its contract (R251, R253, R254). -/
inductive CommandEffect (s : State) : State → Prop
  | none : CommandEffect s s
  | compress (idle : s.status ≠ .busy) (legal : s.inLen ≤ s.cfg.maxSize) : CommandEffect s (beginCompress s)
  | decompress (idle : s.status ≠ .busy) (legal : s.inLen ≤ maxCsize s.cfg) (limit : s.outLimit ≤ s.cfg.maxSize) :
      CommandEffect s (beginDecompress s)

/-- A start answers while BUSY, with no effect, and else only inside the contract. -/
theorem startWhen_inv {legal : Prop} [Decidable legal] {b : State → State} {s t : State}
    (h : startWhen legal b s = .next t) : t = s ∨ (s.status ≠ .busy ∧ legal ∧ t = b s) := by
  rw [startWhen] at h
  split at h
  · cases h; exact .inl rfl
  · split at h
    · cases h; exact .inr ⟨‹_›, ‹_›, rfl⟩
    · cases h

theorem commandEffect_decompress {s t : State}
    (h : startWhen (s.inLen ≤ maxCsize s.cfg ∧ s.outLimit ≤ s.cfg.maxSize) beginDecompress s = .next t) :
    CommandEffect s t := by
  rcases startWhen_inv h with rfl | ⟨hb, ⟨hin, hout⟩, rfl⟩
  · exact .none
  · exact .decompress hb hin hout

theorem exec_decodeCommand_inv {op : BitVec 2} {s t : State} (h : exec (decodeCommand op) s = .next t) :
    CommandEffect s t := by
  rw [decodeCommand] at h
  split at h
  · cases h; exact .none
  · rcases startWhen_inv (show startWhen _ _ s = .next t from h) with rfl | ⟨hb, hl, rfl⟩
    · exact .none
    · exact .compress hb hl.1
  · exact commandEffect_decompress h
  · exact commandEffect_decompress h

/-- What a move of the host does where it answers a next state (R31, R41, R42, R253, R310). -/
inductive HostEffect (s : State) : HostMove → State → Prop
  | command {t : State} (v : Nat) (h : exec (decodeCommand (BitVec.ofNat 2 v)) s = .next t) :
      HostEffect s (.write .cmd v) t
  | reset : HostEffect s .reset (hostReset s)
  | looked (m : HostMove) (d : Option Nat) : HostEffect s m { s with hostData := d }
  | inLen (v : Nat) (idle : s.status ≠ .busy) (fits : v < 2 ^ posW s.cfg) :
      HostEffect s (.write .inLen v) { s with inLen := v }
  | outLimit (v : Nat) (idle : s.status ≠ .busy) (fits : v < 2 ^ posW s.cfg) :
      HostEffect s (.write .outLimit v) { s with outLimit := v }
  | sizeHint (v : Nat) (idle : s.status ≠ .busy) (fits : v < 2 ^ posW s.cfg) :
      HostEffect s (.write .sizeHint v) { s with sizeHint := v }
  | input (p : Nat) (b : Byte) (idle : s.status ≠ .busy) (inside : p < maxCsize s.cfg) :
      HostEffect s (.writeIn p b) { s with inMem := Cells.write s.inMem p b }

/-- A move that changes nothing. -/
theorem HostEffect.same (s : State) (m : HostMove) : HostEffect s m s := .looked m s.hostData

theorem hostWrite_inv {r : CReg} {v : Nat} {s t : State} (h : hostWrite r v s = .next t) :
    HostEffect s (.write r v) t := by
  cases r <;> simp only [hostWrite] at h
  case cmd =>
    split at h
    · exact .command v h
    · cases h
  case inLen =>
    obtain ⟨hb, h⟩ := unlessBusy_inv h
    obtain ⟨hv, rfl⟩ := ifFits_inv h
    exact .inLen v hb hv
  case outLimit =>
    obtain ⟨hb, h⟩ := unlessBusy_inv h
    obtain ⟨hv, rfl⟩ := ifFits_inv h
    exact .outLimit v hb hv
  case sizeHint =>
    obtain ⟨hb, h⟩ := unlessBusy_inv h
    obtain ⟨hv, rfl⟩ := ifFits_inv h
    exact .sizeHint v hb hv
  all_goals
    obtain ⟨-, h⟩ := unlessBusy_inv h
    cases h
    exact .same s _

theorem hostRead_inv {r : CReg} {s t : State} (h : hostRead r s = .next t) : HostEffect s (.read r) t := by
  rw [hostRead] at h
  split at h
  · cases h; exact .looked _ _
  · obtain ⟨-, h⟩ := unlessBusy_inv h
    cases h; exact .looked _ _

theorem hostWriteIn_inv {p : Nat} {b : Byte} {s t : State} (h : hostWriteIn p b s = .next t) :
    HostEffect s (.writeIn p b) t := by
  obtain ⟨hb, h⟩ := unlessBusy_inv h
  split at h
  · cases h; exact .input p b hb ‹_›
  · cases h

theorem hostReadOut_inv {p : Nat} {s t : State} (h : hostReadOut p s = .next t) : HostEffect s (.readOut p) t := by
  obtain ⟨-, h⟩ := unlessBusy_inv h
  split at h
  · cases h; exact .looked _ _
  · cases h

theorem hostTurn_inv {m : HostMove} {s t : State} (h : hostTurn m s = .next t) : HostEffect s m t := by
  cases m with
  | write r v => exact hostWrite_inv h
  | read r => exact hostRead_inv h
  | writeIn p b => exact hostWriteIn_inv h
  | readOut p => exact hostReadOut_inv h
  | wait => cases h; exact .same s _
  | reset => cases h; exact .reset

/-- Every step is the engine's line, a move of the host, or (with no operation) nothing or the end of a wait. -/
inductive StepKind (s : State) : State → Prop
  | engine {t : State} (idle : HostIdle s) (busy : s.status = .busy) (h : engineStep s = .next t) : StepKind s t
  | nothing (idle : s.status ≠ .busy) (h : s.host = []) : StepKind s s
  | waited (rest : List HostMove) (idle : s.status ≠ .busy) (h : s.host = .wait :: rest) :
      StepKind s { s with host := rest }
  | move {t : State} (m : HostMove) (rest : List HostMove) (h : s.host = m :: rest) (hm : m ≠ .wait)
      (effect : HostEffect { s with host := rest } m t) : StepKind s t

theorem step_inv {s t : State} (h : step s = .next t) : StepKind s t := by
  cases hh : s.host with
  | nil =>
    by_cases hb : s.status = .busy
    · exact .engine (.inl hh) hb ((step_eq_engineStep hb (.inl hh)).symm.trans h)
    · rw [step_idle hh hb] at h; cases h; exact .nothing hb hh
  | cons m rest =>
    by_cases hm : m = .wait
    · subst hm
      by_cases hb : s.status = .busy
      · exact .engine (.inr ⟨rest, hh⟩) hb ((step_wait_busy hh hb).symm.trans h)
      · rw [step_wait_idle hh hb] at h; cases h; exact .waited rest hb hh
    · rw [step_eq_hostTurn hh hm] at h
      exact .move m rest hh hm (hostTurn_inv h)

/-! ### What the host reads and writes while no operation runs -/

theorem Status.code_toNat (x : Status) :
    x.code.toNat = match x with | .idle => 0 | .busy => 1 | .done => 2 | .error => 3 := by
  cases x <;> rfl

theorem errCode_toNat (e : Option ErrKind) :
    (errCode e).toNat = match e with
      | none => 0 | some .truncatedInput => 1 | some .invalidOffset => 2 | some .lengthOverflow => 3 := by
  rcases e with _ | e
  · rfl
  · cases e <;> rfl

theorem hostRead_idle {s : State} (hb : s.status ≠ .busy) (r : CReg) :
    hostRead r s = .next { s with hostData := some (s.readReg r) } := by
  rw [hostRead, unlessBusy_idle hb, ite_self]

/-- Settles O5: each access is one host turn, whose guards (no operation, the width) hold. -/
theorem hostRegisterAccess : Obligations.HostRegisterAccess := by
  unfold Obligations.HostRegisterAccess
  intro s rest hb
  have hb' : ({ s with host := rest } : State).status ≠ .busy := hb
  refine ⟨fun v hv => ⟨fun h => ?_, fun h => ?_, fun h => ?_⟩, fun r v hr h => ?_, fun r h => ?_⟩
  · rw [step_eq_hostTurn h nofun]
    exact (unlessBusy_idle hb' _).trans (ifFits_ok hv)
  · rw [step_eq_hostTurn h nofun]
    exact (unlessBusy_idle hb' _).trans (ifFits_ok hv)
  · rw [step_eq_hostTurn h nofun]
    exact (unlessBusy_idle hb' _).trans (ifFits_ok hv)
  · rw [step_eq_hostTurn h nofun]
    rcases hr with rfl | rfl | rfl <;> exact unlessBusy_idle hb' _
  · rw [step_eq_hostTurn h nofun]
    refine (hostRead_idle hb' r).trans ?_
    refine congrArg (fun d => Host.Outcome.next { s with host := rest, hostData := some d }) ?_
    cases r with
    | status => exact s.status.code_toNat
    | err => exact errCode_toNat s.err
    | cmd | inLen | outLen | outLimit | sizeHint => rfl

theorem hostOutByte_result {p : Nat} {s : State} (h : s.status = .done ∧ p < s.outLen) : hostOutByte p s = s.outAt p :=
  if_pos h

theorem hostOutByte_free {p : Nat} {s : State} (h : ¬ (s.status = .done ∧ p < s.outLen)) :
    hostOutByte p s = Config.freeOut s.outEra p := if_neg h

/-- Settles O7: the position is in bounds and no operation runs, so the write is a cell write and the read is the byte
the host sees. -/
theorem hostWritesInputReadsResult : Obligations.HostWritesInputReadsResult := by
  unfold Obligations.HostWritesInputReadsResult
  intro s rest p hb hp
  have hb' : ({ s with host := rest } : State).status ≠ .busy := hb
  refine ⟨fun b h => ⟨{ s with host := rest, inMem := Cells.write s.inMem p b }, ?_, rfl, fun a => ?_⟩,
    fun h => ⟨hostOutByte p s, ?_, hostOutByte_result, hostOutByte_free⟩⟩
  · rw [step_eq_hostTurn h nofun]
    exact (unlessBusy_idle hb' _).trans (if_pos hp)
  · exact Cells.read_write s.inMem p a b
  · rw [step_eq_hostTurn h nofun]
    exact (unlessBusy_idle hb' _).trans (if_pos hp)

/-- The host sees the same byte of OUT where STATUS, the result and its era are the same. -/
theorem hostOutByte_congr {s t : State} (hst : t.status = s.status) (hl : t.outLen = s.outLen) (ho : t.out = s.out)
    (he : t.outEra = s.outEra) (p : Nat) : hostOutByte p t = hostOutByte p s := by
  simp only [hostOutByte, hst, hl, he, State.outAt_congr ho he]

/-- Settles O60: with no operation, no starting command and no reset, a step is a wait that is over or an access of the
host, and each of these is seen to write its own fields alone. -/
theorem resultPersists : Obligations.ResultPersists := by
  unfold Obligations.ResultPersists
  intro s t hb hcmd hreset h
  have key : t = { s with
      inLen := t.inLen, outLimit := t.outLimit, sizeHint := t.sizeHint, inMem := t.inMem
      host := s.host.tail, hostData := t.hostData } := by
    cases step_inv h with
    | engine _ hbusy _ => exact absurd hbusy hb
    | nothing _ hh => rw [hh]; cases s; cases hh; rfl
    | waited rest _ hh => rw [hh]; rfl
    | move m rest hh hm effect =>
      rw [hh, List.tail_cons]
      cases effect with
      | command v hexec =>
        obtain rfl := hcmd v rest hh
        cases hexec; rfl
      | reset => exact absurd hh (hreset rest)
      | looked | inLen | outLimit | sizeHint | input => rfl
  refine ⟨key, fun p => ?_⟩
  rw [key]
  exact hostOutByte_congr (by rfl) (by rfl) (by rfl) (by rfl) p

end Sys2Proof.Machine
end

section
/-! SUPPORT. What one line of each engine leaves alone, from any state: the frames of its operations carried through the
sequencers. -/

namespace Sys2Proof.Machine

/-! ### The parts of a sequencer's line -/

/-- A next state of an operation: its result delivered or its error raised, over the state it ends in. -/
theorem Res.All.outcome {α : Type} {P : State → Prop} {r : Res α} {d : α → State → State} {t : State} (h : r.All P)
    (ho : r.outcome d = .next t) : ∃ u, P u ∧ ((∃ a, t = d a u) ∨ ∃ e, t = raise e u) := by
  cases r with
  | ok a u => cases ho; exact ⟨u, h, .inl ⟨a, rfl⟩⟩
  | err e u => cases ho; exact ⟨u, h, .inr ⟨e, rfl⟩⟩
  | fault f => cases ho

/-- A sequencer goes on after an instruction, or the instruction ended the operation. -/
theorem andThen_inv {o : Host.Outcome State Fault Refusal} {f : State → State} {t : State} (h : andThen o f = .next t) :
    ∃ u, o = .next u ∧ (t = f u ∨ t = u) := by
  cases o with
  | next u =>
    cases h
    refine ⟨u, rfl, ?_⟩
    split
    · exact .inl rfl
    · exact .inr rfl
  | fault r => cases h
  | refused r => cases h

/-- The bytes left are read only where they lie inside IN. -/
theorem withRest_inv {s t : State} {k : List Byte → Host.Outcome State Fault Refusal} (h : withRest s k = .next t) :
    ∃ bs, StreamAt s bs ∧ k bs = .next t := by
  rw [withRest, restIn] at h
  by_cases hr : s.ip ≤ s.nreg ∧ s.nreg ≤ maxCsize s.cfg
  · rw [if_pos hr] at h; exact ⟨_, ⟨hr.1, hr.2, rfl⟩, h⟩
  · rw [if_neg hr] at h; cases h

/-! ### The decompressor -/

/-- What a line of the decompressor does: the operation it names, then flags and registers of its own. -/
def DecLine (s t : State) : Prop := ∃ u, DecFrame s u ∧ t = { u with
  ctl := t.ctl, status := t.status, err := t.err, outLen := t.outLen, litlen := t.litlen, mlen := t.mlen, ret := t.ret }

theorem DecFrame.decLine {s t : State} (h : DecFrame s t) : DecLine s t := ⟨t, h, rfl⟩

theorem DecLine.update {s t v : State} (h : DecLine s t) (hv : v = { t with
    ctl := v.ctl, status := v.status, err := v.err, outLen := v.outLen, litlen := v.litlen, mlen := v.mlen
    ret := v.ret }) : DecLine s v := by
  obtain ⟨u, hu, ht⟩ := h
  exact ⟨u, hu, by rw [hv, ht]⟩

theorem DecLine.raise {s t : State} (h : DecLine s t) (e : ErrKind) : DecLine s (raise e t) := h.update rfl

theorem decLine_giveTuple (d : List Byte × Option (Half × Nat)) {s u : State} (h : DecLine s u) :
    DecLine s (giveTuple d u) := by
  obtain ⟨lits, _ | m⟩ := d <;> exact h.update rfl

/-- An operation of the decompressor as an instruction. -/
theorem decLine_outcome {α : Type} {r : Res α} {d : α → State → State} {s t : State} (hr : r.All (DecFrame s))
    (hd : ∀ a u, DecLine s u → DecLine s (d a u)) (h : r.outcome d = .next t) : DecLine s t := by
  obtain ⟨u, hu, ⟨a, rfl⟩ | ⟨e, rfl⟩⟩ := hr.outcome h
  · exact hd a u hu.decLine
  · exact hu.decLine.raise e

theorem decLine_andThen {o : Host.Outcome State Fault Refusal} {f : State → State} {s t : State}
    (ho : ∀ u, o = .next u → DecLine s u) (hf : ∀ u, DecLine s u → DecLine s (f u)) (h : andThen o f = .next t) :
    DecLine s t := by
  obtain ⟨u, hu, rfl | rfl⟩ := andThen_inv h
  · exact hf u (ho u hu)
  · exact ho t hu

/-- A line that executes an operation of R205. -/
theorem decLine_opStep {α : Type} {i : Instr} {next : Ctl} {r : Res α} {s t : State} (hr : r.All (DecFrame s))
    (hexec : exec i s = r.outcome fun _ u => u) (h : opStep i next s = .next t) : DecLine s t :=
  decLine_andThen (fun _ hu => decLine_outcome hr (fun _ _ hu => hu) (hexec.symm.trans hu))
    (fun _ hu => hu.update rfl) h

theorem decLine_sequenceStep {s t : State} (h : sequenceStep s = .next t) : DecLine s t := by
  obtain ⟨bs, hbs, -⟩ := withRest_inv h
  rw [sequenceStep_eq_parse hbs] at h
  exact decLine_outcome (decFrame_parseSequence s) (fun d _ => decLine_giveTuple d) h

/-- The elements of the stream: the extension bytes, the literals, the offset. -/
theorem decLine_element {c : Ctx} {bs rest : List Byte} {i : Instr} {s t : State}
    (hc : c = .lenext ∨ c = .literal ∨ c = .offset) (hd : decode c bs = .ok (i, rest)) (h : exec i s = .next t) :
    DecLine s t := by
  rcases hc with rfl | rfl | rfl
  · cases bs with
    | nil => cases hd
    | cons b bs =>
      cases hd
      rw [exec_lenext] at h
      exact decLine_outcome (decFrame_lenext b s) (fun _ _ hu => hu.update rfl) h
  · cases bs with
    | nil => cases hd
    | cons b bs => cases hd; exact decLine_outcome (decFrame_takeLits [b] s) (fun _ _ hu => hu) h
  · match bs with
    | [] => cases hd
    | [_] => cases hd
    | b0 :: b1 :: bs =>
      cases hd; exact decLine_outcome (decFrame_takeOffset (offsetOf b0 b1) s) (fun _ _ hu => hu) h

theorem decLine_fieldStep {c : Ctx} {after : Instr → State → State} {s t : State}
    (hc : c = .lenext ∨ c = .literal ∨ c = .offset) (hafter : ∀ i u, DecLine s u → DecLine s (after i u))
    (h : fieldStep c after s = .next t) : DecLine s t := by
  obtain ⟨bs, -, h⟩ := withRest_inv h
  cases hd : decode c bs with
  | ok p =>
    rw [hd] at h
    exact decLine_andThen (fun _ => decLine_element hc hd) (hafter p.1) h
  | error r =>
    rw [hd] at h
    cases h
    exact (decFrame_isFrame.refl s).decLine.raise _

theorem decLine_lenHead {sel bias : Nat} {ext : Ctl} {done : State → State} {s t : State}
    (hdone : ∀ u, DecLine s u → DecLine s (done u)) (h : lenHead sel bias ext done s = .next t) : DecLine s t := by
  have hacc : DecLine s { s with lenAcc := sel, lenBias := bias } := DecFrame.decLine (.of_update rfl (le_refl _))
  rw [lenHead] at h
  split at h
  · cases h; exact hacc.raise _
  · split at h
    · cases h; exact hacc.update rfl
    · cases h; exact hdone _ hacc

theorem decLine_literalsHead {s t : State} (h : literalsHead s = .next t) : DecLine s t := by
  have hs : DecLine s s := (decFrame_isFrame.refl s).decLine
  obtain ⟨bs, -, h⟩ := withRest_inv h
  split at h
  · cases h; exact hs.raise _
  · cases h; exact hs.update rfl

theorem decLine_afterExt {done : State → State} {s : State} (hdone : ∀ u, DecLine s u → DecLine s (done u)) (i : Instr)
    (u : State) (hu : DecLine s u) : DecLine s (afterExt done i u) := by
  rw [afterExt]
  split
  · exact hu
  · exact hdone u hu

theorem decLine_afterEndTest {s u : State} (h : DecLine s u) : DecLine s (afterEndTest u) := by
  rw [afterEndTest]
  split <;> exact h.update rfl

/-- Every line of the decompressor keeps its frame. -/
theorem engineStep_decLine {s t : State} (hc : ¬ s.ctl.compresses) (h : engineStep s = .next t) : DecLine s t := by
  have hs : DecLine s s := (decFrame_isFrame.refl s).decLine
  have hlit : ∀ u, DecLine s u → DecLine s (endLitlen u) := fun u hu => hu.update rfl
  have hmatch : ∀ u, DecLine s u → DecLine s (endMatchlen u) := fun u hu => hu.update rfl
  cases hl : s.ctl with
  | scan | lookahead | emit => exact absurd (by simp [Ctl.compresses, hl]) hc
  | rest => rw [engineStep, hl] at h; cases h; exact hs
  | sequence => exact decLine_sequenceStep ((engineStep_at_sequence hl).symm.trans h)
  | fetchToken =>
    rw [engineStep_at_fetchToken hl] at h
    exact decLine_opStep (decFrame_fetchToken s) rfl h
  | readLitlen =>
    rw [engineStep_at_readLitlen hl] at h
    split at h
    · exact decLine_lenHead hlit h
    · exact decLine_opStep (decFrame_readLitlen s) rfl h
  | litExt =>
    rw [engineStep_at_litExt hl] at h
    exact decLine_fieldStep (.inl rfl) (decLine_afterExt hlit) h
  | copyLiterals =>
    rw [engineStep_at_copyLiterals hl] at h
    split at h
    · exact decLine_literalsHead h
    · exact decLine_opStep (decFrame_copyLiterals s) rfl h
  | literals n =>
    cases n with
    | zero => rw [engineStep_at_literals_zero hl] at h; cases h; exact hs.update rfl
    | succ n =>
      rw [engineStep_at_literals_succ hl] at h
      exact decLine_fieldStep (.inr (.inl rfl)) (fun _ _ hu => hu.update rfl) h
  | endTest =>
    rw [engineStep_at_endTest hl] at h
    exact decLine_andThen (fun u hu => by cases hu; exact hs.update rfl) (fun _ => decLine_afterEndTest) h
  | readOffset =>
    rw [engineStep_at_readOffset hl] at h
    split at h
    · exact decLine_fieldStep (.inr (.inr rfl)) (fun _ _ hu => hu.update rfl) h
    · exact decLine_opStep (decFrame_readOffset s) rfl h
  | readMatchlen =>
    rw [engineStep_at_readMatchlen hl] at h
    split at h
    · exact decLine_lenHead hmatch h
    · exact decLine_opStep (decFrame_readMatchlen s) rfl h
  | matchExt =>
    rw [engineStep_at_matchExt hl] at h
    exact decLine_fieldStep (.inl rfl) (decLine_afterExt hmatch) h
  | copyMatch =>
    rw [engineStep_at_copyMatch hl] at h
    exact decLine_opStep (decFrame_copyMatch s) rfl h

/-! ### The compressor -/

theorem CompFrame.trans {s t u : State} (h : CompFrame s t) (h' : CompFrame t u) : CompFrame s u :=
  compFrame_isFrame.trans s t u h h'

theorem CompFrame.raise {s t : State} (h : CompFrame s t) (e : ErrKind) : CompFrame s (raise e t) :=
  h.trans (.of_update rfl (le_refl _))

theorem CompFrame.finish {s t : State} (h : CompFrame s t) : CompFrame s (finish t) :=
  h.trans (.of_update rfl (le_refl _))

/-- An operation of the compressor as an instruction. -/
theorem compFrame_outcome {α : Type} {r : Res α} {d : α → State → State} {s t : State} (hr : r.All (CompFrame s))
    (hd : ∀ a u, CompFrame s u → CompFrame s (d a u)) (h : r.outcome d = .next t) : CompFrame s t := by
  obtain ⟨u, hu, ⟨a, rfl⟩ | ⟨e, rfl⟩⟩ := hr.outcome h
  · exact hd a u hu
  · exact hu.raise e

theorem compFrame_execFindMatch {s t : State} (h : exec .findMatch s = .next t) : CompFrame s t :=
  compFrame_outcome (d := giveBit) (compFrame_findMatch (hash4 s.cfg) s)
    (fun _ _ hu => hu.trans (.of_update rfl (le_refl _))) h

theorem compFrame_execEmitSeq {a b mlen : Nat} {off : Half} {s t : State}
    (h : exec (.emitSeq a b off mlen) s = .next t) : CompFrame s t :=
  compFrame_outcome (compFrame_emitSeq a b off mlen s) (fun _ _ hu => hu) h

theorem compFrame_execEmitLast {a : Nat} {s t : State} (h : exec (.emitLast a) s = .next t) : CompFrame s t :=
  compFrame_outcome (compFrame_emitLast a s) (fun _ _ hu => hu) h

theorem compFrame_andThen_finish {o : Host.Outcome State Fault Refusal} {s t : State}
    (ho : ∀ u, o = .next u → CompFrame s u) (h : andThen o finish = .next t) : CompFrame s t := by
  obtain ⟨u, hu, rfl | rfl⟩ := andThen_inv h
  · exact (ho u hu).finish
  · exact ho t hu

theorem compFrame_lastStep {s t : State} (h : lastStep s = .next t) : CompFrame s t := by
  rw [lastStep] at h
  split at h
  · exact compFrame_andThen_finish (fun _ => compFrame_outcome (compFrame_appendAll _ s) fun _ _ hu => hu) h
  · exact compFrame_andThen_finish (fun _ => compFrame_execEmitLast) h

theorem compFrame_afterFind (s : State) : CompFrame s (afterFind s) := by
  rw [afterFind]
  split
  · exact .of_update rfl (le_refl _)
  · exact .of_update rfl (Nat.le_add_right _ _)

theorem compFrame_scanStep {s t : State} (h : scanStep s = .next t) : CompFrame s t := by
  rw [scanStep] at h
  split at h
  · obtain ⟨u, hu, rfl | rfl⟩ := andThen_inv h
    · exact (compFrame_execFindMatch hu).trans (compFrame_afterFind u)
    · exact compFrame_execFindMatch hu
  · exact compFrame_lastStep h

/-- The lookahead may put the cursor back where it was, not before. -/
theorem compFrame_afterLookahead {s u : State} (h : CompFrame { s with ip := s.ip + 1 } u) :
    CompFrame s (afterLookahead s u) := by
  rw [afterLookahead]
  split
  · exact .trans (.of_update rfl (Nat.le_add_right _ _)) h
  · exact ⟨h.cfg, h.inLen, h.outLimit, h.sizeHint, h.tok, h.litlen, h.lim, h.lenAcc, h.lenBias, h.inMem, h.hostData,
      h.inEra, le_refl _, h.wr⟩

theorem compFrame_lookaheadStep {s t : State} (h : lookaheadStep s = .next t) : CompFrame s t := by
  rw [lookaheadStep] at h
  split at h
  · obtain ⟨u, hu, rfl | rfl⟩ := andThen_inv h
    · exact compFrame_afterLookahead (compFrame_execFindMatch hu)
    · exact .trans (.of_update rfl (Nat.le_add_right _ _)) (compFrame_execFindMatch hu)
  · cases h; exact .of_update rfl (le_refl _)

theorem compFrame_emitEnd {s t : State} (h : emitEnd s = .next t) : CompFrame s t :=
  compFrame_outcome (compFrame_insertInside s)
    (fun _ _ hu => hu.trans (.of_update rfl (Nat.le_add_right _ _))) h

theorem compFrame_emitStep {s t : State} (h : emitStep s = .next t) : CompFrame s t := by
  have hstart := compFrame_matchStart s
  rw [emitStep] at h
  cases hm : matchStart s with
  | ok b v =>
    rw [hm] at h
    cases he : exec (.emitSeq s.anchor b s.off (s.mlen + (s.ip - b))) s with
    | next u => simp only [he] at h; exact (compFrame_execEmitSeq he).trans (compFrame_emitEnd h)
    | fault f => simp only [he] at h; cases h
    | refused r => simp only [he] at h; cases h
  | err e v =>
    rw [hm] at h hstart
    cases h; exact hstart.raise e
  | fault f => rw [hm] at h; cases h

/-- Every line of the compressor keeps its frame. -/
theorem engineStep_compFrame {s t : State} (hc : s.ctl.compresses) (h : engineStep s = .next t) : CompFrame s t := by
  rcases hc with hl | hl | hl <;> rw [engineStep, hl] at h
  · exact compFrame_scanStep h
  · exact compFrame_lookaheadStep h
  · exact compFrame_emitStep h

/-! ### Either engine -/

/-- What a line of either engine leaves alone, and that OUT is written from `OP` on only. -/
structure EngineFrame (s t : State) : Prop where
  cfg : t.cfg = s.cfg
  inLen : t.inLen = s.inLen
  outLimit : t.outLimit = s.outLimit
  sizeHint : t.sizeHint = s.sizeHint
  inMem : t.inMem = s.inMem
  hostData : t.hostData = s.hostData
  inEra : t.inEra = s.inEra
  ip : s.ip ≤ t.ip
  wr : ∃ vs : List Byte, t.out = Cells.writeRun s.out s.op vs ∧ t.op = s.op + vs.length

theorem CompFrame.engineFrame {s t : State} (h : CompFrame s t) : EngineFrame s t :=
  ⟨h.cfg, h.inLen, h.outLimit, h.sizeHint, h.inMem, h.hostData, h.inEra, h.ip, h.wr⟩

theorem DecLine.engineFrame {s t : State} (h : DecLine s t) : EngineFrame s t := by
  obtain ⟨u, hu, ht⟩ := h
  obtain ⟨vs, hout, hop, -⟩ := hu.wr
  rw [ht]
  exact ⟨hu.cfg, hu.inLen, hu.outLimit, hu.sizeHint, hu.inMem, hu.hostData, hu.inEra, hu.ip, vs, hout, hop⟩

theorem engineStep_frame {s t : State} (h : engineStep s = .next t) : EngineFrame s t := by
  by_cases hc : s.ctl.compresses
  · exact (engineStep_compFrame hc h).engineFrame
  · exact (engineStep_decLine hc h).engineFrame

/-- With the host making no move, a step keeps the frame of the engines, whether one runs or not. -/
theorem step_frame {s t : State} (hi : HostIdle s) (h : step s = .next t) : EngineFrame s t := by
  cases step_inv h with
  | engine _ _ h => exact engineStep_frame h
  | nothing | waited => exact ⟨rfl, rfl, rfl, rfl, rfl, rfl, rfl, le_refl _, [], rfl, rfl⟩
  | move m rest hh hm _ =>
    rcases hi with hi | ⟨l, hi⟩ <;> rw [hi] at hh <;> cases hh
    exact absurd rfl hm

/-- Settles O43: the registers the host writes and IN are in the frame of both engines. -/
theorem engineLeavesInputAlone : Obligations.EngineLeavesInputAlone := by
  unfold Obligations.EngineLeavesInputAlone
  intro s t hi h
  have f := step_frame hi h
  exact ⟨f.inMem, f.inLen, f.outLimit, f.sizeHint, f.cfg, f.hostData, State.inAt_congr f.inMem f.inEra⟩

/-- Settles O44: both engines write OUT as a run of bytes from `OP` on, which moves past it. -/
theorem outputOnlyAppendedCursorForward : Obligations.OutputOnlyAppendedCursorForward := by
  unfold Obligations.OutputOnlyAppendedCursorForward
  intro s t hi h
  have f := step_frame hi h
  obtain ⟨vs, hout, hop⟩ := f.wr
  refine ⟨by omega, fun a ha => ?_, f.ip⟩
  rw [hout, Cells.read_writeRun, dif_neg (by omega)]

/-- Settles O45: the frame of each engine holds the registers of the other. -/
theorem enginesKeepApart : Obligations.EnginesKeepApart := by
  unfold Obligations.EnginesKeepApart
  intro s t hi hb h
  rw [step_eq_engineStep hb hi] at h
  refine ⟨fun hc => ?_, fun hc => ?_⟩
  · have f := engineStep_compFrame hc h
    exact ⟨f.tok, f.litlen, f.lim, f.lenAcc, f.lenBias⟩
  · obtain ⟨u, f, ht⟩ := engineStep_decLine hc h
    rw [ht]
    exact ⟨f.ht, f.anchor, f.seq4, f.hidx, f.cand⟩

end Sys2Proof.Machine
end

section
/-! SUPPORT. The invariant while an operation runs, at its two ends, and while none runs: what each change of the
state has to show for it. -/

namespace Sys2Proof.Machine

/-! ### The parts of the invariant -/

/-- Every listed key of a run of writes was listed or lies in the run. -/
theorem Cells.mem_writeRun {α : Type} {m : List (Nat × α)} {a : Nat} {vs : List α} {p : Nat × α}
    (h : p ∈ Cells.writeRun m a vs) : p ∈ m ∨ (a ≤ p.1 ∧ p.1 < a + vs.length) := by
  induction vs generalizing m a with
  | nil => exact .inl h
  | cons v vs ih =>
    rw [List.length_cons]
    rcases ih h with hm | hr
    · rcases Cells.mem_write hm with rfl | hm
      · exact .inr ⟨le_refl _, by simp only; omega⟩
      · exact .inl hm
    · exact .inr ⟨by omega, by omega⟩

theorem Canonical.congr {s t : State} (h : Canonical s) (hc : t.cfg = s.cfg) (hi : t.inMem = s.inMem)
    (ho : t.out = s.out) (hh : t.ht = s.ht) : Canonical t := by
  obtain ⟨h1, h2, h3, h4, h5, h6, h7⟩ := h
  exact ⟨hi ▸ h1, ho ▸ h2, hh ▸ h3, by rwa [hi, hc], by rwa [ho, hc], by rwa [hh, hc], by rwa [hh, hc]⟩

theorem Canonical.wrote {s : State} (h : Canonical s) {vs : List Byte} (hfit : s.op + vs.length ≤ maxCsize s.cfg) :
    Canonical (s.wrote vs) where
  inWf := h.inWf
  outWf := memory_wf_writeRun _ _ h.outWf
  htWf := h.htWf
  inPos := h.inPos
  outPos := fun p hp => by
    rcases Cells.mem_writeRun hp with hp | hp
    · exact h.outPos p hp
    · exact Nat.lt_of_lt_of_le hp.2 hfit
  htPos := h.htPos
  htDepth := h.htDepth

theorem Written.wrote {s : State} (h : Written s s.op) (vs : List Byte) : Written (s.wrote vs) (s.wrote vs).op := by
  intro a ha
  rw [State.wrote_op] at ha
  rw [State.wrote_out, Cells.read_writeRun]
  by_cases hop : s.op ≤ a
  · rw [dif_pos ⟨hop, ha⟩]; rfl
  · rw [dif_neg (by omega)]; exact h a (by omega)

theorem maxSize_lt (c : Config) : c.maxSize < 2 ^ posW c := (maxSize_lt_maxCsize c).trans (maxCsize_lt c)

theorem lt_lenW_of_le {c : Config} {n : Nat} (h : n ≤ c.maxSize) : n < 2 ^ lenW c :=
  (h.trans_lt (maxSize_lt c)).trans_le (Nat.pow_le_pow_right (by omega) (Nat.le_succ _))

/-! ### While an operation runs -/

/-- The invariant while an operation runs, but for its line. -/
structure Running (s : State) : Prop where
  cfg : s.cfg.ok
  canonical : Canonical s
  widths : Widths s
  busy : s.status = .busy
  noErr : s.err = none
  noResult : s.outLen = 0

theorem Invariant.running {s : State} (h : Invariant s) (hb : s.status = .busy) : Running s where
  cfg := h.cfg
  canonical := h.canonical
  widths := h.widths
  busy := hb
  noErr := by
    have := mt h.error.1 (by rw [hb]; nofun)
    simpa using this
  noResult := h.result (by rw [hb]; nofun)

/-- At a line of the pseudocode. -/
theorem Running.atLine {s : State} (h : Running s) (hc : s.ctl ≠ .rest) (hl : AtLine s) : Invariant s where
  cfg := h.cfg
  canonical := h.canonical
  widths := h.widths
  busy := by simp [h.busy, hc]
  error := by simp [h.noErr, h.busy]
  result := fun _ => h.noResult
  written := fun a ha => absurd ha (by simp [h.noResult])
  line := hl

/-- The end by an error (R280). -/
theorem Running.raise {s : State} (h : Running s) (e : ErrKind) : Invariant (raise e s) where
  cfg := h.cfg
  canonical := h.canonical.congr rfl rfl rfl rfl
  widths := { h.widths with outLen := Nat.two_pow_pos _ }
  busy := by simp
  error := by simp
  result := fun _ => rfl
  written := fun a ha => absurd ha (by simp)
  line := trivial

/-- The end with a result (R255). -/
theorem Running.finish {s : State} (h : Running s) (hw : Written s s.op) : Invariant (finish s) where
  cfg := h.cfg
  canonical := h.canonical.congr rfl rfl rfl rfl
  widths := { h.widths with outLen := h.widths.op }
  busy := by simp
  error := by simp [h.noErr]
  result := fun hd => absurd rfl hd
  written := hw
  line := trivial

/-! ### While none runs -/

/-- A machine just reset, whatever a reset keeps. -/
theorem invariant_of_reset {c : Config} {t : State} (hc : c.ok) (ht : t = { State.resetIn c with
    grain := t.grain, host := t.host, hostData := t.hostData, inEra := t.inEra, outEra := t.outEra }) :
    Invariant t := by
  have hpos := Nat.two_pow_pos (posW c)
  rw [ht]
  exact {
    cfg := hc
    canonical := ⟨.nil, .nil, ⟨.nil, nofun⟩, nofun, nofun, nofun, nofun⟩
    widths := ⟨hpos, hpos, maxSize_lt c, hpos, hpos, hpos, hpos, hpos, hpos, hpos, Nat.two_pow_pos _, Nat.two_pow_pos _,
      Nat.zero_le _, nofun⟩
    busy := by simp [State.resetIn]
    error := by simp [State.resetIn]
    result := fun _ => rfl
    written := fun a ha => absurd ha (Nat.not_lt_zero a)
    line := trivial }

theorem config_spec_ok : Config.spec.ok := by decide

/-- Settles O40: after reset the memories and the table list nothing and the registers are 0. -/
theorem invariantAtReset : Obligations.InvariantAtReset := by
  unfold Obligations.InvariantAtReset
  exact ⟨invariant_of_reset config_spec_ok rfl, fun c hc => invariant_of_reset hc rfl⟩

/-- With no operation running, the invariant asks of what the host writes only that it fits. -/
theorem Invariant.idle_update {s t : State} (h : Invariant s) (hb : s.status ≠ .busy) (ht : t = { s with
    inLen := t.inLen, outLimit := t.outLimit, sizeHint := t.sizeHint, inMem := t.inMem, host := t.host
    hostData := t.hostData }) (hin : t.inLen < 2 ^ posW s.cfg) (hout : t.outLimit < 2 ^ posW s.cfg)
    (hhint : t.sizeHint < 2 ^ posW s.cfg) (hwf : Memory.wf t.inMem) (hpos : ∀ p ∈ t.inMem, p.1 < maxCsize s.cfg) :
    Invariant t := by
  have hrest : s.ctl = .rest := by
    by_contra hc
    exact hb (h.busy.2 hc)
  rw [ht]
  exact {
    cfg := h.cfg
    canonical := { h.canonical with inWf := hwf, inPos := hpos }
    widths := { h.widths with inLen := hin, outLimit := hout, sizeHint := hhint }
    busy := h.busy
    error := h.error
    result := h.result
    written := h.written
    line := by simp only [AtLine, hrest] }

/-! ### The host's own side, at any time -/

section
variable {s : State} (l : List HostMove) (d : Option Nat)

theorem Compressing.hostSide (h : Compressing s) : Compressing { s with host := l, hostData := d } :=
  ⟨h.input, h.run, h.cursor, h.size, h.written⟩

theorem Decompressing.hostSide (h : Decompressing s) : Decompressing { s with host := l, hostData := d } :=
  ⟨h.input, h.cursor, h.output, h.limit, h.written⟩

theorem Found.hostSide (h : Found s) : Found { s with host := l, hostData := d } :=
  ⟨h.offPos, h.offBack, h.long, h.ends, h.same⟩

/-- What holds at a line does not speak of the host's own side. -/
theorem AtLine.hostSide (h : AtLine s) : AtLine { s with host := l, hostData := d } := by
  have hC : Compressing s → Compressing { s with host := l, hostData := d } := .hostSide l d
  have hD : Decompressing s → Decompressing { s with host := l, hostData := d } := .hostSide l d
  have hF : Found s → Found { s with host := l, hostData := d } := .hostSide l d
  have hctl : ({ s with host := l, hostData := d } : State).ctl = s.ctl := rfl
  generalize ht : ({ s with host := l, hostData := d } : State) = t at *
  unfold AtLine at h ⊢
  rw [hctl]
  cases hc : s.ctl <;> simp only [hc] at h ⊢ <;> subst ht
  case scan => exact ⟨hC h.1, h.2⟩
  case lookahead | emit => exact ⟨hC h.1, h.2.1, hF h.2.2⟩
  case sequence | fetchToken | readLitlen | endTest | readOffset => exact hD h
  all_goals exact ⟨hD h.1, h.2⟩

theorem Invariant.hostSide (h : Invariant s) : Invariant { s with host := l, hostData := d } where
  cfg := h.cfg
  canonical := h.canonical.congr rfl rfl rfl rfl
  widths := { h.widths with }
  busy := h.busy
  error := h.error
  result := h.result
  written := h.written
  line := h.line.hostSide l d

end

end Sys2Proof.Machine
end

section
/-! SUPPORT. The decompressor keeps the invariant: from a state of it every operation of R205 stays in bounds and
lands in a state of it, and so does every line at every grain. -/

namespace Sys2Proof.Machine

/-! ### Where operations and lines land -/

/-- An operation stays in bounds; it ends with a result as `Q` says, or with an error to be raised. -/
def Res.Lands {α : Type} (r : Res α) (Q : α → State → Prop) : Prop :=
  match r with
  | .ok a t => Q a t
  | .err _ t => Running t
  | .fault _ => False

theorem Res.Lands.bind {α β : Type} {r : Res α} {f : α → State → Res β} {P : α → State → Prop} {Q : β → State → Prop}
    (h : r.Lands P) (hf : ∀ a t, P a t → (f a t).Lands Q) : (r.bind f).Lands Q := by
  cases r with
  | ok a t => exact hf a t h
  | err e t => exact h
  | fault f => exact h

/-- What a frame keeps and where the operation lands, together. -/
theorem Res.Lands.and {α : Type} {r : Res α} {P : State → Prop} {Q : α → State → Prop} (h : r.Lands Q) (hr : r.All P) :
    r.Lands fun a t => Q a t ∧ P t := by
  cases r with
  | ok a t => exact ⟨h, hr⟩
  | err e t => exact h
  | fault f => exact h

/-- The answer is a next state, in the invariant. -/
def Sound (o : Host.Outcome State Fault Refusal) : Prop := ∃ t, o = .next t ∧ Invariant t

theorem Running.sound_raise {s : State} (h : Running s) (e : ErrKind) : Sound (.next (Machine.raise e s)) :=
  ⟨_, rfl, h.raise e⟩

theorem Res.Lands.sound {α : Type} {r : Res α} {d : α → State → State} {Q : α → State → Prop} (h : r.Lands Q)
    (hd : ∀ a t, Q a t → Invariant (d a t)) : Sound (r.outcome d) := by
  cases r with
  | ok a t => exact ⟨_, rfl, hd a t h⟩
  | err e t => exact h.sound_raise e
  | fault f => exact h.elim

/-- An operation, and what the sequencer does after it while BUSY. -/
theorem Res.Lands.sound_andThen {α : Type} {r : Res α} {d : α → State → State} {f : State → State}
    {Q : α → State → Prop} (h : r.Lands Q) (hb : ∀ a t, Q a t → (d a t).status = .busy)
    (hf : ∀ a t, Q a t → Invariant (f (d a t))) : Sound (andThen (r.outcome d) f) := by
  cases r with
  | ok a t => exact ⟨_, by rw [Res.outcome_ok, andThen, if_pos (hb a t h)], hf a t h⟩
  | err e t => exact h.sound_raise e
  | fault f => exact h.elim

/-! ### The state of a decompression -/

/-- The invariant while a decompression runs, but for its line. -/
structure Decoding (s : State) : Prop extends Running s, Decompressing s

/-- The decoder's registers change, within the input and the room. -/
theorem Decoding.advance {s t : State} (h : Decoding s) (ht : t = { s with
    ctl := t.ctl, ret := t.ret, tok := t.tok, lenAcc := t.lenAcc, lenBias := t.lenBias, off := t.off, ip := t.ip
    mlen := t.mlen, litlen := t.litlen }) (hip : t.ip ≤ s.nreg) (hm : t.mlen = s.mlen ∨ t.mlen ≤ room s)
    (hl : t.litlen = s.litlen ∨ t.litlen ≤ room s) : Decoding t := by
  have hroom : room s ≤ s.cfg.maxSize := (Nat.sub_le _ _).trans h.limit
  have hip' : t.ip < 2 ^ posW s.cfg := hip.trans_lt h.widths.nreg
  have hm' : t.mlen < 2 ^ posW s.cfg := by
    rcases hm with hm | hm
    · rw [hm]; exact h.widths.mlen
    · exact (hm.trans hroom).trans_lt (maxSize_lt _)
  have hl' : t.litlen < 2 ^ lenW s.cfg := by
    rcases hl with hl | hl
    · rw [hl]; exact h.widths.litlen
    · exact lt_lenW_of_le (hl.trans hroom)
  rw [ht]
  exact {
    cfg := h.cfg
    canonical := h.canonical.congr rfl rfl rfl rfl
    widths := { h.widths with ip := hip', mlen := hm', litlen := hl' }
    busy := h.busy
    noErr := h.noErr
    noResult := h.noResult
    input := h.input
    cursor := hip
    output := h.output
    limit := h.limit
    written := h.written }

/-- Bytes are appended within the room. -/
theorem Decoding.wrote {s : State} (h : Decoding s) {vs : List Byte} (hfit : vs.length ≤ room s) :
    Decoding (s.wrote vs) := by
  have hlim : s.op + vs.length ≤ s.lim := by have := h.output; unfold room at hfit; omega
  have hmax : s.op + vs.length ≤ s.cfg.maxSize := hlim.trans h.limit
  exact {
    cfg := h.cfg
    canonical := h.canonical.wrote (hmax.trans (maxSize_lt_maxCsize _).le)
    widths := { h.widths with op := hmax.trans_lt (maxSize_lt _) }
    busy := h.busy
    noErr := h.noErr
    noResult := h.noResult
    input := h.input
    cursor := h.cursor
    output := hlim
    limit := h.limit
    written := h.written.wrote vs }

theorem Decoding.skip {s : State} (h : Decoding s) {k : Nat} (hk : s.ip + k ≤ s.nreg) :
    Decoding { s with ip := s.ip + k } := h.advance rfl hk (.inl rfl) (.inl rfl)

theorem Decoding.goto {s : State} (h : Decoding s) (c : Ctl) : Decoding { s with ctl := c } :=
  h.advance rfl h.cursor (.inl rfl) (.inl rfl)

theorem Decoding.withRet {s : State} (h : Decoding s) (r : Ret) : Decoding { s with ret := r } :=
  h.advance rfl h.cursor (.inl rfl) (.inl rfl)

/-- There are bytes from the cursor to the end of the input. -/
theorem Decoding.stream {s : State} (h : Decoding s) : ∃ bs, StreamAt s bs := ⟨_, h.cursor, h.input, rfl⟩

/-- What fits the room fits OUT. -/
theorem Decoding.fits {s : State} (h : Decoding s) {n : Nat} (hn : n ≤ room s) : s.op + n ≤ maxCsize s.cfg := by
  have := h.output; have := h.limit; have := maxSize_lt_maxCsize s.cfg; unfold room at hn; omega

/-! ### The operations of R205 -/

theorem scanLength_overflow_used {sel bias room u : Nat} {bs : List Byte}
    (h : scanLength sel bias room bs = .overflow u) : u ≤ bs.length := by
  rw [scanLength] at h
  split at h
  · cases h; exact Nat.zero_le _
  · split at h
    · have := scanExt_overflow_used h; omega
    · cases h

theorem takeLen_lands {s : State} {bs : List Byte} (h : Decoding s) (hbs : StreamAt s bs) (sel bias : Nat) :
    (takeLen sel bias (room s) bs s).Lands fun n t =>
      n + bias ≤ room s ∧ ∃ k, s.ip + k ≤ s.nreg ∧ t = { s with ip := s.ip + k } := by
  have hlen := hbs.length_eq
  rw [takeLen]
  cases hscan : scanLength sel bias (room s) bs with
  | value n k =>
    obtain ⟨hn, hk, -⟩ := scanLength_value hscan
    exact ⟨hn, k, by omega, rfl⟩
  | overflow k =>
    have hk := scanLength_overflow_used hscan
    exact (h.skip (k := k) (by omega)).toRunning
  | truncated k =>
    obtain ⟨-, -, hk⟩ := scanLength_truncated hscan
    exact (h.skip (k := k) (by omega)).toRunning

theorem fetchTokenOp_lands {s : State} (h : Decoding s) : (fetchTokenOp s).Lands fun _ t => Decoding t := by
  obtain ⟨bs, hbs⟩ := h.stream
  have hlen := hbs.length_eq
  rw [fetchTokenOp, hbs.restIn_eq, Res.bind_ok]
  cases bs with
  | nil => exact h.toRunning
  | cons b bs =>
    rw [List.length_cons] at hlen
    exact h.advance rfl (show s.ip + 1 ≤ s.nreg by omega) (.inl rfl) (.inl rfl)

theorem readLitlenOp_lands {s : State} (h : Decoding s) :
    (readLitlenOp s).Lands fun _ t => Decoding t ∧ t.litlen ≤ room t := by
  obtain ⟨bs, hbs⟩ := h.stream
  rw [readLitlenOp, hbs.restIn_eq, Res.bind_ok, takeLitlen]
  refine (takeLen_lands h hbs _ _).bind ?_
  rintro n _ ⟨hn, k, hk, rfl⟩
  exact ⟨h.advance rfl hk (.inl rfl) (.inr hn), hn⟩

theorem takeLits_lands {s : State} {lits : List Byte} (h : Decoding s) (hroom : lits.length ≤ room s)
    (hip : s.ip + lits.length ≤ s.nreg) : (takeLits lits s).Lands fun _ t => Decoding t ∧ t = s.tookLits lits := by
  rw [takeLits_ok (h.fits hroom)]
  exact ⟨(h.wrote hroom).advance rfl hip (.inl rfl) (.inl rfl), rfl⟩

theorem copyLiteralsOp_lands {s : State} (h : Decoding s) (hl : s.litlen ≤ room s) :
    (copyLiteralsOp s).Lands fun _ t => Decoding t := by
  obtain ⟨bs, hbs⟩ := h.stream
  have hlen := hbs.length_eq
  rw [copyLiteralsOp, hbs.restIn_eq, Res.bind_ok]
  split
  · exact h.toRunning
  · have hlits : (bs.take s.litlen).length = s.litlen := by rw [List.length_take]; omega
    exact (takeLits_lands h (by rw [hlits]; exact hl) (by omega)).bind fun _ _ ht => ht.1

theorem takeOffset_lands {s : State} (h : Decoding s) (hip : s.ip + 2 ≤ s.nreg) (off : Half) :
    (takeOffset off s).Lands fun _ t => Decoding t ∧ OffsetValid t := by
  have hd : Decoding { s with off := off, ip := s.ip + 2 } := h.advance rfl hip (.inl rfl) (.inl rfl)
  by_cases hbad : off = 0#16 ∨ s.op < off.toNat
  · rw [takeOffset_invalid hbad]; exact hd.toRunning
  · have hpos : 1 ≤ off.toNat := by
      have := mt (half_eq_zero off).2 fun h0 => hbad (.inl h0)
      omega
    have hback : off.toNat ≤ s.op := by omega
    rw [takeOffset_ok hpos hback]
    exact ⟨hd, hpos, hback⟩

theorem readOffsetOp_lands {s : State} (h : Decoding s) :
    (readOffsetOp s).Lands fun _ t => Decoding t ∧ OffsetValid t := by
  obtain ⟨bs, hbs⟩ := h.stream
  have hlen := hbs.length_eq
  rw [readOffsetOp, hbs.restIn_eq, Res.bind_ok]
  match bs with
  | [] => exact h.toRunning
  | [_] => exact h.toRunning
  | b0 :: b1 :: bs =>
    simp only [List.length_cons] at hlen
    exact takeOffset_lands h (by omega) (offsetOf b0 b1)

theorem readMatchlenOp_lands {s : State} (h : Decoding s) (ho : OffsetValid s) :
    (readMatchlenOp s).Lands fun _ t => Decoding t ∧ OffsetValid t ∧ t.mlen ≤ room t := by
  obtain ⟨bs, hbs⟩ := h.stream
  rw [readMatchlenOp, hbs.restIn_eq, Res.bind_ok, takeMatchlen]
  refine (takeLen_lands h hbs _ _).bind ?_
  rintro n _ ⟨hn, k, hk, rfl⟩
  exact ⟨h.advance rfl hk (.inr hn) (.inl rfl), ho, hn⟩

theorem copyMatchOp_lands {s : State} (h : Decoding s) (ho : OffsetValid s) (hm : s.mlen ≤ room s) :
    (copyMatchOp s).Lands fun _ t => Decoding t := by
  obtain ⟨vs, hlen, hcopy, -⟩ := copyMatchOp_ok ho.1 ho.2 (h.fits hm)
  rw [hcopy]
  exact h.wrote (by rw [hlen]; exact hm)

theorem parseSequenceOp_lands {s : State} (h : Decoding s) : (parseSequenceOp s).Lands fun _ t => Decoding t := by
  refine (fetchTokenOp_lands h).bind fun _ t ht => ?_
  refine (readLitlenOp_lands ht).bind fun _ t ⟨ht, hl⟩ => ?_
  refine (copyLiteralsOp_lands ht hl).bind fun lits t ht => ?_
  split
  · exact ht
  · refine (readOffsetOp_lands ht).bind fun _ t ⟨ht, ho⟩ => ?_
    refine (readMatchlenOp_lands ht ho).bind fun _ t ⟨ht, ho, hm⟩ => ?_
    exact (copyMatchOp_lands ht ho hm).bind fun _ t ht => ht

/-! ### The lines -/

/-- A line at which the state of a decompression is all that holds. -/
theorem Decoding.at_line {s : State} (h : Decoding s) {c : Ctl}
    (hc : c = .sequence ∨ c = .fetchToken ∨ c = .readLitlen ∨ c = .endTest ∨ c = .readOffset) :
    Invariant { s with ctl := c } := by
  rcases hc with rfl | rfl | rfl | rfl | rfl <;>
    exact (h.goto _).toRunning.atLine nofun (h.goto _).toDecompressing

theorem Decoding.at_sequence {s : State} (h : Decoding s) (hc : s.ctl = .sequence) : Invariant s :=
  h.toRunning.atLine (by simp [hc]) (by simp only [AtLine, hc]; exact h.toDecompressing)

theorem Decoding.at_copyLiterals {s : State} (h : Decoding s) (hl : s.litlen ≤ room s) :
    Invariant { s with ctl := .copyLiterals } :=
  (h.goto _).toRunning.atLine nofun ⟨(h.goto _).toDecompressing, hl⟩

theorem Decoding.at_literals {s : State} (h : Decoding s) {n : Nat} (hroom : n ≤ room s) (hip : n ≤ s.nreg - s.ip) :
    Invariant { s with ctl := .literals n } :=
  (h.goto _).toRunning.atLine nofun ⟨(h.goto _).toDecompressing, hroom, hip⟩

theorem Decoding.at_readMatchlen {s : State} (h : Decoding s) (ho : OffsetValid s) :
    Invariant { s with ctl := .readMatchlen } :=
  (h.goto _).toRunning.atLine nofun ⟨(h.goto _).toDecompressing, ho⟩

theorem Decoding.at_copyMatch {s : State} (h : Decoding s) (ho : OffsetValid s) (hm : s.mlen ≤ room s) :
    Invariant { s with ctl := .copyMatch } :=
  (h.goto _).toRunning.atLine nofun ⟨(h.goto _).toDecompressing, ho, hm⟩

theorem Decoding.at_litExt {s : State} (h : Decoding s) (hb : s.lenBias = 0) (ha : s.lenAcc ≤ room s) :
    Invariant { s with ctl := .litExt } :=
  (h.goto _).toRunning.atLine nofun ⟨(h.goto _).toDecompressing, hb, ha⟩

theorem Decoding.at_matchExt {s : State} (h : Decoding s) (ho : OffsetValid s) (hb : s.lenBias = 4)
    (ha : s.lenAcc + 4 ≤ room s) : Invariant { s with ctl := .matchExt } :=
  (h.goto _).toRunning.atLine nofun ⟨(h.goto _).toDecompressing, ho, hb, ha⟩

theorem Decoding.endLitlen {s : State} (h : Decoding s) (ha : s.lenAcc ≤ room s) : Invariant (endLitlen s) :=
  Decoding.at_copyLiterals (s := { s with litlen := s.lenAcc }) (h.advance rfl h.cursor (.inl rfl) (.inr ha)) ha

theorem Decoding.endMatchlen {s : State} (h : Decoding s) (ho : OffsetValid s) (ha : s.lenAcc + 4 ≤ room s) :
    Invariant (endMatchlen s) :=
  Decoding.at_copyMatch (s := { s with mlen := s.lenAcc + 4 }) (h.advance rfl h.cursor (.inr ha) (.inl rfl)) ho ha

theorem Decoding.afterEndTest {s : State} (h : Decoding s) : Invariant (afterEndTest s) := by
  rw [Machine.afterEndTest]
  split
  · exact h.toRunning.finish h.written
  · exact h.at_line (by simp)

/-- A line that executes an operation of R205. -/
theorem sound_opStep {α : Type} {i : Instr} {next : Ctl} {r : Res α} {s : State} {Q : α → State → Prop}
    (h : r.Lands Q) (hexec : exec i s = r.outcome fun _ t => t)
    (hnext : ∀ a t, Q a t → t.status = .busy ∧ Invariant { t with ctl := next }) : Sound (opStep i next s) := by
  rw [opStep, hexec]
  exact h.sound_andThen (fun a t ht => (hnext a t ht).1) fun a t ht => (hnext a t ht).2

/-- R205: a whole sequence a step. -/
theorem sound_sequenceStep {s : State} (h : Decoding s) (hc : s.ctl = .sequence) : Sound (sequenceStep s) := by
  obtain ⟨bs, hbs⟩ := h.stream
  rw [sequenceStep_eq_parse hbs]
  refine ((parseSequenceOp_lands h).and (decFrame_parseSequence s)).sound ?_
  rintro ⟨lits, _ | m⟩ t ⟨ht, hframe⟩
  · have ht := ht.withRet (.tuple lits none)
    exact ht.toRunning.finish ht.written
  · have ht := ht.withRet (.tuple lits (some m))
    have hctl : t.ctl = .sequence := hframe.ctl.trans hc
    exact ht.at_sequence hctl

/-- The head of a length (R123). -/
theorem sound_lenHead {sel bias : Nat} {ext : Ctl} {done : State → State} {s : State} (h : Decoding s)
    (hnext : ∀ t, Decoding t → t = { s with lenAcc := sel, lenBias := bias } → sel + bias ≤ room s →
      Invariant { t with ctl := ext } ∧ Invariant (done t)) : Sound (lenHead sel bias ext done s) := by
  have hd : Decoding { s with lenAcc := sel, lenBias := bias } := h.advance rfl h.cursor (.inl rfl) (.inl rfl)
  rw [lenHead]
  by_cases hover : sel + bias > room s
  · rw [if_pos hover]; exact hd.toRunning.sound_raise _
  · rw [if_neg hover]
    obtain ⟨hext, hdone⟩ := hnext _ hd rfl (by omega)
    split
    · exact ⟨_, rfl, hext⟩
    · exact ⟨_, rfl, hdone⟩

/-- An extension byte of a length (R93, R123). -/
theorem sound_extStep {done : State → State} {s : State} (h : Decoding s)
    (hnext : ∀ b n t, Decoding t → t = giveNum n (s.addExt b) → t.lenAcc + t.lenBias ≤ room t →
      Invariant t ∧ Invariant (done t)) : Sound (fieldStep .lenext (afterExt done) s) := by
  obtain ⟨bs, hbs⟩ := h.stream
  have hlen := hbs.length_eq
  rw [fieldStep, hbs.withRest_eq]
  cases bs with
  | nil => exact h.toRunning.sound_raise _
  | cons b bs =>
    rw [List.length_cons] at hlen
    have hd : Decoding (s.addExt b) := h.advance rfl (show s.ip + 1 ≤ s.nreg by omega) (.inl rfl) (.inl rfl)
    show Sound (andThen (exec (if b = 255#8 then .lenextCont else .lenextEnd b) s) (afterExt done _))
    rw [exec_lenext]
    by_cases hover : s.lenAcc + b.toNat + s.lenBias > room s
    · rw [lenextOp_overflow hover]; exact hd.toRunning.sound_raise _
    · rw [lenextOp_ok hover]
      have hnum : Decoding (giveNum (s.lenAcc + b.toNat) (s.addExt b)) := hd.withRet _
      obtain ⟨hgo, hdone⟩ := hnext b _ _ hnum rfl (Nat.le_of_not_lt hover)
      refine ⟨_, by rw [Res.outcome_ok, andThen, if_pos hnum.busy], ?_⟩
      rw [afterExt_lenext]
      split
      · exact hgo
      · exact hdone

theorem sound_literalsHead {s : State} (h : Decoding s) (hl : s.litlen ≤ room s) : Sound (literalsHead s) := by
  obtain ⟨bs, hbs⟩ := h.stream
  have hlen := hbs.length_eq
  rw [literalsHead, hbs.withRest_eq]
  split
  · exact h.toRunning.sound_raise _
  · exact ⟨_, rfl, h.at_literals hl (by omega)⟩

/-- A literal byte, of `n + 1` left (R220). -/
theorem sound_literalStep {s : State} {n : Nat} (h : Decoding s) (hroom : n + 1 ≤ room s)
    (hip : n + 1 ≤ s.nreg - s.ip) : Sound (fieldStep .literal (fun _ s => { s with ctl := .literals n }) s) := by
  obtain ⟨bs, hbs⟩ := h.stream
  rw [fieldStep, hbs.withRest_eq]
  cases bs with
  | nil => exact h.toRunning.sound_raise _
  | cons b bs =>
    refine (takeLits_lands (lits := [b]) h (Nat.le_trans (Nat.le_add_left 1 n) hroom)
      (show s.ip + 1 ≤ s.nreg by omega)).sound_andThen (fun _ _ ht => ht.1.busy) ?_
    rintro _ t ⟨ht, rfl⟩
    refine ht.at_literals ?_ ?_
    · show n ≤ s.lim - (s.op + 1)
      unfold room at hroom; omega
    · show n ≤ s.nreg - (s.ip + 1)
      omega

theorem sound_offsetStep {s : State} (h : Decoding s) :
    Sound (fieldStep .offset (fun _ s => { s with ctl := .readMatchlen }) s) := by
  obtain ⟨bs, hbs⟩ := h.stream
  have hlen := hbs.length_eq
  rw [fieldStep, hbs.withRest_eq]
  match bs with
  | [] => exact h.toRunning.sound_raise _
  | [_] => exact h.toRunning.sound_raise _
  | b0 :: b1 :: bs =>
    simp only [List.length_cons] at hlen
    exact (takeOffset_lands h (by omega) (offsetOf b0 b1)).sound_andThen (fun _ _ ht => ht.1.busy) fun _ _ ht =>
      ht.1.at_readMatchlen ht.2

/-- From a state of the invariant every line of the decompressor answers a state of the invariant. -/
theorem sound_decompressor {s : State} (h : Invariant s) (hb : s.status = .busy) (hc : ¬ s.ctl.compresses) :
    Sound (engineStep s) := by
  have hl := h.line
  have hrun := h.running hb
  unfold AtLine at hl
  cases hctl : s.ctl <;> simp only [hctl] at hl
  case rest => exact absurd hctl (h.busy.1 hb)
  case scan | lookahead | emit => exact absurd (by simp [Ctl.compresses, hctl]) hc
  case sequence =>
    rw [engineStep_at_sequence hctl]
    exact sound_sequenceStep ⟨hrun, hl⟩ hctl
  case fetchToken =>
    rw [engineStep_at_fetchToken hctl]
    exact sound_opStep (fetchTokenOp_lands ⟨hrun, hl⟩) rfl fun _ _ ht => ⟨ht.busy, ht.at_line (by simp)⟩
  case readLitlen =>
    have hd : Decoding s := ⟨hrun, hl⟩
    rw [engineStep_at_readLitlen hctl]
    split
    · refine sound_lenHead hd ?_
      rintro _ ht rfl hfit
      exact ⟨ht.at_litExt rfl hfit, ht.endLitlen hfit⟩
    · exact sound_opStep (readLitlenOp_lands hd) rfl fun _ _ ⟨ht, hlit⟩ => ⟨ht.busy, ht.at_copyLiterals hlit⟩
  case litExt =>
    obtain ⟨hd, hbias, -⟩ := hl
    rw [engineStep_at_litExt hctl]
    refine sound_extStep ⟨hrun, hd⟩ ?_
    rintro b n t ht rfl hfit
    have hfit : (s.addExt b).lenAcc + s.lenBias ≤ room s := hfit
    rw [hbias] at hfit
    have hinv := ht.at_litExt hbias hfit
    rw [← hctl] at hinv
    exact ⟨hinv, ht.endLitlen hfit⟩
  case copyLiterals =>
    obtain ⟨hd, hlit⟩ := hl
    rw [engineStep_at_copyLiterals hctl]
    split
    · exact sound_literalsHead ⟨hrun, hd⟩ hlit
    · exact sound_opStep (copyLiteralsOp_lands ⟨hrun, hd⟩ hlit) rfl fun _ _ ht => ⟨ht.busy, ht.at_line (by simp)⟩
  case literals n =>
    obtain ⟨hd, hroom, hip⟩ := hl
    have hd : Decoding s := ⟨hrun, hd⟩
    cases n with
    | zero => rw [engineStep_at_literals_zero hctl]; exact ⟨_, rfl, hd.at_line (by simp)⟩
    | succ n => rw [engineStep_at_literals_succ hctl]; exact sound_literalStep hd hroom hip
  case endTest =>
    have hd : Decoding s := ⟨hrun, hl⟩
    exact ⟨_, engineStep_endTest_busy hb hctl, (hd.withRet _).afterEndTest⟩
  case readOffset =>
    have hd : Decoding s := ⟨hrun, hl⟩
    rw [engineStep_at_readOffset hctl]
    split
    · exact sound_offsetStep hd
    · exact sound_opStep (readOffsetOp_lands hd) rfl fun _ _ ⟨ht, ho⟩ => ⟨ht.busy, ht.at_readMatchlen ho⟩
  case readMatchlen =>
    obtain ⟨hd, ho⟩ := hl
    have hd : Decoding s := ⟨hrun, hd⟩
    rw [engineStep_at_readMatchlen hctl]
    split
    · refine sound_lenHead hd ?_
      rintro _ ht rfl hfit
      exact ⟨ht.at_matchExt ho rfl hfit, ht.endMatchlen ho hfit⟩
    · exact sound_opStep (readMatchlenOp_lands hd ho) rfl fun _ _ ⟨ht, ho, hm⟩ => ⟨ht.busy, ht.at_copyMatch ho hm⟩
  case matchExt =>
    obtain ⟨hd, ho, hbias, -⟩ := hl
    rw [engineStep_at_matchExt hctl]
    refine sound_extStep ⟨hrun, hd⟩ ?_
    rintro b n t ht rfl hfit
    have hfit : (s.addExt b).lenAcc + s.lenBias ≤ room s := hfit
    rw [hbias] at hfit
    have hinv := ht.at_matchExt ho hbias hfit
    rw [← hctl] at hinv
    exact ⟨hinv, ht.endMatchlen ho hfit⟩
  case copyMatch =>
    obtain ⟨hd, ho, hm⟩ := hl
    rw [engineStep_at_copyMatch hctl]
    exact sound_opStep (copyMatchOp_lands ⟨hrun, hd⟩ ho hm) rfl fun _ _ ht =>
      ⟨ht.busy, ht.at_line (by cases s.grain <;> simp [entryCtl])⟩

end Sys2Proof.Machine
end

section
/-! SUPPORT. The compressor keeps the invariant: the finder, the emitters and the insertions stay in bounds, and what is
emitted stays within the size bound of the input it stands for. -/

namespace Sys2Proof.Machine

/-! ### Sizes of what is emitted (R181) -/

theorem extSize_of_lt {n : Nat} (h : n < 15) : extSize n = 0 := if_pos h

theorem extSize_bound {n : Nat} (h : 15 ≤ n) : 255 * extSize n ≤ n + 240 := by
  rw [extSize, if_neg (by omega)]; omega

theorem sequenceBytes_length (lits : List Byte) (off : Half) (mlen : Nat) :
    (sequenceBytes lits off mlen).length = lits.length + 3 + extSize lits.length + extSize (mlen - 4) := by
  simp only [sequenceBytes, List.length_cons, List.length_append, extBytes_length, offsetBytes_length]; omega

theorem finalBytes_length (x : BitVec 4) (lits : List Byte) :
    (finalBytes x lits).length = lits.length + 1 + extSize lits.length := by
  simp only [finalBytes, List.length_cons, List.length_append, extBytes_length]; omega

/-- A sequence with a match costs at most 256 bytes for 255 bytes of the input it stands for: the 3 bytes of its token
and its offset are paid by the match. -/
theorem sequenceBytes_size (lits : List Byte) (off : Half) {mlen : Nat} (h : 4 ≤ mlen) :
    255 * (sequenceBytes lits off mlen).length ≤ 256 * (lits.length + mlen) := by
  rw [sequenceBytes_length]
  by_cases hl : lits.length < 15 <;> by_cases hm : mlen - 4 < 15
  · rw [extSize_of_lt hl, extSize_of_lt hm]; omega
  · have := extSize_bound (Nat.le_of_not_lt hm)
    rw [extSize_of_lt hl]; omega
  · have := extSize_bound (Nat.le_of_not_lt hl)
    rw [extSize_of_lt hm]; omega
  · have := extSize_bound (Nat.le_of_not_lt hl)
    have := extSize_bound (Nat.le_of_not_lt hm)
    omega

/-- A final sequence costs two bytes more than that. -/
theorem finalBytes_size (x : BitVec 4) (lits : List Byte) :
    255 * (finalBytes x lits).length ≤ 256 * lits.length + 510 := by
  rw [finalBytes_length]
  by_cases hl : lits.length < 15
  · rw [extSize_of_lt hl]; omega
  · have := extSize_bound (Nat.le_of_not_lt hl); omega

/-- An output within the size bound fits OUT (R8, R181). -/
theorem le_maxCsize_of_size {c : Config} {n k : Nat} (hn : 255 * n ≤ 256 * k + 510) (hk : k ≤ c.maxSize) :
    n ≤ maxCsize c := by unfold maxCsize; omega

/-! ### The state of a compression -/

/-- The invariant while a compression runs, but for its line. -/
structure Encoding (s : State) : Prop extends Running s, Compressing s

theorem Encoding.nreg_le {s : State} (h : Encoding s) : s.nreg ≤ maxCsize s.cfg :=
  h.input.trans (maxSize_lt_maxCsize s.cfg).le

theorem Encoding.lt_posW {s : State} (h : Encoding s) {n : Nat} (hn : n ≤ s.nreg) : n < 2 ^ posW s.cfg :=
  hn.trans_lt h.widths.nreg

/-- The compressor's registers and the table change, within their widths and the input; ANCHOR and OUT do not. -/
theorem Encoding.update {s t : State} (h : Encoding s) (ht : t = { s with
    ctl := t.ctl, ret := t.ret, ip := t.ip, off := t.off, mlen := t.mlen, seq4 := t.seq4, hidx := t.hidx
    cand := t.cand, ht := t.ht }) (hcan : Canonical t) (hw : Widths t) (hrun : s.anchor ≤ t.ip)
    (hip : t.ip ≤ s.nreg) : Encoding t := by
  rw [ht] at hcan hw ⊢
  exact {
    cfg := h.cfg
    canonical := hcan
    widths := hw
    busy := h.busy
    noErr := h.noErr
    noResult := h.noResult
    input := h.input
    run := hrun
    cursor := hip
    size := h.size
    written := h.written }

/-- The cursor and the match change, within the input. -/
theorem Encoding.advance {s t : State} (h : Encoding s) (ht : t = { s with
    ctl := t.ctl, ret := t.ret, ip := t.ip, off := t.off, mlen := t.mlen }) (hrun : s.anchor ≤ t.ip)
    (hip : t.ip ≤ s.nreg) (hm : t.mlen = s.mlen ∨ t.mlen ≤ s.nreg) : Encoding t := by
  have hm' : t.mlen < 2 ^ posW s.cfg := by
    rcases hm with hm | hm
    · rw [hm]; exact h.widths.mlen
    · exact h.lt_posW hm
  refine h.update (by rw [ht]) ?_ ?_ hrun hip
  · rw [ht]; exact h.canonical.congr rfl rfl rfl rfl
  · rw [ht]; exact { h.widths with ip := h.lt_posW hip, mlen := hm' }

/-- The table takes entries that fit it. -/
theorem Encoding.table {s t : State} (h : Encoding s) (ht : t = { s with ht := t.ht }) (hwf : Table.wf t.ht)
    (hnew : ∀ q ∈ t.ht, q ∈ s.ht ∨ (q.1 < 2 ^ s.cfg.hashLog ∧ q.2.length ≤ s.cfg.candidateDepth)) : Encoding t := by
  have hpos : ∀ q ∈ t.ht, q.1 < 2 ^ s.cfg.hashLog := fun q hq => (hnew q hq).elim (h.canonical.htPos q) And.left
  have hdepth : ∀ q ∈ t.ht, q.2.length ≤ s.cfg.candidateDepth := fun q hq =>
    (hnew q hq).elim (h.canonical.htDepth q) And.right
  have hip : t.ip = s.ip := by rw [ht]
  refine h.update (by rw [ht]) ?_ ?_ (by rw [hip]; exact h.run) (by rw [hip]; exact h.cursor)
  · rw [ht]; exact { h.canonical with htWf := hwf, htPos := hpos, htDepth := hdepth }
  · rw [ht]; exact { h.widths with }

/-- The finder's registers (R24) take values that fit them. -/
theorem Encoding.finderRegs {s : State} (h : Encoding s) (v : Word) {i : Nat} {c : List Nat}
    (hi : i < 2 ^ s.cfg.hashLog) (hc : c.length ≤ s.cfg.candidateDepth ∧ ∀ p ∈ c, p < 2 ^ posW s.cfg) :
    Encoding { s with seq4 := v, hidx := i, cand := c } :=
  h.update rfl (h.canonical.congr rfl rfl rfl rfl) { h.widths with hidx := hi, cand := hc } h.run h.cursor

/-- Bytes are appended inside OUT. -/
theorem Running.wrote {s : State} (h : Running s) {vs : List Byte} (hfit : s.op + vs.length ≤ maxCsize s.cfg) :
    Running (s.wrote vs) where
  cfg := h.cfg
  canonical := h.canonical.wrote hfit
  widths := { h.widths with op := hfit.trans_lt (maxCsize_lt s.cfg) }
  busy := h.busy
  noErr := h.noErr
  noResult := h.noResult

/-! ### What the lines say of the table and the match -/

theorem TableBelow.mono {s : State} {p q : Nat} (h : TableBelow s p) (hpq : p ≤ q) : TableBelow s q :=
  fun i c hc => (h i c hc).trans_le hpq

theorem Canonical.bucket_length {s : State} (h : Canonical s) (i : Nat) :
    (s.bucket i).length ≤ s.cfg.candidateDepth := by
  rw [State.bucket]
  cases hr : Cells.read s.ht i with
  | none => exact Nat.zero_le _
  | some e => exact h.htDepth _ (Cells.mem_of_read hr)

/-- A match stays one where the cursor, the match registers and IN stay. -/
theorem Found.congr {s t : State} (f : Found s) (hip : t.ip = s.ip) (hoff : t.off = s.off) (hm : t.mlen = s.mlen)
    (hn : t.nreg = s.nreg) (hin : t.inMem = s.inMem) (he : t.inEra = s.inEra) : Found t where
  offPos := by rw [hoff]; exact f.offPos
  offBack := by rw [hoff, hip]; exact f.offBack
  long := by rw [hm]; exact f.long
  ends := by rw [hip, hm, hn]; exact f.ends
  same := by
    rw [hip, hoff, hm]
    intro i hi
    rw [State.inAt_congr hin he, State.inAt_congr hin he]
    exact f.same i hi

theorem Encoding.at_scan {s : State} (h : Encoding s) (hc : s.ctl = .scan) (ht : TableBelow s s.ip) : Invariant s :=
  h.toRunning.atLine (by simp [hc]) (by simp only [AtLine, hc]; exact ⟨h.toCompressing, ht⟩)

theorem Encoding.at_lookahead {s : State} (h : Encoding s) (hc : s.ctl = .lookahead) (ht : TableBelow s (s.ip + 1))
    (f : Found s) : Invariant s :=
  h.toRunning.atLine (by simp [hc]) (by simp only [AtLine, hc]; exact ⟨h.toCompressing, ht, f⟩)

theorem Encoding.at_emit {s : State} (h : Encoding s) (hc : s.ctl = .emit) (ht : TableBelow s (s.ip + 2))
    (f : Found s) : Invariant s :=
  h.toRunning.atLine (by simp [hc]) (by simp only [AtLine, hc]; exact ⟨h.toCompressing, ht, f⟩)

/-! ### The finder -/

/-- What `FIND_MATCH` makes of the state of a compression at a position where a match may start. -/
structure FinderEnd (s : State) (found : Bool) (t : State) : Prop extends Encoding t where
  frame : t = { s with seq4 := t.seq4, hidx := t.hidx, cand := t.cand, ht := t.ht, off := t.off, mlen := t.mlen }
  below : TableBelow t (s.ip + 1)
  isMatch : found = true → Found t

theorem exec_findMatch_encoding {s : State} (h : Encoding s) (hm : s.ip + s.cfg.mflimit ≤ s.nreg)
    (hbelow : TableBelow s s.ip) : ∃ b t, exec .findMatch s = .next (giveBit b t) ∧ FinderEnd s b t := by
  obtain ⟨hlim, hlog, hex, hdepth, -⟩ := h.cfg
  have hhash := fun v => hash4_lt s.cfg v hlog hex
  obtain ⟨b, t, hfind, ht, hres⟩ := findMatchWith_ok (hash4 s.cfg) hhash (by omega) h.nreg_le hbelow
  have hexec : exec .findMatch s = .next (giveBit b t) := by
    show (findMatchWith (hash4 s.cfg) s).outcome giveBit = _
    rw [hfind]; rfl
  generalize le32 (s.inRun s.ip 4) = v at ht
  have hcan : Encoding { s with seq4 := v, hidx := hash4 s.cfg v, cand := s.bucket (hash4 s.cfg v) } :=
    h.finderRegs v (hhash v) ⟨h.canonical.bucket_length _, fun p hp =>
      h.lt_posW ((hbelow _ p hp).le.trans h.cursor)⟩
  have htab : Encoding { s with
      seq4 := v, hidx := hash4 s.cfg v, cand := s.bucket (hash4 s.cfg v)
      ht := Cells.write s.ht (hash4 s.cfg v) (s.ip :: (s.bucket (hash4 s.cfg v)).take (s.cfg.candidateDepth - 1)) } :=
    hcan.table rfl (table_wf_write _ (List.cons_ne_nil _ _) h.canonical.htWf) fun q hq => by
      rcases Cells.mem_write hq with rfl | hq
      · exact .inr ⟨hhash v, by simp only [List.length_cons, List.length_take]; omega⟩
      · exact .inl hq
  have hip : t.ip = s.ip := by rw [ht]
  have hnreg : t.nreg = s.nreg := by rw [ht]
  have hbucket : ∀ i, t.bucket i =
      if i = hash4 s.cfg v then s.ip :: (s.bucket (hash4 s.cfg v)).take (s.cfg.candidateDepth - 1) else s.bucket i :=
    bucket_write s t _ _ (by rw [ht])
  have hmlen : t.mlen = s.mlen ∨ t.mlen ≤ s.nreg := by
    rcases hres with ⟨-, f, -⟩ | ⟨-, -, hml, -⟩
    · have := f.ends; exact .inr (by omega)
    · exact .inl hml
  have henc : Encoding t :=
    htab.advance (by rw [ht]) (by rw [hip]; exact h.run) (by rw [hip]; exact h.cursor) hmlen
  refine ⟨b, t, hexec, henc, by rw [ht], ?_, ?_⟩
  · intro i c hc
    rw [hbucket] at hc
    split at hc
    · rcases List.mem_cons.1 hc with rfl | hc
      · exact Nat.lt_succ_self _
      · exact (hbelow _ c (List.mem_of_mem_take hc)).trans (Nat.lt_succ_self _)
    · exact (hbelow _ c hc).trans (Nat.lt_succ_self _)
  · rintro rfl
    rcases hres with ⟨-, f, -⟩ | ⟨hb, -⟩
    · exact f
    · cases hb

/-! ### The lines -/

/-- The operation ends with the bytes appended. -/
theorem sound_appendAll_finish {s : State} (h : Encoding s) {vs : List Byte}
    (hfit : s.op + vs.length ≤ maxCsize s.cfg) : Sound (andThen (.next (s.wrote vs)) finish) :=
  ⟨_, by rw [andThen, if_pos (show (s.wrote vs).status = .busy from h.busy)],
    (h.toRunning.wrote hfit).finish (h.written.wrote vs)⟩

theorem sound_lastStep {s : State} (h : Encoding s) : Sound (lastStep s) := by
  have hsize := h.size
  have hrun := h.run
  have hcur := h.cursor
  rw [lastStep]
  split
  · obtain ⟨-, -, -, -, -, -, hempty⟩ := h.cfg
    have hfit : s.op + s.cfg.emptyOutput.length ≤ maxCsize s.cfg := by unfold maxCsize; omega
    rw [appendAll_ok hfit]
    exact sound_appendAll_finish h hfit
  · have hlen := finalBytes_size 0#4 (s.inRun s.anchor (s.nreg - s.anchor))
    rw [State.inRun_length] at hlen
    have hfit : s.op + (finalBytes 0#4 (s.inRun s.anchor (s.nreg - s.anchor))).length ≤ maxCsize s.cfg :=
      le_maxCsize_of_size (k := s.nreg) (by omega) h.input
    have hexec : exec (.emitLast s.anchor) s =
        .next (s.wrote (finalBytes 0#4 (s.inRun s.anchor (s.nreg - s.anchor)))) := by
      show (emitLastOp s.anchor s).outcome quiet = _
      rw [emitLastOp_ok (hrun.trans hcur) h.nreg_le hfit]; rfl
    rw [hexec]
    exact sound_appendAll_finish h hfit

/-- The loop head after the finder (R176). -/
theorem FinderEnd.afterFind {s t : State} {b : Bool} (h : FinderEnd s b t) (hc : s.ctl = .scan)
    (hm : s.ip + s.cfg.mflimit ≤ s.nreg) : Invariant (afterFind (giveBit b t)) := by
  have hip : t.ip = s.ip := by rw [h.frame]
  have hctl : t.ctl = s.ctl := by rw [h.frame]
  have hcfg : t.cfg = s.cfg := by rw [h.frame]
  have hnreg : t.nreg = s.nreg := by rw [h.frame]
  have hbelow : TableBelow t (t.ip + 1) := by rw [hip]; exact h.below
  rw [Machine.afterFind]
  split
  · rename_i hret
    have hb : b = true := by simpa using hret
    have f := h.isMatch hb
    have henc : ∀ c, Encoding { giveBit b t with ctl := c } := fun c => h.advance rfl h.run h.cursor (.inl rfl)
    cases hl : (giveBit b t).cfg.lazy
    · exact (henc .emit).at_emit rfl (hbelow.mono (Nat.le_succ _)) (f.congr rfl rfl rfl rfl rfl rfl)
    · exact (henc .lookahead).at_lookahead rfl hbelow (f.congr rfl rfl rfl rfl rfl rfl)
  · obtain ⟨-, -, -, -, hone, hstep, -⟩ := h.cfg
    have hmove : t.ip + t.cfg.scanStep ≤ t.nreg := by rw [hcfg] at hstep ⊢; omega
    have henc : Encoding { giveBit b t with ip := t.ip + t.cfg.scanStep } :=
      h.advance rfl (h.run.trans (Nat.le_add_right _ _)) hmove (.inl rfl)
    exact henc.at_scan (hctl.trans hc) (hbelow.mono (Nat.add_le_add_left hone _))

theorem sound_scanStep {s : State} (h : Encoding s) (hc : s.ctl = .scan) (ht : TableBelow s s.ip) :
    Sound (scanStep s) := by
  rw [scanStep]
  split
  · rename_i hm
    obtain ⟨b, t, hexec, hend⟩ := exec_findMatch_encoding h hm ht
    exact ⟨_, by rw [hexec, andThen, if_pos (show (giveBit b t).status = .busy from hend.busy)], hend.afterFind hc hm⟩
  · exact sound_lastStep h

/-- The match held against the one at the next position (R148). -/
theorem FinderEnd.afterLookahead {s t : State} {b : Bool} (h : FinderEnd { s with ip := s.ip + 1 } b t)
    (hs : Encoding s) (hc : s.ctl = .lookahead) (f : Found s) : Invariant (afterLookahead s (giveBit b t)) := by
  have hip : t.ip = s.ip + 1 := by rw [h.frame]
  have hctl : t.ctl = s.ctl := by rw [h.frame]
  have hnreg : t.nreg = s.nreg := by rw [h.frame]
  have hanchor : t.anchor = s.anchor := by rw [h.frame]
  have hin : t.inMem = s.inMem := by rw [h.frame]
  have hera : t.inEra = s.inEra := by rw [h.frame]
  have hbelow : TableBelow t (s.ip + 2) := h.below
  rw [Machine.afterLookahead]
  split
  · rename_i hlonger
    have hb : b = true := by simpa using hlonger.1
    have henc : Encoding (giveBit b t) := h.advance rfl h.run h.cursor (.inl rfl)
    exact henc.at_lookahead (hctl.trans hc) (show TableBelow t (t.ip + 1) by rw [hip]; exact hbelow)
      ((h.isMatch hb).congr rfl rfl rfl rfl rfl rfl)
  · have hends := f.ends
    have henc : Encoding { giveBit b t with ip := s.ip, off := s.off, mlen := s.mlen, ctl := .emit } :=
      h.advance rfl (show t.anchor ≤ s.ip by rw [hanchor]; exact hs.run)
        (show s.ip ≤ t.nreg by omega) (.inr (show s.mlen ≤ t.nreg by omega))
    exact henc.at_emit rfl hbelow (f.congr rfl rfl rfl hnreg hin hera)

theorem sound_lookaheadStep {s : State} (h : Encoding s) (hc : s.ctl = .lookahead) (ht : TableBelow s (s.ip + 1))
    (f : Found s) : Sound (lookaheadStep s) := by
  rw [lookaheadStep]
  split
  · rename_i hm
    have hnext : Encoding { s with ip := s.ip + 1 } :=
      h.advance rfl (h.run.trans (Nat.le_succ _)) (show s.ip + 1 ≤ s.nreg by omega) (.inl rfl)
    obtain ⟨b, t, hexec, hend⟩ := exec_findMatch_encoding hnext hm ht
    exact ⟨_, by rw [hexec, andThen, if_pos (show (giveBit b t).status = .busy from hend.busy)],
      hend.afterLookahead h hc f⟩
  · have henc : Encoding { s with ctl := .emit } := h.advance rfl h.run h.cursor (.inl rfl)
    exact ⟨_, rfl, henc.at_emit rfl (ht.mono (Nat.le_succ _)) (f.congr rfl rfl rfl rfl rfl rfl)⟩

/-- The bytes of the match at the cursor emitted from `b` on fit, and with ANCHOR moved past the match the output is
again within the size bound. -/
theorem Encoding.emitted {s : State} (h : Encoding s) (f : Found s) {b : Nat} (hab : s.anchor ≤ b) (hb : b ≤ s.ip)
    {bs : List Byte} (hbs : bs = sequenceBytes (s.inRun s.anchor (b - s.anchor)) s.off (s.mlen + (s.ip - b))) :
    s.op + bs.length ≤ maxCsize s.cfg ∧ Encoding (afterEmit (s.wrote bs)) := by
  have hlong := f.long
  have hends := f.ends
  have hsize : 255 * (s.op + bs.length) ≤ 256 * (s.ip + s.mlen) := by
    have hseq := sequenceBytes_size (s.inRun s.anchor (b - s.anchor)) s.off (mlen := s.mlen + (s.ip - b)) (by omega)
    rw [← hbs, State.inRun_length] at hseq
    have := h.size
    omega
  have hfit : s.op + bs.length ≤ maxCsize s.cfg :=
    le_maxCsize_of_size (k := s.nreg) (by omega) h.input
  have hpos : s.ip + s.mlen < 2 ^ posW s.cfg := h.lt_posW (by omega)
  have hrun := h.toRunning.wrote hfit
  exact ⟨hfit, {
    cfg := h.cfg
    canonical := hrun.canonical.congr rfl rfl rfl rfl
    widths := { hrun.widths with ip := hpos, anchor := hpos }
    busy := h.busy
    noErr := h.noErr
    noResult := h.noResult
    input := h.input
    run := le_refl _
    cursor := show s.ip + s.mlen ≤ s.nreg by omega
    size := hsize
    written := h.written.wrote bs }⟩

theorem sound_emitStep {s : State} (h : Encoding s) (ht : TableBelow s (s.ip + 2)) (f : Found s) :
    Sound (emitStep s) := by
  have hlong := f.long
  obtain ⟨b, hstart, hab, hb, -⟩ := matchStart_ok f h.run h.nreg_le
  obtain ⟨bs, hbs⟩ : ∃ bs, bs = sequenceBytes (s.inRun s.anchor (b - s.anchor)) s.off (s.mlen + (s.ip - b)) := ⟨_, rfl⟩
  obtain ⟨hfit, henc⟩ := h.emitted f hab hb hbs
  have hexec : exec (.emitSeq s.anchor b s.off (s.mlen + (s.ip - b))) s = .next (s.wrote bs) := by
    show (emitSeqOp _ _ _ _ s).outcome quiet = _
    rw [emitSeqOp_ok hab (hb.trans h.cursor) h.nreg_le (by rw [← hbs]; exact hfit), ← hbs]; rfl
  obtain ⟨t, hins, hframe, hnew, hwf, hbucket⟩ := insertInside_ok (s.wrote bs) h.cfg h.nreg_le
  refine ⟨afterEmit t, by rw [emitStep, hstart]; simp only [hexec]; rw [emitEnd, hins]; rfl, ?_⟩
  have henc' : Encoding (afterEmit t) := henc.table (by rw [hframe]; rfl) (hwf h.canonical.htWf) hnew
  have hip : t.ip = s.ip := by rw [hframe]; rfl
  have hmlen : t.mlen = s.mlen := by rw [hframe]; rfl
  refine henc'.at_scan rfl fun i c hc => ?_
  rw [afterEmit_ip, hip, hmlen]
  rcases hbucket i c hc with hc | ⟨-, hc⟩
  · have := ht i c hc; omega
  · exact hc

/-- From a state of the invariant every line of the compressor answers a state of the invariant. -/
theorem sound_compressor {s : State} (h : Invariant s) (hb : s.status = .busy) (hc : s.ctl.compresses) :
    Sound (engineStep s) := by
  have hl := h.line
  have hrun := h.running hb
  rcases hc with hc | hc | hc <;> simp only [AtLine, hc] at hl <;> rw [engineStep, hc]
  · obtain ⟨hcomp, ht⟩ := hl
    exact sound_scanStep ⟨hrun, hcomp⟩ hc ht
  · obtain ⟨hcomp, ht, f⟩ := hl
    exact sound_lookaheadStep ⟨hrun, hcomp⟩ hc ht f
  · obtain ⟨hcomp, ht, f⟩ := hl
    exact sound_emitStep ⟨hrun, hcomp⟩ ht f

end Sys2Proof.Machine
end

section
/-! SUPPORT. Every step keeps the invariant: the engine's lines, the starts of its operations, the host's moves. -/

namespace Sys2Proof.Machine

/-- From a state of the invariant the engine's line answers a state of the invariant. -/
theorem sound_engineStep {s : State} (h : Invariant s) (hb : s.status = .busy) : Sound (engineStep s) := by
  by_cases hc : s.ctl.compresses
  · exact sound_compressor h hb hc
  · exact sound_decompressor h hb hc

theorem engineStep_keeps_invariant {s t : State} (h : Invariant s) (hb : s.status = .busy)
    (hstep : engineStep s = .next t) : Invariant t := by
  obtain ⟨u, hu, hinv⟩ := sound_engineStep h hb
  rw [hu] at hstep
  cases hstep; exact hinv

theorem Invariant.beginCompress {s : State} (h : Invariant s) (hin : s.inLen ≤ s.cfg.maxSize) :
    Invariant (beginCompress s) := by
  have hpos := Nat.two_pow_pos (posW s.cfg)
  have henc : Encoding (Machine.beginCompress s) := {
    cfg := h.cfg
    canonical := { h.canonical with htWf := ⟨.nil, nofun⟩, htPos := nofun, htDepth := nofun }
    widths := { h.widths with outLen := hpos, ip := hpos, op := hpos, anchor := hpos, nreg := h.widths.inLen }
    busy := rfl
    noErr := rfl
    noResult := rfl
    input := hin
    run := le_refl _
    cursor := Nat.zero_le _
    size := le_refl _
    written := fun a ha => absurd ha (Nat.not_lt_zero a) }
  exact henc.at_scan rfl nofun

theorem Invariant.beginDecompress {s : State} (h : Invariant s) (hin : s.inLen ≤ maxCsize s.cfg)
    (hout : s.outLimit ≤ s.cfg.maxSize) : Invariant (beginDecompress s) := by
  have hpos := Nat.two_pow_pos (posW s.cfg)
  have hdec : Decoding (Machine.beginDecompress s) := {
    cfg := h.cfg
    canonical := h.canonical.congr rfl rfl rfl rfl
    widths := { h.widths with outLen := hpos, ip := hpos, op := hpos, nreg := h.widths.inLen, lim := h.widths.outLimit }
    busy := rfl
    noErr := rfl
    noResult := rfl
    input := hin
    cursor := Nat.zero_le _
    output := Nat.zero_le _
    limit := hout
    written := fun a ha => absurd ha (Nat.not_lt_zero a) }
  exact hdec.at_line (c := entryCtl s.grain) (by cases s.grain <;> simp [entryCtl])

theorem CommandEffect.keeps_invariant {s t : State} (h : Invariant s) (effect : CommandEffect s t) : Invariant t := by
  cases effect with
  | none => exact h
  | compress _ hin => exact h.beginCompress hin
  | decompress _ hin hout => exact h.beginDecompress hin hout

theorem HostEffect.keeps_invariant {s t : State} {m : HostMove} (h : Invariant s) (effect : HostEffect s m t) :
    Invariant t := by
  obtain ⟨hin, hout, hhint⟩ := And.intro h.widths.inLen (And.intro h.widths.outLimit h.widths.sizeHint)
  cases effect with
  | command v hexec => exact (exec_decodeCommand_inv hexec).keeps_invariant h
  | reset => exact invariant_of_reset h.cfg rfl
  | looked _ d => exact h.hostSide s.host d
  | inLen v hb hv => exact h.idle_update hb rfl hv hout hhint h.canonical.inWf h.canonical.inPos
  | outLimit v hb hv => exact h.idle_update hb rfl hin hv hhint h.canonical.inWf h.canonical.inPos
  | sizeHint v hb hv => exact h.idle_update hb rfl hin hout hv h.canonical.inWf h.canonical.inPos
  | input p b hb hp =>
    refine h.idle_update hb rfl hin hout hhint (memory_wf_write p b h.canonical.inWf) fun q hq => ?_
    rcases Cells.mem_write hq with rfl | hq
    · exact hp
    · exact h.canonical.inPos q hq

/-- Settles O41: a step is a line of an engine or a move of the host, and both keep the invariant. -/
theorem invariantKept : Obligations.InvariantKept := by
  unfold Obligations.InvariantKept
  intro s t h hstep
  cases step_inv hstep with
  | engine _ hb hline => exact engineStep_keeps_invariant h hb hline
  | nothing => exact h
  | waited rest => exact h.hostSide rest s.hostData
  | move m rest _ _ effect => exact effect.keeps_invariant (h.hostSide rest s.hostData)

end Sys2Proof.Machine
end

section
/-! SUPPORT. What an answer of the machine can be: the engine's turn answers a next state, and a move of the host stops
the machine only outside the host's protocol. -/

namespace Sys2Proof.Machine

/-- The answers of a turn of the host: a next state, the fault of a position that does not exist (log entry 20), and the
refusals of the host's protocol (log entries 8, 9, 10). -/
inductive HostAnswer : Host.Outcome State Fault Refusal → Prop
  | next (t : State) : HostAnswer (.next t)
  | noSuchPosition : HostAnswer (.fault .noSuchPosition)
  | illegalStart : HostAnswer (.refused .illegalStart)
  | accessWhileBusy : HostAnswer (.refused .hostAccessWhileBusy)
  | valueTooWide : HostAnswer (.refused .valueTooWide)

theorem HostAnswer.fault_eq {f : Fault} (h : HostAnswer (.fault f)) : f = .noSuchPosition := by
  cases h; rfl

theorem HostAnswer.refused_cases {r : Refusal} (h : HostAnswer (.refused r)) :
    r = .illegalStart ∨ r = .hostAccessWhileBusy ∨ r = .valueTooWide := by
  cases h <;> simp

theorem hostAnswer_unlessBusy {s : State} {o : Host.Outcome State Fault Refusal} (h : HostAnswer o) :
    HostAnswer (unlessBusy s o) := by
  rw [unlessBusy]; split
  · exact .accessWhileBusy
  · exact h

theorem hostAnswer_ifFits (v : Nat) (s t : State) : HostAnswer (ifFits v s t) := by
  rw [ifFits]; split
  · exact .next t
  · exact .valueTooWide

theorem hostAnswer_startWhen (legal : Prop) [Decidable legal] (b : State → State) (s : State) :
    HostAnswer (startWhen legal b s) := by
  rw [startWhen]; split
  · exact .next s
  · split
    · exact .next _
    · exact .illegalStart

/-- A host access to a position of IN or OUT. -/
theorem hostAnswer_position (p : Nat) (s t : State) :
    HostAnswer (if p < maxCsize s.cfg then .next t else .fault .noSuchPosition) := by
  split
  · exact .next t
  · exact .noSuchPosition

theorem hostAnswer_command (op : BitVec 2) (s : State) : HostAnswer (exec (decodeCommand op) s) := by
  rw [decodeCommand]; split
  · exact .next s
  · exact hostAnswer_startWhen _ _ s
  · exact hostAnswer_startWhen _ _ s
  · exact hostAnswer_startWhen _ _ s

theorem hostAnswer_write (r : CReg) (v : Nat) (s : State) : HostAnswer (hostWrite r v s) := by
  cases r with
  | cmd =>
    rw [hostWrite]; split
    · exact hostAnswer_command _ s
    · exact .valueTooWide
  | status | err | outLen => exact hostAnswer_unlessBusy (.next s)
  | inLen | outLimit | sizeHint => exact hostAnswer_unlessBusy (hostAnswer_ifFits v s _)

theorem hostAnswer_read (r : CReg) (s : State) : HostAnswer (hostRead r s) := by
  rw [hostRead]; split
  · exact .next _
  · exact hostAnswer_unlessBusy (.next _)

/-- A move of the host stops the machine only outside the host's protocol, from any state. -/
theorem hostAnswer_turn (m : HostMove) (s : State) : HostAnswer (hostTurn m s) := by
  cases m with
  | write r v => exact hostAnswer_write r v s
  | read r => exact hostAnswer_read r s
  | writeIn p b => exact hostAnswer_unlessBusy (hostAnswer_position p s _)
  | readOut p => exact hostAnswer_unlessBusy (hostAnswer_position p s _)
  | wait => exact .next s
  | reset => exact .next (hostReset s)

/-- With the host making no move a step answers a next state: the line of the engine is sound while BUSY, and nothing
runs otherwise. -/
theorem step_next_of_hostIdle {s : State} (h : Invariant s) (hi : HostIdle s) : ∃ t, step s = .next t := by
  by_cases hb : s.status = .busy
  · obtain ⟨t, ht, -⟩ := sound_engineStep h hb
    exact ⟨t, (step_eq_engineStep hb hi).trans ht⟩
  · rcases hi with hh | ⟨rest, hh⟩
    · exact ⟨s, step_idle hh hb⟩
    · exact ⟨_, step_wait_idle hh hb⟩

theorem hostIdle_or_move (s : State) : HostIdle s ∨ ∃ m rest, s.host = m :: rest ∧ m ≠ .wait := by
  cases hh : s.host with
  | nil => exact .inl (.inl hh)
  | cons m rest =>
    by_cases hm : m = .wait
    · subst hm; exact .inl (.inr ⟨rest, hh⟩)
    · exact .inr ⟨m, rest, rfl, hm⟩

theorem hostAnswer_step {s : State} (h : Invariant s) : HostAnswer (step s) := by
  rcases hostIdle_or_move s with hi | ⟨m, rest, hh, hm⟩
  · obtain ⟨t, ht⟩ := step_next_of_hostIdle h hi
    rw [ht]; exact .next t
  · rw [step_eq_hostTurn hh hm]; exact hostAnswer_turn m _

/-- Settles O42: from a state of the invariant the engine's lines are sound, so only a move of the host can stop the
machine, in the ways of `HostAnswer`. -/
theorem engineNeverFaults : Obligations.EngineNeverFaults := by
  unfold Obligations.EngineNeverFaults
  intro s h
  have answer := hostAnswer_step h
  exact ⟨step_next_of_hostIdle h, fun f hf => (hf ▸ answer).fault_eq, fun r hr => (hr ▸ answer).refused_cases⟩

end Sys2Proof.Machine
end

section
/-! SUPPORT. Decoding and encoding agree (R91, R97, R102): a sequence is well formed exactly where its row is the one its
own token byte selects, and each element and command is read back at its place. -/

namespace Sys2Proof.Machine

/-! ### The rows of a sequence -/

theorem isSeq_cases {i : Instr} {lits : List Byte} {off : Half} {mlen : Nat} (h : IsSeq i lits off mlen) :
    i = .seq lits off mlen ∨ i = .seqXL lits off mlen ∨ i = .seqXM lits off mlen ∨ i = .seqXLM lits off mlen := by
  cases i <;> simp [IsSeq, seqFields] at h ⊢ <;> exact h

theorem isLast_cases {i : Instr} {x : BitVec 4} {lits : List Byte} (h : IsLast i x lits) :
    i = .last x lits ∨ i = .lastXL x lits := by
  cases i <;> simp [IsLast, lastFields] at h ⊢ <;> exact h

theorem coded_of_isSeq {i : Instr} {lits : List Byte} {off : Half} {mlen : Nat} (h : IsSeq i lits off mlen) :
    ctxOf i = some .sequence ∧ encode i = some (sequenceBytes lits off mlen) := by
  rcases isSeq_cases h with rfl | rfl | rfl | rfl <;> exact ⟨rfl, rfl⟩

theorem coded_of_isLast {i : Instr} {x : BitVec 4} {lits : List Byte} (h : IsLast i x lits) :
    ctxOf i = some .sequence ∧ encode i = some (finalBytes x lits) := by
  rcases isLast_cases h with rfl | rfl <;> exact ⟨rfl, rfl⟩

/-- The row that a sequence's own token byte selects, by its lengths (R102). -/
theorem seqInstr_tokenByte (lits : List Byte) (off : Half) (mlen : Nat) :
    seqInstr (tokenByte (selOf lits.length) (selOf (mlen - 4))) lits off mlen =
      if 15 ≤ lits.length then (if 19 ≤ mlen then .seqXLM lits off mlen else .seqXL lits off mlen)
      else (if 19 ≤ mlen then .seqXM lits off mlen else .seq lits off mlen) := by
  have hm : 15 ≤ mlen - 4 ↔ 19 ≤ mlen := by omega
  simp only [seqInstr, litSel_tokenByte (selOf_le _) (selOf_le _), matchSel_tokenByte (selOf_le _), selOf_eq_fifteen, hm]

/-- The row that a final sequence's own token byte selects, by its literal length (R102). -/
theorem lastInstr_tokenByte (x : BitVec 4) (lits : List Byte) :
    lastInstr (tokenByte (selOf lits.length) x.toNat) lits =
      if 15 ≤ lits.length then .lastXL x lits else .last x lits := by
  have hx : x.toNat ≤ 15 := by have := x.isLt; omega
  simp only [lastInstr, litSel_tokenByte (selOf_le _) hx, matchSel_finalToken, selOf_eq_fifteen]

/-- The operand constraints of a `SEQ` row are that its own token byte selects it, and that its match length, which the
selector holds less 4, is at least 4 (R99, R102). -/
theorem wellFormed_iff_seqInstr {i : Instr} {lits : List Byte} {off : Half} {mlen : Nat} (h : IsSeq i lits off mlen) :
    wellFormed i = true ↔
      4 ≤ mlen ∧ seqInstr (tokenByte (selOf lits.length) (selOf (mlen - 4))) lits off mlen = i := by
  rw [seqInstr_tokenByte]
  rcases isSeq_cases h with rfl | rfl | rfl | rfl <;> simp [wellFormed, ite_eq_iff] <;> omega

/-- The operand constraint of a `LAST` row is that its own token byte selects it (R102). -/
theorem wellFormed_iff_lastInstr {i : Instr} {x : BitVec 4} {lits : List Byte} (h : IsLast i x lits) :
    wellFormed i = true ↔ lastInstr (tokenByte (selOf lits.length) x.toNat) lits = i := by
  rw [lastInstr_tokenByte]
  rcases isLast_cases h with rfl | rfl <;> simp [wellFormed]

/-! ### Decode of encode -/

/-- A well-formed sequence is read back from its bytes, its row included. -/
theorem decode_sequenceBytes {i : Instr} {lits : List Byte} {off : Half} {mlen : Nat} (h : IsSeq i lits off mlen)
    (hw : wellFormed i = true) (rest : List Byte) :
    decode .sequence (sequenceBytes lits off mlen ++ rest) = .ok (i, rest) := by
  obtain ⟨h4, hrow⟩ := (wellFormed_iff_seqInstr h).1 hw
  rw [decode, decodeSequence_seq, Nat.sub_add_cancel h4, hrow]

theorem decode_finalBytes {i : Instr} {x : BitVec 4} {lits : List Byte} (h : IsLast i x lits)
    (hw : wellFormed i = true) : decode .sequence (finalBytes x lits) = .ok (i, []) := by
  rw [decode, decodeSequence_last, (wellFormed_iff_lastInstr h).1 hw]

theorem decode_lenextEnd {v : Byte} (hv : v ≠ 255#8) (rest : List Byte) :
    decode .lenext (v :: rest) = .ok (.lenextEnd v, rest) := by
  rw [decode, if_neg hv]

theorem decode_offsetBytes (off : Half) (rest : List Byte) :
    decode .offset (offsetBytes off ++ rest) = .ok (.offset off, rest) := by
  simp [offsetBytes, decode]

/-- Settles O34: a sequence is read as the row its token byte selects, which is its own where it is well formed; every
other coded instruction is read from the one or two bytes it has. -/
theorem decodeOfEncode : Obligations.DecodeOfEncode := by
  unfold Obligations.DecodeOfEncode
  intro i bs rest hw he hlast
  cases i with
  | seq lits off mlen | seqXL lits off mlen | seqXM lits off mlen | seqXLM lits off mlen =>
    cases he; exact ⟨.sequence, rfl, decode_sequenceBytes (by rfl) hw rest⟩
  | last x lits | lastXL x lits =>
    obtain rfl := hlast nofun
    cases he; exact ⟨.sequence, rfl, by rw [List.append_nil]; exact decode_finalBytes rfl hw⟩
  | lenextCont => cases he; exact ⟨.lenext, rfl, rfl⟩
  | lenextEnd v => cases he; exact ⟨.lenext, rfl, decode_lenextEnd (of_decide_eq_true hw) rest⟩
  | literal b => cases he; exact ⟨.literal, rfl, rfl⟩
  | offset off => cases he; exact ⟨.offset, rfl, decode_offsetBytes off rest⟩
  | nop | compress | decompress | decompressInto => cases he; exact ⟨.command, rfl, rfl⟩
  | encodeLength | sel | decodeLength | hash4 | htLookupInsert | matchVerify | matchExtend | findMatch | emitSeq | emitLast
  | fetchToken | readLitlen | endTest | readOffset | readMatchlen | parseSequence | copyLiterals | copyMatch => cases he

/-! ### Encode of decode -/

/-- `i`, read at the place `c` from the head of `bs` with `rest` left, is well formed, belongs to `c`, and its bytes are
the bytes read: the conclusion of `Obligations.EncodeOfDecode`. -/
def ReadBack (c : Ctx) (bs rest : List Byte) (i : Instr) : Prop :=
  wellFormed i = true ∧ ctxOf i = some c ∧ ∃ used, encode i = some used ∧ bs = used ++ rest

theorem readBack_sequence {bs rest : List Byte} {i : Instr} (h : decodeSequence bs = .ok (i, rest)) :
    ReadBack .sequence bs rest i := by
  rcases decodeSequence_inv h with ⟨lits, off, m, rfl, rfl⟩ | ⟨x, lits, rfl, rfl, rfl⟩
  · have hi := isSeq_seqInstr (tokenByte (selOf lits.length) (selOf m)) lits off (m + 4)
    obtain ⟨hc, he⟩ := coded_of_isSeq hi
    exact ⟨(wellFormed_iff_seqInstr hi).2 ⟨Nat.le_add_left 4 m, rfl⟩, hc, _, he, rfl⟩
  · have hi := isLast_lastInstr (tokenByte (selOf lits.length) x.toNat) lits
    rw [matchSel_finalToken] at hi
    obtain ⟨hc, he⟩ := coded_of_isLast hi
    exact ⟨(wellFormed_iff_lastInstr hi).2 rfl, hc, _, he, (List.append_nil _).symm⟩

theorem readBack_command {b : Byte} (hb : b.toNat < 4) (bs : List Byte) :
    ReadBack .command (b :: bs) bs (decodeCommand (BitVec.ofNat 2 b.toNat)) := by
  have hcases : b = 0#8 ∨ b = 1#8 ∨ b = 2#8 ∨ b = 3#8 := by bv_omega
  rcases hcases with rfl | rfl | rfl | rfl <;> exact ⟨rfl, rfl, _, rfl, rfl⟩

theorem readBack_lenext (b : Byte) (bs : List Byte) :
    ReadBack .lenext (b :: bs) bs (if b = 255#8 then .lenextCont else .lenextEnd b) := by
  split
  next hb => subst hb; exact ⟨rfl, rfl, _, rfl, rfl⟩
  next hb => exact ⟨decide_eq_true hb, rfl, _, rfl, rfl⟩

theorem readBack_literal (b : Byte) (bs : List Byte) : ReadBack .literal (b :: bs) bs (.literal b) :=
  ⟨rfl, rfl, _, rfl, rfl⟩

theorem readBack_offset (b0 b1 : Byte) (bs : List Byte) :
    ReadBack .offset (b0 :: b1 :: bs) bs (.offset (offsetOf b0 b1)) :=
  ⟨rfl, rfl, _, rfl, by rw [offsetBytes_offsetOf]; rfl⟩

/-- Settles O35, place by place: `Obligations.EncodeOfDecode` concludes `ReadBack`. -/
theorem encodeOfDecode : Obligations.EncodeOfDecode := by
  unfold Obligations.EncodeOfDecode
  intro c bs rest i h
  change ReadBack c bs rest i
  match c, bs with
  | .command, [] | .lenext, [] | .literal, [] | .offset, [] | .offset, [_] => cases h
  | .command, b :: bs =>
    rw [decode] at h
    split at h
    next hb => cases h; exact readBack_command hb _
    next => cases h
  | .sequence, bs => exact readBack_sequence h
  | .lenext, b :: bs => cases h; exact readBack_lenext b _
  | .literal, b :: bs => cases h; exact readBack_literal b _
  | .offset, b0 :: b1 :: bs => cases h; exact readBack_offset b0 b1 _

/-! ### Sizes and words -/

/-- Settles O36, from the lengths of the bytes of the two kinds of sequence. -/
theorem sequenceLengthInBytes : Obligations.SequenceLengthInBytes := by
  unfold Obligations.SequenceLengthInBytes
  intro i bs he
  constructor
  · intro lits off mlen h
    cases (coded_of_isSeq h).2.symm.trans he
    have hlen := sequenceBytes_length lits off mlen
    simp only [extSize] at hlen; omega
  · intro x lits h
    cases (coded_of_isLast h).2.symm.trans he
    have hlen := finalBytes_length x lits
    simp only [extSize] at hlen; omega

/-- Settles O37: the decoder evaluated on each of the eight words. -/
theorem wordsOfTheSpecDecode : Obligations.WordsOfTheSpecDecode := by
  unfold Obligations.WordsOfTheSpecDecode
  decide

end Sys2Proof.Machine
end

section
/-! SUPPORT. The length codec as instructions (R120 to R127) and the elements of the stream (R93): the one meaning each
has over the bytes appended, scanned or taken, and what that comes to in each of its cases. -/

namespace Sys2Proof.Machine

/-! ### Encode -/

theorem exec_encodeLength (n : Nat) (s : State) :
    exec (.encodeLength n) s = (appendAll (extBytes n) s).outcome quiet := rfl

theorem extBytes_of_le {n : Nat} (h : 15 ≤ n) :
    extBytes n = List.replicate ((n - 15) / 255) 255#8 ++ [BitVec.ofNat 8 ((n - 15) % 255)] := if_neg (by omega)

theorem extSize_of_le {n : Nat} (h : 15 ≤ n) : extSize n = (n - 15) / 255 + 1 := if_neg (by omega)

/-- Settles O8: below 15 there is no extension byte; from 15 on the extension bytes, which fit, are appended. -/
theorem encodeLengthAppends : Obligations.EncodeLengthAppends := by
  unfold Obligations.EncodeLengthAppends
  intro n s
  refine ⟨fun hn => ?_, fun hn hroom => ?_⟩
  · rw [exec_encodeLength, extBytes_of_lt hn]; rfl
  · have hfit : s.op + (extBytes n).length ≤ maxCsize s.cfg := by rw [extBytes_length, extSize_of_le hn]; exact hroom
    rw [exec_encodeLength, appendAll_ok hfit, ← extBytes_of_le hn]
    exact ⟨_, rfl, State.appended_wrote⟩

/-- Settles O9: `SEL` hands its selector back, and the token byte is the head of a sequence's bytes. -/
theorem selIsMinimumWithFifteen : Obligations.SelIsMinimumWithFifteen := by
  unfold Obligations.SelIsMinimumWithFifteen
  simp only [← selOf_eq_min]
  exact ⟨fun _ _ => rfl, fun i lits off mlen h => ⟨_, (coded_of_isSeq h).2⟩⟩

/-! ### Decode -/

/-- `DECODE_LENGTH` is the scan of the bytes left. -/
theorem exec_decodeLength {s : State} {bs : List Byte} (h : StreamAt s bs) (sel : BitVec 4) (bias rm : Nat) :
    exec (.decodeLength sel bias rm) s = (scanRes (scanLength sel.toNat bias rm bs) s).outcome giveNum := by
  show (decodeLengthOp sel.toNat bias rm s).outcome giveNum = _
  rw [decodeLengthOp, h.restIn_eq, Res.bind_ok, takeLen_eq_scan]

/-- Settles O10, from the scan of the extension bytes of a length that fits. -/
theorem decodeLengthRoundTrip : Obligations.DecodeLengthRoundTrip := by
  unfold Obligations.DecodeLengthRoundTrip
  intro n bias rm s rest hfit hbs
  have hsel : (BitVec.ofNat 4 (selOf n)).toNat = selOf n := by
    have := selOf_le n
    simp only [BitVec.toNat_ofNat]; omega
  rw [exec_decodeLength hbs, hsel, scanLength_extBytes n bias rm rest hfit]
  rfl

/-- A selector that passes the room by itself: no byte is read. -/
theorem scanLength_selector_overflow {sel bias rm : Nat} (bs : List Byte) (h : rm < sel + bias) :
    scanLength sel bias rm bs = .overflow 0 := if_pos h

/-- A selector below 15 that fits: it is the value, and no byte is read. -/
theorem scanLength_selector_value {sel bias rm : Nat} (bs : List Byte) (hfit : sel + bias ≤ rm) (h : sel < 15) :
    scanLength sel bias rm bs = .value sel 0 := by
  rw [scanLength, if_neg (by omega), if_neg (by omega)]

/-- Selector 15 and `k` bytes 255 that fit: the scan goes on after them. -/
theorem scanLength_chain {bias rm k : Nat} (bs : List Byte) (h : 15 + 255 * k + bias ≤ rm) :
    scanLength 15 bias rm (List.replicate k 255#8 ++ bs) = scanExt bias rm (15 + 255 * k) k bs := by
  rw [scanLength, if_neg (by omega), if_pos rfl, scanExt_replicate _ _ _ _ _ _ h, Nat.zero_add]

/-- The last byte of a length: smaller than 255, and the sum fits. -/
theorem scanExt_end {bias rm n used : Nat} {b : Byte} (rest : List Byte) (hb : b ≠ 255#8)
    (hfit : n + b.toNat + bias ≤ rm) : scanExt bias rm n used (b :: rest) = .value (n + b.toNat) (used + 1) := by
  rw [scanExt, if_neg (by omega), if_neg hb]

/-- The byte at which the sum passes the room: consumed, and the last one read. -/
theorem scanExt_pass {bias rm n used : Nat} {b : Byte} (rest : List Byte) (hover : rm < n + b.toNat + bias) :
    scanExt bias rm n used (b :: rest) = .overflow (used + 1) := if_pos hover

/-- Settles O11: the selector alone decides, or the chain of 255 after it is passed over and what follows it decides. -/
theorem decodeLengthCases : Obligations.DecodeLengthCases := by
  unfold Obligations.DecodeLengthCases
  intro sel bias rm s bs hbs
  rw [exec_decodeLength hbs]
  refine ⟨fun hover => ?_, fun hfit hsel => ?_, fun hsel k => ?_⟩
  · rw [scanLength_selector_overflow bs hover]; rfl
  · rw [scanLength_selector_value bs hfit hsel]; rfl
  rw [hsel]
  refine ⟨?ends, ?cut, ?tooLong⟩
  case ends =>
    rintro b rest rfl hb hfit
    rw [scanLength_chain _ (by omega), scanExt_end rest hb hfit]; rfl
  case cut =>
    rintro rfl hfit
    have hend : s.ip + k = s.nreg := by simpa using hbs.length_eq
    have hscan := scanLength_chain [] hfit
    rw [List.append_nil] at hscan
    rw [hscan]
    show Host.Outcome.next (raise .truncatedInput { s with ip := s.ip + k }) = _
    rw [hend]
  case tooLong =>
    rintro b rest rfl hfit hover
    rw [scanLength_chain _ hfit, scanExt_pass rest hover]; rfl

/-! ### Spellings -/

theorem takeLength_chain (k : Nat) {b : Byte} (hb : b ≠ 255#8) (rest : List Byte) :
    takeLength 15 (List.replicate k 255#8 ++ b :: rest) = some (15 + 255 * k + b.toNat, rest) := by
  have hlt : b.toNat < 255 := by bv_omega
  have hread := takeExt_chain k b.toNat 15 hlt rest
  rw [BitVec.ofNat_toNat, BitVec.setWidth_eq] at hread
  rw [takeLength, if_pos rfl, hread]

/-- Settles O12: what is read as a length is its spelling, the spelling is read as the length, and a chain is summed. -/
theorem lengthSpellingUnique : Obligations.LengthSpellingUnique := by
  unfold Obligations.LengthSpellingUnique
  refine ⟨fun n sel bs hsel => ⟨fun h => ?_, ?_⟩, fun k b rest hb => takeLength_chain k hb rest⟩
  · obtain ⟨hs, hbs⟩ := takeLength_unique hsel h
    exact ⟨hs.symm, by rwa [List.append_nil] at hbs⟩
  · rintro ⟨rfl, rfl⟩
    simpa using takeLength_extBytes n []

/-! ### The elements of the stream -/

/-- Both `LENEXT` rows are one pass of the loop of `DECODE_LENGTH` with their byte. -/
theorem exec_of_lenext {v : Byte} {i : Instr} (h : (i = .lenextCont ∧ v = 255#8) ∨ i = .lenextEnd v) (s : State) :
    exec i s = (lenextOp v s).outcome giveNum := by
  rcases h with ⟨rfl, rfl⟩ | rfl <;> rfl

theorem exec_literal (b : Byte) (s : State) : exec (.literal b) s = (takeLits [b] s).outcome quiet := rfl

theorem exec_offset (off : Half) (s : State) : exec (.offset off) s = (takeOffset off s).outcome quiet := rfl

/-- Settles O32: each element takes its field, whose check passes or raises its error. -/
theorem elementsOfTheStream : Obligations.ElementsOfTheStream := by
  unfold Obligations.ElementsOfTheStream
  refine fun s => ⟨?lenext, ?literal, ?offset⟩
  case lenext =>
    rintro v i hi t rfl
    rw [exec_of_lenext hi]
    refine ⟨fun hfit => ?_, fun hover => ?_⟩
    · rw [lenextOp_ok (Nat.not_lt.2 hfit)]; rfl
    · rw [lenextOp_overflow hover]; rfl
  case literal =>
    intro b hroom
    have hfit : s.op + [b].length ≤ maxCsize s.cfg := hroom
    rw [exec_literal, takeLits_ok hfit]
    exact ⟨_, rfl, State.appended_wrote (s := { s with ip := s.ip + 1 })⟩
  case offset =>
    intro off
    rw [exec_offset]
    refine ⟨fun ⟨hpos, hback⟩ => ?_, fun hbad => ?_⟩
    · rw [takeOffset_ok hpos hback]; rfl
    · rw [takeOffset_invalid (hbad.imp_left (half_eq_zero off).2)]; rfl

end Sys2Proof.Machine
end

section
/-! SUPPORT. The match finder as instructions (R141 to R145): what each operation's completion says of its answer, its
registers and its bucket, for the hash function of the configuration and for any other. -/

namespace Sys2Proof.Machine

/-! ### The comparison -/

theorem exec_matchVerify (c p : Nat) (s : State) :
    exec (.matchVerify c p) s = (matchVerifyOp c p s).outcome giveBit := rfl

theorem exec_matchExtend (c p : Nat) (s : State) :
    exec (.matchExtend c p) s = (matchExtendOp c p s).outcome giveNum := rfl

/-- Settles O15: inside the input the bit is the comparison of the two runs of four bytes, within the distance. -/
theorem verifyComparesFourBytes : Obligations.VerifyComparesFourBytes := by
  unfold Obligations.VerifyComparesFourBytes
  intro c p s hcp hp hn
  rw [exec_matchVerify, matchVerifyOp_ok hcp hp hn]
  exact ⟨_, rfl, by simp [State.inRun_four]⟩

/-- Where no byte is left before the last five, the loop of `MATCH_EXTEND` stops at once. -/
theorem extendLoop_noRoom {c p m : Nat} (fuel : Nat) {s : State} (h : s.nreg ≤ p + m + 5) :
    extendLoop c p fuel m s = .ok m s := by
  cases fuel with
  | zero => rfl
  | succ f => exact if_neg (by omega)

/-- Settles O16: without room before the last five bytes the loop stops at 4; with room it ends where the match does. -/
theorem extendIsMaximal : Obligations.ExtendIsMaximal := by
  unfold Obligations.ExtendIsMaximal
  intro c p s hcp hn
  rw [exec_matchExtend, matchExtendOp]
  by_cases hroom : s.nreg < p + 9
  · rw [extendLoop_noRoom _ (by omega)]
    exact ⟨4, rfl, le_refl _, by omega, fun _ => rfl, by omega, .inl (by omega)⟩
  · obtain ⟨m, hloop, hm, hsame, hlim, hend⟩ := extendLoop_ok (s.nreg - p) 4 s hcp hn (by omega)
    rw [hloop]
    exact ⟨m, rfl, hm, hsame, fun h => absurd h hroom, hlim, hend⟩

/-! ### The hash function and the table -/

theorem exec_hash4 (v : Word) (s : State) : exec (.hash4 v) s = .next { s with ret := .num (hash4 s.cfg v) } := rfl

/-- With no exception listed and the values of R7, the hash is bits 31:20 of the wrapping product (R141). -/
theorem hash4_eq {c : Config} (v : Word) (hmult : c.hashMult = 2654435761#32) (hlog : c.hashLog = 12)
    (hnone : c.hashExceptions = []) : hash4 c v = v.toNat * 2654435761 % 2 ^ 32 / 2 ^ 20 := by
  rw [hash4, hnone, hmult, hlog, Cells.read_nil, Option.getD_none, BitVec.toNat_mul]
  rfl

/-- Settles O13: the product at R7's values, the bound in every configuration, and a list of exceptions for any
function. -/
theorem hashFourValue : Obligations.HashFourValue := by
  unfold Obligations.HashFourValue
  refine ⟨fun v s hmult hlog hnone => ?value, fun v s hok => ?bucket, fun f c hok hf => ?reached⟩
  case value => rw [exec_hash4, hash4_eq v hmult hlog hnone]
  case bucket =>
    obtain ⟨-, hlog, hex, -⟩ := hok
    exact ⟨_, exec_hash4 v s, hash4_lt s.cfg v hlog hex⟩
  case reached =>
    obtain ⟨hlim, hlog, -, hrest⟩ := hok
    obtain ⟨l, hl, heq⟩ := hash4_any c f
    refine ⟨{ c with hashExceptions := l }, ⟨hlim, hlog, fun p hp => ?_, hrest⟩, rfl, fun v s hs => ?_⟩
    · obtain ⟨v, hv⟩ := hl p hp
      rw [hv]; exact hf v
    · rw [exec_hash4, hs, heq]

theorem exec_htLookupInsert (h pos : Nat) (s : State) :
    exec (.htLookupInsert h pos) s = (htLookupInsertOp h pos s).outcome giveEntry := rfl

/-- Settles O14: the entry handed back is the one of the state before, and the write is to one bucket of it. -/
theorem lookupThenInsert : Obligations.LookupThenInsert := by
  unfold Obligations.LookupThenInsert
  intro h pos s hh
  rw [exec_htLookupInsert, htLookupInsertOp, if_pos hh]
  have hbucket := bucket_write s (giveEntry (s.bucket h)
    { s with ht := Cells.write s.ht h (pos :: (s.bucket h).take (s.cfg.candidateDepth - 1)) }) h _ rfl
  refine ⟨_, rfl, rfl, fun hdepth => ?_, hbucket⟩
  rw [hbucket, if_pos rfl, hdepth, Nat.sub_self, List.take_zero]

/-! ### The finder -/

theorem exec_findMatch (s : State) : exec .findMatch s = (findMatchWith (hash4 s.cfg) s).outcome giveBit := rfl

/-- Settles O17, from what the finder does with any hash function into the buckets. -/
theorem findMatchReports : Obligations.FindMatchReports := by
  unfold Obligations.FindMatchReports
  intro s hok hstart hn hbelow
  obtain ⟨hlim, hlog, hex, -⟩ := hok
  obtain ⟨b, t, hfind, ht, hres⟩ :=
    findMatchWith_ok (hash4 s.cfg) (hash4_lt s.cfg · hlog hex) (by omega) hn hbelow
  have hseq : t.seq4 = le32 (s.inRun s.ip 4) := by rw [ht]
  have hhidx : t.hidx = hash4 s.cfg t.seq4 := by rw [ht]
  have hcand : t.cand = s.bucket t.hidx := by rw [ht]
  have hht : t.ht = Cells.write s.ht t.hidx (s.ip :: (s.bucket t.hidx).take (s.cfg.candidateDepth - 1)) := by rw [ht]
  refine ⟨giveBit b t, by rw [exec_findMatch, hfind]; rfl, by rw [ht]; rfl, ?seq4, hhidx, hcand, ?bucket, ?result⟩
  case seq4 =>
    show t.seq4.toNat = _
    rw [hseq, State.inRun_four, le32_toNat]
  case bucket =>
    intro h
    show t.bucket h = if h = t.hidx then _ else _
    rw [bucket_write s t t.hidx _ hht]
    split
    next heq => rw [heq]
    next => rfl
  case result =>
    rcases hres with ⟨rfl, hfound, newer, c, older, hsplit, -, hoff, hrep, hnewer, hmax⟩ |
      ⟨rfl, hoff, hmlen, hnone⟩
    · exact .inl ⟨rfl, hfound.congr rfl rfl rfl rfl rfl rfl, newer, c, older, hsplit, hoff, hrep, hnewer, hmax⟩
    · exact .inr ⟨rfl, hoff, hmlen, hnone⟩

/-- An answer of `HT_LOOKUP_INSERT`, with no premise on the bucket: the entry it held, and HT alone changed. -/
theorem htLookupInsertOp_inv {h pos : Nat} {s t : State} {e : List Nat} (hop : htLookupInsertOp h pos s = .ok e t) :
    e = s.bucket h ∧ t = { s with ht := t.ht } := by
  rw [htLookupInsertOp] at hop
  split at hop <;> cases hop
  exact ⟨rfl, rfl⟩

/-- A match that `findMatchWith` reports, with no premise on the hash function: a position kept in some bucket repeats
the bytes at the cursor. -/
theorem findMatchWith_inv {hash : Word → Nat} {s t : State} (h9 : s.ip + 9 ≤ s.nreg)
    (hfind : findMatchWith hash s = .ok true t) : ∃ h, ∃ c ∈ s.bucket h, t.off = BitVec.ofNat 16 (s.ip - c) ∧
      4 ≤ t.mlen ∧ s.ip + t.mlen + 5 ≤ s.nreg ∧ Repeats s c t.mlen := by
  rw [findMatchWith, Res.bind_eq_ok] at hfind
  obtain ⟨bs, u, htake, hfind⟩ := hfind
  obtain ⟨-, rfl, -⟩ := takeIn_inv htake
  rw [Res.bind_eq_ok] at hfind
  obtain ⟨cand, v, hlook, htry⟩ := hfind
  obtain ⟨rfl, hv⟩ := htLookupInsertOp_inv hlook
  rw [hv] at htry
  rcases (tryCandidates_inv (by exact h9) htry).2 with ⟨hbest, -⟩ | hmatch
  · exact absurd rfl hbest
  · exact ⟨hash (le32 bs), hmatch⟩

/-- Settles O18: the candidate is an earlier position in reach, so that OFF holds its whole distance. -/
theorem findMatchSoundForAnyHash : Obligations.FindMatchSoundForAnyHash := by
  unfold Obligations.FindMatchSoundForAnyHash
  intro hash s t hbelow h9 hfind
  obtain ⟨h, c, hc, hoff, hlong, hends, hreach, hsame⟩ := findMatchWith_inv h9 hfind
  have hback : c < s.ip := hbelow h c hc
  have hdist : t.off.toNat = s.ip - c := by rw [hoff, BitVec.toNat_ofNat]; omega
  have hsource : s.ip - t.off.toNat = c := by omega
  exact ⟨by omega, by omega, by omega, hlong, hends, by rw [hsource]; exact hsame⟩

/-! ### The table along a compression -/

/-- A start while no operation runs, where it answers, begins the operation. -/
theorem startWhen_idle {legal : Prop} [Decidable legal] {b : State → State} {s t : State} (hidle : s.status ≠ .busy)
    (hstart : startWhen legal b s = .next t) : t = b s := by
  rw [startWhen, if_neg hidle] at hstart
  split at hstart <;> cases hstart
  rfl

theorem tableBelow_of_ht_nil {s : State} (h : s.ht = []) (p : Nat) : TableBelow s p := by
  intro i c hc
  rw [State.bucket, h] at hc
  cases hc

/-- Settles O47: the start leaves HT empty, and the invariant, which the step keeps, says it of the scan. -/
theorem tableHoldsEarlierPositions : Obligations.TableHoldsEarlierPositions := by
  unfold Obligations.TableHoldsEarlierPositions
  refine ⟨fun s t hidle hexec => ?_, fun s t hinv _ _ hstep hscan => ?_⟩
  · rw [startWhen_idle hidle (show startWhen _ beginCompress s = .next t from hexec)]
    exact tableBelow_of_ht_nil rfl _
  · have hline := (invariantKept s t hinv hstep).line
    simp only [AtLine, hscan] at hline
    exact hline.2

end Sys2Proof.Machine
end

section
/-! SUPPORT. The token encoder as instructions (R172, R173), and the line of a sequencer a step runs (R176, R224). -/

namespace Sys2Proof.Machine

/-! ### The token encoder -/

/-- `EMIT_SEQ` where its bytes fit. -/
theorem exec_emitSeq_fits {a b : Nat} {off : Half} {mlen : Nat} {s : State} (hab : a ≤ b) (hb : b ≤ s.nreg)
    (hn : s.nreg ≤ maxCsize s.cfg)
    (hfit : s.op + (sequenceBytes (s.inRun a (b - a)) off mlen).length ≤ maxCsize s.cfg) :
    exec (.emitSeq a b off mlen) s = .next (s.wrote (sequenceBytes (s.inRun a (b - a)) off mlen)) := by
  show (emitSeqOp a b off mlen s).outcome quiet = _
  rw [emitSeqOp_ok hab hb hn hfit]; rfl

/-- `EMIT_LAST` where its bytes fit. -/
theorem exec_emitLast_fits {a : Nat} {s : State} (ha : a ≤ s.nreg) (hn : s.nreg ≤ maxCsize s.cfg)
    (hfit : s.op + (finalBytes 0#4 (s.inRun a (s.nreg - a))).length ≤ maxCsize s.cfg) :
    exec (.emitLast a) s = .next (s.wrote (finalBytes 0#4 (s.inRun a (s.nreg - a)))) := by
  show (emitLastOp a s).outcome quiet = _
  rw [emitLastOp_ok ha hn hfit]; rfl

/-- Settles O19: the bytes of the sequence fit, so they are appended whole. -/
theorem emitSeqAppends : Obligations.EmitSeqAppends := by
  unfold Obligations.EmitSeqAppends
  intro a b off mlen s hab _ hb hn hroom
  refine ⟨_, exec_emitSeq_fits hab hb hn ?_, ?_⟩
  · rw [sequenceBytes_length, State.inRun_length]; omega
  · rw [← selOf_eq_min, ← selOf_eq_min]
    convert State.appended_wrote using 1
    rw [sequenceBytes, State.inRun_length]; rfl

/-- Settles O20: the bytes of the final sequence fit, so they are appended whole. -/
theorem emitLastAppends : Obligations.EmitLastAppends := by
  unfold Obligations.EmitLastAppends
  intro a s ha hn hroom
  refine ⟨_, exec_emitLast_fits ha hn ?_, ?_⟩
  · rw [finalBytes_length, State.inRun_length]; omega
  · rw [← selOf_eq_min]
    convert State.appended_wrote using 1
    rw [finalBytes, State.inRun_length]; rfl

/-! ### The lines of the sequencers -/

section
variable {s : State}

theorem engineStep_at_scan (hc : s.ctl = .scan) : engineStep s = scanStep s := by rw [engineStep, hc]
theorem engineStep_at_lookahead (hc : s.ctl = .lookahead) : engineStep s = lookaheadStep s := by rw [engineStep, hc]
theorem engineStep_at_emit (hc : s.ctl = .emit) : engineStep s = emitStep s := by rw [engineStep, hc]

end

/-- An instruction that leaves the operation running, then what the sequencer does after it. -/
theorem andThen_busy {o : Host.Outcome State Fault Refusal} {t : State} (h : o = .next t) (hb : t.status = .busy)
    (f : State → State) : andThen o f = .next (f t) := by
  rw [h, andThen, if_pos hb]

theorem scanStep_find {s t : State} (hm : s.ip + s.cfg.mflimit ≤ s.nreg) (h : exec .findMatch s = .next t)
    (hb : t.status = .busy) : scanStep s = .next (afterFind t) := by
  rw [scanStep, if_pos hm, andThen_busy h hb]

theorem scanStep_last {s : State} (hm : s.nreg < s.ip + s.cfg.mflimit) : scanStep s = lastStep s := by
  rw [scanStep, if_neg (Nat.not_le.2 hm)]

theorem lastStep_emitLast {s t : State} (hn : s.nreg ≠ 0) (h : exec (.emitLast s.anchor) s = .next t)
    (hb : t.status = .busy) : lastStep s = .next (finish t) := by
  rw [lastStep, if_neg hn, andThen_busy h hb]

theorem lastStep_empty {s : State} (hn : s.nreg = 0) (hb : s.status = .busy)
    (hfit : s.op + s.cfg.emptyOutput.length ≤ maxCsize s.cfg) :
    lastStep s = .next (finish (s.wrote s.cfg.emptyOutput)) := by
  rw [lastStep, if_pos hn, appendAll_ok hfit]
  exact andThen_busy (t := s.wrote s.cfg.emptyOutput) rfl hb finish

theorem lookaheadStep_find {s t : State} (hm : s.ip + 1 + s.cfg.mflimit ≤ s.nreg)
    (h : exec .findMatch { s with ip := s.ip + 1 } = .next t) (hb : t.status = .busy) :
    lookaheadStep s = .next (afterLookahead s t) := by
  rw [lookaheadStep, if_pos hm, andThen_busy h hb]

theorem lookaheadStep_emit {s : State} (hm : s.nreg < s.ip + 1 + s.cfg.mflimit) :
    lookaheadStep s = .next { s with ctl := .emit } := by
  rw [lookaheadStep, if_neg (Nat.not_le.2 hm)]

theorem emitStep_emitted {s t u : State} {b : Nat} (hstart : matchStart s = .ok b s)
    (h : exec (.emitSeq s.anchor b s.off (s.mlen + (s.ip - b))) s = .next t) (hins : insertInside t = .ok () u) :
    emitStep s = .next (afterEmit u) := by
  rw [emitStep, hstart]
  simp only [h]
  rw [emitEnd, hins]; rfl

theorem matchStart_plain {s : State} (h : s.cfg.backwardExtend = false) : matchStart s = .ok s.ip s := by
  rw [matchStart, h]; rfl

theorem insertInside_plain {s : State} (h : s.cfg.insertInsideMatch = false) : insertInside s = .ok () s := by
  rw [insertInside, h]; rfl

/-- Where the bytes end inside a field, the field raises `TruncatedInput` (R208). -/
theorem fieldStep_cut {c : Ctx} {after : Instr → State → State} {s : State} {bs : List Byte} {r : Reject}
    (h : StreamAt s bs) (hd : decode c bs = .error r) : fieldStep c after s = .next (raise .truncatedInput s) := by
  rw [fieldStep, h.withRest_eq, hd]

/-- The head of a length (R123), in its three cases. -/
theorem lenHead_cases (sel bias : Nat) (ext : Ctl) (done : State → State) (s : State) :
    (s.lim - s.op < sel + bias →
      lenHead sel bias ext done s = .next (raise .lengthOverflow { s with lenAcc := sel, lenBias := bias })) ∧
    (sel + bias ≤ s.lim - s.op → sel = 15 →
      lenHead sel bias ext done s = .next { s with lenAcc := sel, lenBias := bias, ctl := ext }) ∧
    (sel + bias ≤ s.lim - s.op → sel ≠ 15 →
      lenHead sel bias ext done s = .next (done { s with lenAcc := sel, lenBias := bias })) := by
  refine ⟨fun h => if_pos h, fun h h15 => ?_, fun h h15 => ?_⟩
  · rw [lenHead, room, if_neg (Nat.not_lt.2 h), if_pos h15]
  · rw [lenHead, room, if_neg (Nat.not_lt.2 h), if_neg h15]

/-- Settles O39: with the host making no move a step is the line the engine stands at, and each line runs what the
pseudocode names there. -/
theorem stepRunsSequencerLine : Obligations.StepRunsSequencerLine := by
  unfold Obligations.StepRunsSequencerLine
  intro s hb hi
  rw [step_eq_engineStep hb hi]
  refine ⟨?find, ?last, ?empty, ?goEmit, ?look, ?emitPlain, ?emit, ?operation, ?final, ?more, ?head, ?literals,
    ?literalsEnd, ?cut, ?offsetCut⟩
  case find =>
    intro hc hm t ht hbt
    rw [engineStep_at_scan hc, scanStep_find hm ht hbt]; rfl
  case last =>
    intro hc hm hn t ht hbt
    rw [engineStep_at_scan hc, scanStep_last hm, lastStep_emitLast hn ht hbt]; rfl
  case empty =>
    intro hc hm hn hfit
    rw [engineStep_at_scan hc, scanStep_last hm, lastStep_empty hn hb hfit]
    exact ⟨_, rfl, State.appended_wrote (s := { s with
      outLen := s.op + s.cfg.emptyOutput.length, status := .done, ctl := .rest })⟩
  case goEmit =>
    intro hc hm
    rw [engineStep_at_lookahead hc, lookaheadStep_emit hm]
  case look =>
    intro hc hm t ht hbt
    rw [engineStep_at_lookahead hc, lookaheadStep_find hm ht hbt]; rfl
  case emitPlain =>
    intro hc hback hins t ht
    have hcfg : t.cfg = s.cfg := (compFrame_execEmitSeq ht).cfg
    rw [engineStep_at_emit hc, emitStep_emitted (matchStart_plain hback) (by rw [Nat.sub_self]; exact ht)
      (insertInside_plain (by rw [hcfg]; exact hins))]
    rfl
  case emit =>
    intro hc b t u hstart ht hins
    rw [engineStep_at_emit hc, emitStep_emitted hstart ht hins]; rfl
  case operation =>
    intro c i c' hline hc t ht
    have hop : engineStep s = opStep i c' s := by
      rcases hline with ⟨rfl, rfl, rfl⟩ | ⟨hg, rfl, rfl, rfl⟩ | ⟨hg, rfl, rfl, rfl⟩ | ⟨hg, rfl, rfl, rfl⟩ |
        ⟨hg, rfl, rfl, rfl⟩ | ⟨rfl, rfl, rfl⟩
      · exact engineStep_at_fetchToken hc
      · rw [engineStep_at_readLitlen hc, if_neg hg]
      · rw [engineStep_at_copyLiterals hc, if_neg hg]
      · rw [engineStep_at_readOffset hc, if_neg hg]
      · rw [engineStep_at_readMatchlen hc, if_neg hg]
      · rw [engineStep_at_copyMatch hc]; cases s.grain <;> rfl
    rw [hop, opStep, ht]; rfl
  case final =>
    intro hc he
    rw [engineStep_endTest_busy hb hc, endTest, decide_eq_true he]
    exact ⟨_, rfl, rfl, rfl, rfl⟩
  case more =>
    intro hc he
    rw [engineStep_endTest_busy hb hc, endTest, decide_eq_false he]
    exact ⟨_, rfl, hb, rfl⟩
  case head =>
    rintro c sel bias ext fin (⟨rfl, rfl, rfl, rfl, rfl⟩ | ⟨rfl, rfl, rfl, rfl, rfl⟩) hg hc
    · rw [engineStep_at_readLitlen hc, if_pos hg]; exact lenHead_cases _ _ _ _ _
    · rw [engineStep_at_readMatchlen hc, if_pos hg]; exact lenHead_cases _ _ _ _ _
  case literals =>
    intro hc hg bs hbs
    rw [engineStep_at_copyLiterals hc, if_pos hg, literalsHead, hbs.withRest_eq]
    exact ⟨fun h => if_pos h, fun h => if_neg (Nat.not_lt.2 h)⟩
  case literalsEnd => exact engineStep_at_literals_zero
  case cut =>
    rintro (hc | hc | ⟨n, hc⟩) hbs
    · rw [engineStep_at_litExt hc, fieldStep_cut hbs rfl]
    · rw [engineStep_at_matchExt hc, fieldStep_cut hbs rfl]
    · rw [engineStep_at_literals_succ hc, fieldStep_cut hbs rfl]
  case offsetCut =>
    intro hc hg bs hlen hbs
    rw [engineStep_at_readOffset hc, if_pos hg]
    match bs with
    | [] => exact fieldStep_cut hbs rfl
    | [_] => exact fieldStep_cut hbs rfl
    | _ :: _ :: _ => exact absurd hlen (by simp)

end Sys2Proof.Machine
end

section
/-! SUPPORT. The streams a compression can make of an input, as byte lists (R171, R180): sequence by sequence they stand
for the input from its start on. Their size, their sequences, and what the reference reading makes of them. -/

namespace Sys2Proof.Machine

/-! ### The streams -/

/-- A match of `m` bytes at position `b` of an input that the encoder constraints (c) to (f) of R180 allow. -/
structure MatchIn (mflimit : Nat) (bs : List Byte) (b : Nat) (off : Half) (m : Nat) : Prop where
  long : 4 ≤ m
  offPos : 1 ≤ off.toNat
  offBack : off.toNat ≤ b
  ends : b + m + 5 ≤ bs.length
  starts : b + mflimit ≤ bs.length
  same : ∀ i < m, bs[b - off.toNat + i]? = bs[b + i]?

/-- The stream `out` of whole sequences with a match stands for the first `pos` bytes of the input. -/
inductive Covers (mflimit : Nat) (bs : List Byte) : Nat → List Byte → Prop
  | nothing : Covers mflimit bs 0 []
  | sequence {pos b m : Nat} {off : Half} {out : List Byte} (before : Covers mflimit bs pos out) (hb : pos ≤ b)
      (hm : MatchIn mflimit bs b off m) :
      Covers mflimit bs (b + m) (out ++ sequenceBytes ((bs.drop pos).take (b - pos)) off m)

/-- A whole compressed stream: sequences with a match, then the final sequence with the bytes left; for the empty input
the bytes of `EMPTY_OUTPUT` (R176, R177). -/
def Compressed (c : Config) (bs out : List Byte) : Prop :=
  if bs = [] then out = c.emptyOutput
  else ∃ pos pre, Covers c.mflimit bs pos pre ∧ out = pre ++ finalBytes 0#4 (bs.drop pos)

variable {mflimit pos : Nat} {bs out : List Byte}

theorem length_take_drop_of_le {b : Nat} (hb : pos ≤ b) (hl : b ≤ bs.length) :
    ((bs.drop pos).take (b - pos)).length = b - pos := by
  rw [List.length_take, List.length_drop]; omega

/-- The last five bytes are in no match. -/
theorem Covers.pos_le (h : Covers mflimit bs pos out) : pos = 0 ∨ pos + 5 ≤ bs.length := by
  cases h with
  | nothing => exact .inl rfl
  | sequence _ _ hm => exact .inr hm.ends

/-- In an input of at most `MFLIMIT` bytes no match starts: at the first byte there is nothing before it. -/
theorem Covers.of_short (h : Covers mflimit bs pos out) (hshort : bs.length ≤ mflimit) : pos = 0 ∧ out = [] := by
  cases h with
  | nothing => exact ⟨rfl, rfl⟩
  | sequence _ _ hm => have := hm.starts; have := hm.offPos; have := hm.offBack; omega

/-- R181 for the sequences with a match. -/
theorem Covers.size (h : Covers mflimit bs pos out) : 255 * out.length ≤ 256 * pos := by
  induction h with
  | nothing => exact Nat.zero_le _
  | @sequence pos b m off out _ hb hm ih =>
    have hends := hm.ends
    have hseq := sequenceBytes_size ((bs.drop pos).take (b - pos)) off hm.long
    rw [length_take_drop_of_le hb (by omega)] at hseq
    rw [List.length_append]; omega

/-! ### Their sequences (R180, R209) -/

/-- Reading on after a sequence with a match. -/
theorem parseFrom_sequenceBytes (lits : List Byte) (off : Half) {m : Nat} (h4 : 4 ≤ m) :
    ∃ i, IsSeq i lits off m ∧ ∀ fuel rest,
      parseFrom (fuel + 1) (sequenceBytes lits off m ++ rest) = (parseFrom fuel rest).map (i :: ·) := by
  obtain ⟨i, hi⟩ : ∃ i, i = seqInstr (tokenByte (selOf lits.length) (selOf (m - 4))) lits off m := ⟨_, rfl⟩
  have hseq : IsSeq i lits off m := by rw [hi]; exact isSeq_seqInstr _ _ _ _
  have hlast : lastFields i = none := by
    rcases isSeq_cases hseq with rfl | rfl | rfl | rfl <;> rfl
  refine ⟨i, hseq, fun fuel rest => ?_⟩
  rw [parseFrom, decodeSequence_seq, Nat.sub_add_cancel h4, ← hi]
  simp only [hlast, Option.isSome_none, Bool.false_eq_true, if_false]

/-- R180 (c) to (f) of a sequence with a match, and of the sequences after it. -/
theorem conforms_cons_of_isSeq {n : Nat} {i : Instr} {lits : List Byte} {off : Half} {m : Nat} (h : IsSeq i lits off m)
    (js : List Instr) : Conforms mflimit n pos (i :: js) ↔
      4 ≤ m ∧ 1 ≤ off.toNat ∧ off.toNat ≤ pos + lits.length ∧ pos + lits.length + m + 5 ≤ n ∧
        pos + lits.length + mflimit ≤ n ∧ Conforms mflimit n (pos + lits.length + m) js := by
  rw [Conforms, show seqFields i = some (lits, off, m) from h]

/-- R180 (g) of the final sequence. -/
theorem conforms_final {n : Nat} {lits : List Byte} {i : Instr} (h : IsLast i 0#4 lits) (hall : pos + lits.length = n)
    (hfive : 5 ≤ n → 5 ≤ lits.length) : Conforms mflimit n pos [i] := by
  rcases isLast_cases h with rfl | rfl <;> exact ⟨rfl, rfl, hall, hfive⟩

/-- The sequences of a stream that stands for the first `pos` bytes are read first, and keep the encoder constraints
where the sequences after them do. -/
theorem Covers.parses (h : Covers mflimit bs pos out) : ∃ is : List Instr, is.length ≤ out.length ∧
    (∀ fuel rest, parseFrom (is.length + fuel) (out ++ rest) = (parseFrom fuel rest).map (is ++ ·)) ∧
    ∀ js, Conforms mflimit bs.length pos js → Conforms mflimit bs.length 0 (is ++ js) := by
  induction h with
  | nothing => exact ⟨[], le_refl _, fun fuel rest => by simp, fun _ => id⟩
  | @sequence pos b m off out _ hb hm ih =>
    obtain ⟨is, hlen, hparse, hconf⟩ := ih
    have hends := hm.ends
    have hlits := length_take_drop_of_le hb (show b ≤ bs.length by omega)
    generalize (bs.drop pos).take (b - pos) = lits at hlits ⊢
    obtain ⟨i, hi, hread⟩ := parseFrom_sequenceBytes lits off hm.long
    have hbound : (is ++ [i]).length ≤ (out ++ sequenceBytes lits off m).length := by
      rw [List.length_append, List.length_append, sequenceBytes_length, List.length_singleton]; omega
    refine ⟨is ++ [i], hbound, fun fuel rest => ?_, fun js hjs => ?_⟩
    · rw [List.length_append, List.length_singleton, Nat.add_assoc, Nat.add_comm 1, List.append_assoc, hparse, hread,
        Option.map_map]
      simp only [Function.comp_def, List.append_assoc, List.singleton_append]
    · have hp : pos + lits.length = b := by omega
      rw [List.append_assoc]
      refine hconf _ ((conforms_cons_of_isSeq hi js).2 ?_)
      rw [hp]
      exact ⟨hm.long, hm.offPos, hm.offBack, hm.ends, hm.starts, hjs⟩

/-- The final sequence is the last one read. -/
theorem parseFrom_finalBytes (fuel : Nat) (x : BitVec 4) (lits : List Byte) :
    ∃ i, IsLast i x lits ∧ parseFrom (fuel + 1) (finalBytes x lits) = some [i] := by
  obtain ⟨i, hi⟩ : ∃ i, i = lastInstr (tokenByte (selOf lits.length) x.toNat) lits := ⟨_, rfl⟩
  have hlast : IsLast i x lits := by
    have := isLast_lastInstr (tokenByte (selOf lits.length) x.toNat) lits
    rwa [matchSel_finalToken, ← hi] at this
  refine ⟨i, hlast, ?_⟩
  rw [parseFrom, decodeSequence_last, ← hi]
  simp only [show lastFields i = some (x, lits) from hlast, Option.isSome_some, if_true]

/-! ### What the reference reading makes of them (R182, R224) -/

/-- Copying inside the part of the input already made gives the next bytes of the input, where they repeat. -/
theorem copyBack_take {off n p : Nat} (h1 : 1 ≤ off) (hp : off ≤ p) (hn : p + n ≤ bs.length)
    (hsame : ∀ i < n, bs[p - off + i]? = bs[p + i]?) : copyBack n off (bs.take p) = bs.take (p + n) := by
  induction n generalizing p with
  | zero => rfl
  | succ n ih =>
    have hlen : (bs.take p).length = p := by rw [List.length_take]; omega
    have hbyte : (bs.take p).getD ((bs.take p).length - off) 0#8 = bs[p] := by
      have h0 := hsame 0 (Nat.succ_pos n)
      rw [Nat.add_zero, Nat.add_zero, List.getElem?_eq_getElem (by omega), List.getElem?_eq_getElem (by omega)] at h0
      rw [hlen, List.getD_eq_getElem _ _ (by rw [hlen]; omega), List.getElem_take]
      exact Option.some.inj h0
    rw [copyBack, hbyte, List.take_append_getElem (by omega), ih (by omega) (by omega) fun i hi => ?_]
    · rw [Nat.add_assoc, Nat.add_comm 1]
    · have := hsame (i + 1) (Nat.succ_lt_succ hi)
      rwa [show p + 1 - off + i = p - off + (i + 1) by omega, show p + 1 + i = p + (i + 1) by omega]

/-- The reference reading from a token byte whose literals are there and fit the limit. -/
theorem expandFrom_token {limit fuel l m : Nat} {lits acc rest : List Byte} (hl : l = lits.length) (hm : m ≤ 15)
    (hfit : acc.length + l ≤ limit) :
    expandFrom limit (fuel + 1) (tokenByte (selOf l) m :: (extBytes l ++ (lits ++ rest))) acc =
      expandEnd limit fuel (tokenByte (selOf l) m) (acc ++ lits) rest := by
  subst hl
  rw [expandFrom_cons, expandLitlen, litSel_tokenByte (selOf_le _) hm, scanLength_extBytes _ _ _ _ (by omega)]
  simp only
  rw [← extBytes_length, List.drop_left, expandLits, if_neg (by rw [List.length_append]; omega), List.take_left,
    List.drop_left]

/-- The reference reading from a valid offset whose match fits the limit. -/
theorem expandEnd_match {limit fuel l n : Nat} {acc rest : List Byte} {off : Half} (ho : 1 ≤ off.toNat)
    (hback : off.toNat ≤ acc.length) (hfit : acc.length + (n + 4) ≤ limit) :
    expandEnd limit fuel (tokenByte l (selOf n)) acc (offsetBytes off ++ (extBytes n ++ rest)) =
      expandFrom limit fuel rest (copyBack (n + 4) off.toNat acc) := by
  have hoff : off ≠ 0#16 := mt (half_eq_zero off).1 (by omega)
  rw [offsetBytes, List.cons_append, List.singleton_append, expandEnd, offsetOf_offsetBytes,
    if_neg (not_or.2 ⟨hoff, Nat.not_lt.2 hback⟩), expandMatchlen, matchSel_tokenByte (selOf_le _),
    scanLength_extBytes _ _ _ _ (by omega)]
  simp only
  rw [← extBytes_length, List.drop_left]

theorem expandFrom_sequenceBytes {limit fuel m : Nat} {lits acc rest : List Byte} {off : Half} (h4 : 4 ≤ m)
    (ho : 1 ≤ off.toNat) (hback : off.toNat ≤ acc.length + lits.length) (hfit : acc.length + lits.length + m ≤ limit) :
    expandFrom limit (fuel + 1) (sequenceBytes lits off m ++ rest) acc =
      expandFrom limit fuel rest (copyBack m off.toNat (acc ++ lits)) := by
  rw [sequenceBytes, List.cons_append, List.append_assoc, List.append_assoc, List.append_assoc,
    expandFrom_token rfl (selOf_le _) (by omega),
    expandEnd_match ho (by rwa [List.length_append]) (by rw [List.length_append]; omega), Nat.sub_add_cancel h4]

theorem expandFrom_finalBytes {limit fuel : Nat} {x : BitVec 4} {lits acc : List Byte}
    (hfit : acc.length + lits.length ≤ limit) :
    expandFrom limit (fuel + 1) (finalBytes x lits) acc = .ok (acc ++ lits) := by
  have h := expandFrom_token (limit := limit) (fuel := fuel) (acc := acc) (rest := []) (m := x.toNat) (lits := lits)
    rfl (by have := x.isLt; omega) hfit
  rw [List.append_nil] at h
  exact h

/-- The reference reading of a stream that stands for the first `pos` bytes makes them, and goes on with what
follows. -/
theorem Covers.expands (h : Covers mflimit bs pos out) {limit : Nat} (hlimit : bs.length ≤ limit) :
    ∃ k ≤ out.length, ∀ fuel rest,
      expandFrom limit (k + fuel) (out ++ rest) [] = expandFrom limit fuel rest (bs.take pos) := by
  induction h with
  | nothing => exact ⟨0, le_refl _, fun fuel rest => by rw [Nat.zero_add]; rfl⟩
  | @sequence pos b m off out _ hb hm ih =>
    obtain ⟨k, hk, hread⟩ := ih
    have hends := hm.ends
    have hoff := hm.offBack
    have hlits := length_take_drop_of_le hb (show b ≤ bs.length by omega)
    have hmade : (bs.take pos).length = pos := by rw [List.length_take]; omega
    have hjoin : bs.take pos ++ (bs.drop pos).take (b - pos) = bs.take b := by
      rw [← List.take_add, Nat.add_sub_cancel' hb]
    refine ⟨k + 1, by rw [List.length_append, sequenceBytes_length]; omega, fun fuel rest => ?_⟩
    rw [List.append_assoc, Nat.add_assoc, Nat.add_comm 1, hread,
      expandFrom_sequenceBytes hm.long hm.offPos (by omega) (by omega), hjoin,
      copyBack_take hm.offPos hm.offBack (by omega) hm.same]

/-! ### Whole streams -/

theorem Compressed.size {c : Config} (hok : c.ok) (h : Compressed c bs out) :
    255 * out.length ≤ 256 * bs.length + 510 := by
  rw [Compressed] at h
  split at h
  · obtain ⟨-, -, -, -, -, -, hempty⟩ := hok
    rw [h]; omega
  · obtain ⟨pos, pre, hpre, rfl⟩ := h
    have hsize := hpre.size
    have hpos := hpre.pos_le
    have hfinal := finalBytes_size 0#4 (bs.drop pos)
    rw [List.length_drop] at hfinal
    rw [List.length_append]; omega

/-- With the `EMPTY_OUTPUT` of R7 the empty input gives what `EMIT_LAST` would append (R177), so that every stream ends
with a final sequence. -/
theorem Compressed.split {c : Config} (h : Compressed c bs out) (hempty : bs = [] → c.emptyOutput = [0x00#8]) :
    ∃ pos pre, Covers c.mflimit bs pos pre ∧ out = pre ++ finalBytes 0#4 (bs.drop pos) := by
  rw [Compressed] at h
  split at h
  next hbs => exact ⟨0, [], .nothing, by rw [h, hempty hbs, hbs]; rfl⟩
  next => exact h

theorem Compressed.conforms {c : Config} (h : Compressed c bs out) (hempty : bs = [] → c.emptyOutput = [0x00#8]) :
    ∃ is, parse out = some is ∧ Conforms c.mflimit bs.length 0 is := by
  obtain ⟨pos, pre, hpre, rfl⟩ := h.split hempty
  obtain ⟨is, hlen, hparse, hconf⟩ := hpre.parses
  obtain ⟨fuel, hfuel⟩ : ∃ fuel, (pre ++ finalBytes 0#4 (bs.drop pos)).length + 1 = is.length + (fuel + 1) :=
    ⟨(pre ++ finalBytes 0#4 (bs.drop pos)).length - is.length, by rw [List.length_append]; omega⟩
  obtain ⟨i, hi, hlast⟩ := parseFrom_finalBytes fuel 0#4 (bs.drop pos)
  have hpos := hpre.pos_le
  refine ⟨is ++ [i], by rw [parse, hfuel, hparse, hlast]; rfl, hconf _ (conforms_final hi ?_ ?_)⟩
  · rw [List.length_drop]; omega
  · rw [List.length_drop]; omega

/-- The single trivial token of D8. -/
theorem singleton_eq_finalBytes {x : Byte} (h : x.toNat < 16) : [x] = finalBytes (BitVec.ofNat 4 x.toNat) [] := by
  have hx : tokenByte 0 (x.toNat % 16) = x := by rw [tokenByte, Nat.mod_eq_of_lt h]; simp
  show [x] = [tokenByte 0 (x.toNat % 2 ^ 4)]
  exact congrArg (fun y => [y]) hx.symm

theorem Compressed.expands {c : Config} (h : Compressed c bs out)
    (hempty : bs = [] → ∃ x, c.emptyOutput = [x] ∧ x.toNat < 16) {limit : Nat} (hlimit : bs.length ≤ limit) :
    expand limit out = .ok bs := by
  rw [Compressed] at h
  split at h
  next hbs =>
    obtain ⟨x, hx, h16⟩ := hempty hbs
    rw [h, hx, singleton_eq_finalBytes h16, hbs]
    exact expandFrom_finalBytes (Nat.zero_le limit)
  next =>
    obtain ⟨pos, pre, hpre, rfl⟩ := h
    obtain ⟨k, hk, hread⟩ := hpre.expands hlimit
    obtain ⟨fuel, hfuel⟩ : ∃ fuel, (pre ++ finalBytes 0#4 (bs.drop pos)).length + 1 = k + (fuel + 1) :=
      ⟨(pre ++ finalBytes 0#4 (bs.drop pos)).length - k, by rw [List.length_append]; omega⟩
    have hfit : (bs.take pos).length + (bs.drop pos).length ≤ limit := by
      rw [← List.length_append, List.take_append_drop]; exact hlimit
    rw [expand, hfuel, hread, expandFrom_finalBytes hfit, List.take_append_drop]

end Sys2Proof.Machine
end

section
/-! SUPPORT. A compression run to its end (R176, R179): what each line of the compressor makes of the state, from any
state a host can start from, that the lines come to an end, and the stream they have then made. -/

namespace Sys2Proof.Machine

/-! ### The state of a compression -/

/-- A compression is under way and the host makes no move. Of the invariant this is what the lines rest on to stay in
bounds; the canonical form of the memories and the widths of the registers, which a host need not have found before the
start, are not in it. -/
structure Packing (s : State) : Prop extends Compressing s where
  cfg : s.cfg.ok
  busy : s.status = .busy
  idle : HostIdle s

/-- Such a compression at one of its lines. A match is pending only where one may start (R146). -/
structure Encoder (s : State) : Prop where
  packing : Packing s
  lines : s.ctl.compresses
  line : AtLine s
  starts : s.ctl ≠ .scan → s.ip + s.cfg.mflimit ≤ s.nreg

/-- The lines a compression has left at most: two for each position left. -/
def linesLeft (s : State) : Nat :=
  match s.ctl with
  | .scan => 2 * (s.nreg - s.ip) + 1
  | .lookahead => 2 * (s.nreg - s.ip)
  | _ => 2 * (s.nreg - s.ip) - 1

theorem linesLeft_at_scan {s : State} (hc : s.ctl = .scan) : linesLeft s = 2 * (s.nreg - s.ip) + 1 := by
  rw [linesLeft, hc]

theorem linesLeft_at_lookahead {s : State} (hc : s.ctl = .lookahead) : linesLeft s = 2 * (s.nreg - s.ip) := by
  rw [linesLeft, hc]

theorem linesLeft_at_emit {s : State} (hc : s.ctl = .emit) : linesLeft s = 2 * (s.nreg - s.ip) - 1 := by
  rw [linesLeft, hc]

theorem Packing.nreg_le {s : State} (h : Packing s) : s.nreg ≤ maxCsize s.cfg :=
  h.input.trans (maxSize_lt_maxCsize s.cfg).le

theorem Packing.at_scan {s : State} (h : Packing s) (hc : s.ctl = .scan) (ht : TableBelow s s.ip) : Encoder s where
  packing := h
  lines := .inl hc
  line := by simp only [AtLine, hc]; exact ⟨h.toCompressing, ht⟩
  starts := absurd hc

theorem Packing.at_lookahead {s : State} (h : Packing s) (hc : s.ctl = .lookahead) (ht : TableBelow s (s.ip + 1))
    (f : Found s) (hm : s.ip + s.cfg.mflimit ≤ s.nreg) : Encoder s where
  packing := h
  lines := .inr (.inl hc)
  line := by simp only [AtLine, hc]; exact ⟨h.toCompressing, ht, f⟩
  starts := fun _ => hm

theorem Packing.at_emit {s : State} (h : Packing s) (hc : s.ctl = .emit) (ht : TableBelow s (s.ip + 2))
    (f : Found s) (hm : s.ip + s.cfg.mflimit ≤ s.nreg) : Encoder s where
  packing := h
  lines := .inr (.inr hc)
  line := by simp only [AtLine, hc]; exact ⟨h.toCompressing, ht, f⟩
  starts := fun _ => hm

/-! ### What a line can do -/

/-- The finder's registers, the table, the cursor and the line change, and nothing else. -/
def Searched (s t : State) : Prop := t = { s with
  ctl := t.ctl, ret := t.ret, ip := t.ip, off := t.off, mlen := t.mlen, seq4 := t.seq4, hidx := t.hidx
  cand := t.cand, ht := t.ht }

/-- The bytes a compression ends with: the final sequence, or for the empty input `EMPTY_OUTPUT` (R176, R177). -/
def State.lastBytes (s : State) : List Byte :=
  if s.nreg = 0 then s.cfg.emptyOutput else finalBytes 0#4 (s.inRun s.anchor (s.nreg - s.anchor))

/-- The bytes of a sequence with a match of `m` bytes at `b`, with the literals from ANCHOR on. -/
def State.matchBytes (s : State) (b m : Nat) : List Byte :=
  sequenceBytes (s.inRun s.anchor (b - s.anchor)) s.off m

/-- What a line of the compressor that does not end it leaves: it has searched, or it has emitted a match. -/
inductive EncoderMove (s : State) : State → Prop
  | searched {t : State} (h : Searched s t) : EncoderMove s t
  | emitted {t : State} {b m : Nat} (hab : s.anchor ≤ b)
      (hm : MatchIn s.cfg.mflimit (s.inRun 0 s.nreg) b s.off m)
      (h : t = { s.wrote (s.matchBytes b m) with ctl := t.ctl, ip := b + m, anchor := b + m, ht := t.ht }) :
      EncoderMove s t

/-- What a line of the compressor answers: a state of the compression with fewer lines left, or the end. -/
inductive EncoderAnswer (s : State) : Host.Outcome State Fault Refusal → Prop
  | line {t : State} (move : EncoderMove s t) (next : Encoder t) (less : linesLeft t < linesLeft s) :
      EncoderAnswer s (.next t)
  | ended (left : 0 < linesLeft s) : EncoderAnswer s (.next (finish (s.wrote s.lastBytes)))

theorem Packing.searched {s t : State} (h : Packing s) (ht : Searched s t) (hrun : s.anchor ≤ t.ip)
    (hip : t.ip ≤ s.nreg) : Packing t := by
  rw [ht] at hrun hip ⊢
  exact ⟨⟨h.input, hrun, hip, h.size, h.written⟩, h.cfg, h.busy, h.idle⟩

/-! ### The lines -/

/-- The finder at a position where a match may start. -/
theorem Packing.findMatch {s : State} (h : Packing s) (hm : s.ip + s.cfg.mflimit ≤ s.nreg)
    (hbelow : TableBelow s s.ip) : ∃ t, exec .findMatch s = .next t ∧ Searched s t ∧ t.ip = s.ip ∧ t.ctl = s.ctl ∧
      TableBelow t (s.ip + 1) ∧ (t.ret = .bit true → Found t) := by
  obtain ⟨t, hexec, ht, -, -, -, hbucket, hres⟩ := findMatchReports s h.cfg hm h.nreg_le hbelow
  refine ⟨t, hexec, by rw [Searched, ht], by rw [ht], by rw [ht], fun i c hc => ?_, fun hret => ?_⟩
  · rw [hbucket] at hc
    split at hc
    · rcases List.mem_cons.1 hc with rfl | hc
      · exact Nat.lt_succ_self _
      · exact (hbelow _ c (List.mem_of_mem_take hc)).trans (Nat.lt_succ_self _)
    · exact (hbelow _ c hc).trans (Nat.lt_succ_self _)
  · rcases hres with ⟨-, f, -⟩ | ⟨hno, -⟩
    · exact f
    · rw [hret] at hno; cases hno

theorem Searched.frame {s t : State} (h : Searched s t) : t.cfg = s.cfg ∧ t.nreg = s.nreg ∧ t.status = s.status := by
  rw [h]; exact ⟨rfl, rfl, rfl⟩

/-- The end of a compression: its last bytes fit. -/
theorem Packing.lastStep {s : State} (h : Packing s) (hc : s.ctl = .scan) : EncoderAnswer s (lastStep s) := by
  have hsize := h.size
  have hrun := h.run
  have hcur := h.cursor
  have hended := EncoderAnswer.ended (s := s) (by rw [linesLeft_at_scan hc]; exact Nat.succ_pos _)
  rw [State.lastBytes] at hended
  split at hended
  next hn =>
    obtain ⟨-, -, -, -, -, -, hempty⟩ := h.cfg
    rw [lastStep_empty hn h.busy (by unfold maxCsize; omega)]
    exact hended
  next hn =>
    have hfinal := finalBytes_size 0#4 (s.inRun s.anchor (s.nreg - s.anchor))
    rw [State.inRun_length] at hfinal
    have hexec := exec_emitLast_fits (hrun.trans hcur) h.nreg_le
      (le_maxCsize_of_size (k := s.nreg) (by omega) h.input)
    rw [lastStep_emitLast hn hexec h.busy]
    exact hended

/-- The loop head with a match found: it is pending, to be looked at again or to be emitted. -/
theorem Packing.pending {s t : State} {c : Ctl} (h : Packing t) (ht : TableBelow t (t.ip + 1)) (f : Found t)
    (hm : t.ip + t.cfg.mflimit ≤ t.nreg) (hc : c = .lookahead ∨ c = .emit) (hs : s.ctl = .scan) (hip : t.ip = s.ip)
    (hn : t.nreg = s.nreg) :
    Encoder { t with ctl := c } ∧ linesLeft { t with ctl := c } < linesLeft s := by
  have hp : Packing { t with ctl := c } := h.searched rfl h.run h.cursor
  have f' : Found { t with ctl := c } := f.congr rfl rfl rfl rfl rfl rfl
  have hends := f.ends
  rw [linesLeft_at_scan hs, ← hip, ← hn]
  rcases hc with rfl | rfl
  · exact ⟨hp.at_lookahead rfl ht f' hm, by rw [linesLeft_at_lookahead rfl]; simp only; omega⟩
  · exact ⟨hp.at_emit rfl (ht.mono (Nat.le_succ _)) f' hm, by rw [linesLeft_at_emit rfl]; simp only; omega⟩

theorem Packing.scanStep {s : State} (h : Packing s) (hc : s.ctl = .scan) (hbelow : TableBelow s s.ip) :
    EncoderAnswer s (scanStep s) := by
  by_cases hm : s.ip + s.cfg.mflimit ≤ s.nreg
  · obtain ⟨t, hexec, ht, hip, hctl, htab, hfound⟩ := h.findMatch hm hbelow
    obtain ⟨hcfg, hnreg, hst⟩ := ht.frame
    have hp : Packing t := h.searched ht (by rw [hip]; exact h.run) (by rw [hip]; exact h.cursor)
    have hbelow' : TableBelow t (t.ip + 1) := by rw [hip]; exact htab
    rw [scanStep_find hm hexec (hst.trans h.busy), afterFind]
    split
    next hret =>
      have hnext := hp.pending (c := if t.cfg.lazy then .lookahead else .emit) hbelow' (hfound hret)
        (by rw [hip, hcfg, hnreg]; exact hm) (by cases t.cfg.lazy <;> simp) hc hip hnreg
      exact .line (.searched (by rw [ht]; rfl)) hnext.1 hnext.2
    next =>
      obtain ⟨-, -, -, -, hone, hstep, -⟩ := hp.cfg
      have hmove : t.ip + t.cfg.scanStep ≤ t.nreg := by rw [hcfg] at hstep ⊢; omega
      have hnext : Packing { t with ip := t.ip + t.cfg.scanStep } :=
        hp.searched rfl (hp.run.trans (Nat.le_add_right _ _)) hmove
      refine .line (.searched (by rw [ht]; rfl))
        (hnext.at_scan (hctl.trans hc) (hbelow'.mono (Nat.add_le_add_left hone _))) ?_
      rw [linesLeft_at_scan hc, linesLeft_at_scan (s := { t with ip := t.ip + t.cfg.scanStep }) (hctl.trans hc)]
      simp only; omega
  · rw [scanStep_last (Nat.not_le.1 hm)]
    exact h.lastStep hc

/-- The lookahead of LAZY (R148; log entry 16). -/
theorem Packing.lookaheadStep {s : State} (h : Packing s) (hc : s.ctl = .lookahead) (hbelow : TableBelow s (s.ip + 1))
    (f : Found s) (hm : s.ip + s.cfg.mflimit ≤ s.nreg) : EncoderAnswer s (lookaheadStep s) := by
  have hends := f.ends
  by_cases hnext : s.ip + 1 + s.cfg.mflimit ≤ s.nreg
  · have hp : Packing { s with ip := s.ip + 1 } :=
      h.searched rfl (h.run.trans (Nat.le_succ _)) (show s.ip + 1 ≤ s.nreg by omega)
    obtain ⟨t, hexec, ht, hip, hctl, htab, hfound⟩ := hp.findMatch hnext hbelow
    obtain ⟨hcfg, hnreg, hst⟩ := ht.frame
    have hsearch : Searched s t := by rw [Searched, ht]
    rw [lookaheadStep_find hnext hexec (hst.trans h.busy), afterLookahead]
    split
    next hlonger =>
      have hpt : Packing t := hp.searched ht (by rw [hip]; exact hp.run) (by rw [hip]; exact hp.cursor)
      refine .line (.searched hsearch) (hpt.at_lookahead (hctl.trans hc) (by rw [hip]; exact htab)
        (hfound hlonger.1) (by rw [hip, hcfg, hnreg]; exact hnext)) ?_
      rw [linesLeft_at_lookahead hc, linesLeft_at_lookahead (hctl.trans hc), hip, hnreg]
      simp only; omega
    next =>
      have hpt : Packing { t with ip := s.ip, off := s.off, mlen := s.mlen, ctl := .emit } :=
        h.searched (by rw [ht]; rfl) h.run h.cursor
      refine .line (.searched (by rw [ht]; rfl)) (hpt.at_emit rfl htab (f.congr rfl rfl rfl hnreg ?_ ?_) ?_) ?_
      · rw [ht]
      · rw [ht]
      · show s.ip + t.cfg.mflimit ≤ t.nreg
        rw [hcfg, hnreg]; exact hm
      · rw [linesLeft_at_lookahead hc, linesLeft_at_emit rfl]
        simp only [hnreg]; omega
  · rw [lookaheadStep_emit (Nat.not_le.1 hnext)]
    have hp : Packing { s with ctl := .emit } := h.searched rfl h.run h.cursor
    refine .line (.searched rfl)
      (hp.at_emit rfl (hbelow.mono (Nat.le_succ _)) (f.congr rfl rfl rfl rfl rfl rfl) hm) ?_
    rw [linesLeft_at_lookahead hc, linesLeft_at_emit rfl]
    simp only; omega

/-- The match emitted from `b` on is one that R180 allows: it repeats the input from `b` to the end of the match
found. -/
theorem Found.matchIn {s : State} (f : Found s) (hm : s.ip + s.cfg.mflimit ≤ s.nreg) {b : Nat} (hb : b ≤ s.ip)
    (hoff : s.off.toNat ≤ b) (hsame : ∀ i, b ≤ i → i < s.ip → s.inAt (i - s.off.toNat) = s.inAt i) :
    MatchIn s.cfg.mflimit (s.inRun 0 s.nreg) b s.off (s.mlen + (s.ip - b)) := by
  have hlong := f.long
  have hends := f.ends
  refine ⟨by omega, f.offPos, hoff, ?_, ?_, fun i hi => ?_⟩
  · rw [State.inRun_length]; omega
  · rw [State.inRun_length]; omega
  · rw [List.getElem?_eq_getElem (by rw [State.inRun_length]; omega),
      List.getElem?_eq_getElem (by rw [State.inRun_length]; omega), State.inRun_getElem, State.inRun_getElem,
      Nat.zero_add, Nat.zero_add]
    congr 1
    by_cases hi' : b + i < s.ip
    · have := hsame (b + i) (Nat.le_add_right _ _) hi'
      rwa [show b + i - s.off.toNat = b - s.off.toNat + i by omega] at this
    · have := f.same (b + i - s.ip) (by omega)
      rwa [show s.ip - s.off.toNat + (b + i - s.ip) = b - s.off.toNat + i by omega,
        show s.ip + (b + i - s.ip) = b + i by omega] at this

/-- The match emitted (R172): its bytes fit, and with ANCHOR past it the output is again within the size bound. -/
theorem Packing.emitStep {s : State} (h : Packing s) (hc : s.ctl = .emit) (hbelow : TableBelow s (s.ip + 2))
    (f : Found s) (hm : s.ip + s.cfg.mflimit ≤ s.nreg) : EncoderAnswer s (emitStep s) := by
  have hlong := f.long
  have hends := f.ends
  obtain ⟨b, hstart, hab, hb, hoff, hsame⟩ := matchStart_ok f h.run h.nreg_le
  have hsize : 255 * (s.op + (s.matchBytes b (s.mlen + (s.ip - b))).length) ≤ 256 * (s.ip + s.mlen) := by
    have hseq := sequenceBytes_size (s.inRun s.anchor (b - s.anchor)) s.off (mlen := s.mlen + (s.ip - b)) (by omega)
    rw [State.inRun_length] at hseq
    have := h.size
    rw [State.matchBytes]; omega
  have hfit : s.op + (s.matchBytes b (s.mlen + (s.ip - b))).length ≤ maxCsize s.cfg :=
    le_maxCsize_of_size (k := s.nreg) (by omega) h.input
  have hexec := exec_emitSeq_fits hab (hb.trans h.cursor) h.nreg_le hfit
  obtain ⟨t, hins, hframe, -, -, hbucket⟩ :=
    insertInside_ok (s.wrote (s.matchBytes b (s.mlen + (s.ip - b)))) h.cfg h.nreg_le
  have hip : t.ip = s.ip := by rw [hframe]; rfl
  have hmlen : t.mlen = s.mlen := by rw [hframe]; rfl
  have hend : b + (s.mlen + (s.ip - b)) = s.ip + s.mlen := by omega
  have hp : Packing (afterEmit t) := by
    rw [hframe]
    exact ⟨⟨h.input, le_refl _, show s.ip + s.mlen ≤ s.nreg by omega, hsize, h.written.wrote _⟩, h.cfg, h.busy, h.idle⟩
  have hbelow' : TableBelow (afterEmit t) (afterEmit t).ip := fun i c hi => by
    rw [afterEmit_ip, hip, hmlen]
    rcases hbucket i c hi with hi | ⟨-, hi⟩
    · have := hbelow i c hi; omega
    · exact hi
  rw [emitStep_emitted hstart hexec hins]
  refine .line (.emitted hab (f.matchIn hm hb hoff hsame) ?_) (hp.at_scan rfl hbelow') ?_
  · rw [hend, hframe]; rfl
  · rw [linesLeft_at_emit hc, linesLeft_at_scan rfl, afterEmit_ip, afterEmit_nreg, hip, hmlen,
      show t.nreg = s.nreg by rw [hframe]; rfl]
    omega

/-- Every line of a compression answers so. -/
theorem Encoder.answer {s : State} (h : Encoder s) : EncoderAnswer s (engineStep s) := by
  have hl := h.line
  have hm := h.starts
  rcases h.lines with hc | hc | hc <;> simp only [AtLine, hc] at hl
  · rw [engineStep_at_scan hc]
    exact h.packing.scanStep hc hl.2
  · obtain ⟨-, hbelow, f⟩ := hl
    rw [engineStep_at_lookahead hc]
    exact h.packing.lookaheadStep hc hbelow f (hm (by rw [hc]; nofun))
  · obtain ⟨-, hbelow, f⟩ := hl
    rw [engineStep_at_emit hc]
    exact h.packing.emitStep hc hbelow f (hm (by rw [hc]; nofun))

/-! ### The run -/

/-- BUSY at every state before the last, `n` steps lead from one state to another. -/
inductive RunsTo : Nat → State → State → Prop
  | here (s : State) : RunsTo 0 s s
  | line {n : Nat} {s t u : State} (busy : s.status = .busy) (h : step s = .next t) (rest : RunsTo n t u) :
    RunsTo (n + 1) s u

theorem RunsTo.steps_eq {n : Nat} {s u : State} (h : RunsTo n s u) : steps n s = .next u := by
  induction h with
  | here s => rfl
  | line _ hstep _ ih => rw [steps, hstep]; exact ih

theorem RunsTo.finishes {n : Nat} {s u : State} {a : Answer} (h : RunsTo n s u) (hu : Finishes u a) : Finishes s a := by
  induction h with
  | here s => exact hu
  | line hbusy hstep _ ih => exact .line hbusy hstep (ih hu)

/-- A compression comes to its end within the lines it has left; what its lines keep holds where it makes its last
bytes. -/
theorem Encoder.runs {I : State → Prop} (keep : ∀ {s t : State}, I s → EncoderMove s t → I t) {s : State}
    (h : Encoder s) (hI : I s) : ∃ n w, n ≤ linesLeft s ∧ RunsTo n s (finish (w.wrote w.lastBytes)) ∧ I w := by
  generalize hk : linesLeft s = k
  induction k using Nat.strong_induction_on generalizing s with
  | _ k ih =>
    have hanswer := h.answer
    have hstep := step_eq_engineStep h.packing.busy h.packing.idle
    generalize engineStep s = o at hanswer hstep
    cases hanswer with
    | @line t move next less =>
      obtain ⟨n, w, hn, hrun, hw⟩ := ih (linesLeft t) (hk ▸ less) next (keep hI move) rfl
      exact ⟨n + 1, w, by omega, .line h.packing.busy hstep hrun, hw⟩
    | ended left => exact ⟨1, s, by omega, .line h.packing.busy hstep (.here _), hI⟩

/-- What no line before the end touches: the host's side, the error flag, the input and the configuration. -/
structure Undisturbed (s t : State) : Prop where
  host : t.host = s.host
  err : t.err = s.err
  cfg : t.cfg = s.cfg
  nreg : t.nreg = s.nreg
  inMem : t.inMem = s.inMem
  inEra : t.inEra = s.inEra

theorem EncoderMove.undisturbed {s t : State} (h : EncoderMove s t) : Undisturbed s t := by
  cases h with
  | searched h => rw [h]; exact ⟨rfl, rfl, rfl, rfl, rfl, rfl⟩
  | emitted _ _ h => rw [h]; exact ⟨rfl, rfl, rfl, rfl, rfl, rfl⟩

/-- Settles O49: each line leaves fewer lines than it found, at the loop head `2 * (NREG - IP) + 1`. -/
theorem compressEnds : Obligations.CompressEnds := by
  unfold Obligations.CompressEnds
  intro s hinv hidle hc
  have hb : s.status = .busy := hinv.busy.2 (by rw [hc]; nofun)
  have hl := hinv.line
  simp only [AtLine, hc] at hl
  obtain ⟨hcomp, hbelow⟩ := hl
  have henc : Encoder s := Packing.at_scan ⟨hcomp, hinv.cfg, hb, hidle⟩ hc hbelow
  obtain ⟨n, w, hn, hrun, hhost, herr⟩ := henc.runs (I := fun t => t.host = s.host ∧ t.err = s.err)
    (fun ⟨hhost, herr⟩ move => ⟨move.undisturbed.host.trans hhost, move.undisturbed.err.trans herr⟩) ⟨rfl, rfl⟩
  rw [linesLeft_at_scan hc] at hn
  exact ⟨n, _, hn, hrun.steps_eq, rfl, herr.trans (hinv.running hb).noErr, hhost⟩

/-! ### The stream a compression makes -/

/-- A compression of the input `bs` with a quiet host has made a stream that stands for the bytes before ANCHOR. -/
structure Making (c : Config) (bs : List Byte) (s : State) : Prop where
  cfg : s.cfg = c
  quiet : Quiet s
  noErr : s.err = none
  length : s.nreg = bs.length
  input : s.inRun 0 s.nreg = bs
  covers : Covers c.mflimit bs s.anchor (s.outRun 0 s.op)

theorem Making.move {c : Config} {bs : List Byte} {s t : State} (h : Making c bs s) (move : EncoderMove s t) :
    Making c bs t := by
  obtain ⟨hhost, herr, hcfg, hnreg, hin, hera⟩ := move.undisturbed
  refine ⟨hcfg.trans h.cfg, by rw [Quiet, hhost]; exact h.quiet, herr.trans h.noErr, hnreg.trans h.length,
    by rw [State.inRun_same hin hera, hnreg, h.input], ?_⟩
  cases move with
  | searched hs =>
    have hout : t.outRun 0 t.op = s.outRun 0 s.op := by rw [hs]; exact State.outRun_congr fun _ _ => rfl
    rw [hout, show t.anchor = s.anchor by rw [hs]]
    exact h.covers
  | @emitted b m hab hm ht =>
    rw [h.input, h.cfg] at hm
    have hends := hm.ends
    have hlits : s.inRun s.anchor (b - s.anchor) = (bs.drop s.anchor).take (b - s.anchor) := by
      rw [← h.input, State.drop_inRun, State.take_inRun _ _ _ _ (by have := h.length; omega), Nat.zero_add]
    have hout : t.outRun 0 t.op = s.outRun 0 s.op ++ s.matchBytes b m := by
      rw [← State.outRun_wrote, ht]; exact State.outRun_congr fun _ _ => rfl
    rw [hout, show t.anchor = b + m by rw [ht], State.matchBytes, hlits]
    exact .sequence h.covers hab hm

/-- The end of a compression. -/
theorem Making.compressed {c : Config} {bs : List Byte} {s : State} (h : Making c bs s) :
    Compressed c bs ((s.wrote s.lastBytes).outRun 0 (s.wrote s.lastBytes).op) := by
  have hcov := h.covers
  rw [State.wrote_op, State.outRun_wrote, State.lastBytes, Compressed]
  by_cases hbs : bs = []
  · have hn : s.nreg = 0 := by rw [h.length, hbs]; rfl
    rw [if_pos hbs, if_pos hn, (hcov.of_short (by rw [hbs]; exact Nat.zero_le _)).2, h.cfg]; rfl
  · have hn : s.nreg ≠ 0 := by rw [h.length]; exact mt List.length_eq_zero_iff.1 hbs
    have hlits : s.inRun s.anchor (s.nreg - s.anchor) = bs.drop s.anchor := by
      rw [← h.input, State.drop_inRun, Nat.zero_add]
    rw [if_neg hbs, if_neg hn, hlits]
    exact ⟨_, _, hcov, rfl⟩

/-! ### From the start to the answer -/

theorem encoder_beginCompress {s : State} (hok : s.cfg.ok) (hs : Ready s) (hin : s.inLen ≤ s.cfg.maxSize) :
    Encoder (beginCompress s) := by
  have hidle : HostIdle (beginCompress s) := Quiet.hostIdle hs.2
  have hp : Packing (beginCompress s) :=
    ⟨⟨hin, le_refl _, Nat.zero_le _, Nat.zero_le _, fun a ha => absurd ha (Nat.not_lt_zero a)⟩, hok, rfl, hidle⟩
  exact hp.at_scan rfl (tableBelow_of_ht_nil rfl _)

theorem making_beginCompress {s : State} {bs : List Byte} (hs : Ready s) (hl : Loaded s bs) :
    Making s.cfg bs (beginCompress s) := by
  refine ⟨rfl, hs.2, rfl, hl.1, ?_, .nothing⟩
  show (beginCompress s).inRun 0 s.inLen = bs
  rw [State.inRun_same (s := s) (t := beginCompress s) rfl rfl, hl.1]
  exact hl.2

/-- A compression started finishes with a stream of its input. -/
theorem beginCompress_finishes {s : State} {bs : List Byte} (hok : s.cfg.ok) (hs : Ready s) (hl : Loaded s bs)
    (hin : s.inLen ≤ s.cfg.maxSize) : ∃ out, Finishes (beginCompress s) (.ok out) ∧ Compressed s.cfg bs out := by
  obtain ⟨n, w, -, hrun, hw⟩ :=
    (encoder_beginCompress hok hs hin).runs (I := Making s.cfg bs) Making.move (making_beginCompress hs hl)
  have hend := finishes_finish (s := w.wrote w.lastBytes) hw.quiet hw.noErr
  exact ⟨_, hrun.finishes hend, hw.compressed⟩

/-- Within the contract of R251 COMPRESS answers one stream of its input, and nothing else. -/
theorem answers_compress {s : State} {bs : List Byte} (hok : s.cfg.ok) (hs : Ready s) (hl : Loaded s bs)
    (hin : bs.length ≤ s.cfg.maxSize) (hout : s.outLimit ≤ s.cfg.maxSize) :
    ∃ out, Compressed s.cfg bs out ∧ ∀ r, Answers .compress s r ↔ r = .ok out := by
  have hlen := hl.1
  obtain ⟨out, hfin, hcomp⟩ := beginCompress_finishes hok hs hl (by omega)
  have hexec : exec .compress s = .next (beginCompress s) := by
    show startWhen _ _ s = _
    rw [startWhen, if_neg hs.1, if_pos ⟨by omega, hout⟩]
  refine ⟨out, hcomp, fun r => ⟨?_, ?_⟩⟩
  · rintro ⟨t, u, ht, hu, he⟩
    rw [hexec] at ht
    cases ht
    exact hfin.reaches_iff.1 ⟨u, hu, he⟩
  · rintro rfl
    obtain ⟨u, hu, he⟩ := hfin.reaches
    exact ⟨_, u, hexec, hu, he⟩

/-- Outside the contract of R251 COMPRESS answers nothing. -/
theorem legal_of_answers_compress {s : State} {r : Answer} (hs : Ready s) (h : Answers .compress s r) :
    s.inLen ≤ s.cfg.maxSize ∧ s.outLimit ≤ s.cfg.maxSize := by
  obtain ⟨t, u, ht, -⟩ := h
  by_contra hlegal
  have hexec : exec .compress s = .refused .illegalStart := by
    show startWhen _ _ s = _
    rw [startWhen, if_neg hs.1, if_neg hlegal]
  rw [hexec] at ht
  cases ht

/-- Whatever COMPRESS answers is a stream of its input. -/
theorem compressed_of_answers {s : State} {bs out : List Byte} (hok : s.cfg.ok) (hs : Ready s) (hl : Loaded s bs)
    (h : Answers .compress s (.ok out)) : Compressed s.cfg bs out := by
  obtain ⟨hin, hout⟩ := legal_of_answers_compress hs h
  obtain ⟨out', hcomp, hiff⟩ := answers_compress hok hs hl (by rw [← hl.1]; exact hin) hout
  cases (hiff _).1 h
  exact hcomp

/-- Settles O50, from the size of its sequences. -/
theorem compressSizeBound : Obligations.CompressSizeBound := by
  unfold Obligations.CompressSizeBound
  intro s bs out hok hs hl h
  have := (compressed_of_answers hok hs hl h).size hok
  omega

/-- Settles O52: every answer is a stream of sequences that keep the constraints. -/
theorem compressConforms : Obligations.CompressConforms := by
  unfold Obligations.CompressConforms
  intro s bs out hok hempty hs hl h
  exact (compressed_of_answers hok hs hl h).conforms hempty

/-- Settles O53: the reference reading of the answer is the input, and DECOMPRESS answers the reference reading. -/
theorem roundTrip : Obligations.RoundTrip := by
  unfold Obligations.RoundTrip
  intro s bs hok hempty hs hl hin hout
  obtain ⟨out, hcomp, hiff⟩ := answers_compress hok hs hl hin hout
  refine ⟨out, (hiff _).2 rfl, fun s' hcfg hs' hl' hlimit hout' => ?_⟩
  have hfit : out.length ≤ maxCsize s.cfg := le_maxCsize_of_size (hcomp.size hok) hin
  rw [answers_decompress_iff hs', hl'.1, hl'.2]
  exact ⟨⟨by rw [hcfg]; exact hfit, hout'⟩, (hcomp.expands hempty hlimit).symm⟩

/-- Settles O51: an input too short for a match to start after its first byte is one final sequence; the two short
streams are read as the reference reads them. -/
theorem emptyAndShortInputs : Obligations.EmptyAndShortInputs := by
  unfold Obligations.EmptyAndShortInputs
  intro s bs hok hs hl hout
  refine ⟨fun hbs => ?empty, fun hin hshort hlim hempty => ?short, fun hbs => ?nothing, fun hbs => ?zero⟩
  case empty =>
    obtain ⟨out, hcomp, hiff⟩ := answers_compress hok hs hl (by rw [hbs]; exact Nat.zero_le _) hout
    rw [Compressed, if_pos hbs] at hcomp
    exact (hiff _).2 (by rw [hcomp])
  case short =>
    obtain ⟨out, hcomp, hiff⟩ := answers_compress hok hs hl hin hout
    obtain ⟨pos, pre, hpre, rfl⟩ := hcomp.split hempty
    obtain ⟨rfl, rfl⟩ := hpre.of_short (by omega)
    rw [hiff, List.nil_append, List.drop_zero, finalBytes, selOf_of_lt (by omega), extBytes_of_lt (by omega)]
    rfl
  case nothing =>
    rw [answers_decompress_iff hs, hl.1, hl.2, hbs]
    exact ⟨⟨Nat.zero_le _, hout⟩, rfl⟩
  case zero =>
    have hread : expand s.outLimit (finalBytes 0#4 []) = .ok [] := expandFrom_finalBytes (Nat.zero_le _)
    rw [answers_decompress_iff hs, hl.1, hl.2, hbs]
    exact ⟨⟨by unfold maxCsize; simp, hout⟩, hread.symm⟩

end Sys2Proof.Machine
end

section
/-! SUPPORT. The token decoder as instructions (R200 to R205): what each operation takes from the bytes left at the cursor,
and `PARSE_SEQUENCE` on the bytes of a whole sequence. -/

namespace Sys2Proof.Machine

/-! ### The token byte and the end of the input -/

theorem exec_fetchToken_cons {s : State} {b : Byte} {bs : List Byte} (h : StreamAt s (b :: bs)) :
    exec .fetchToken s = .next (takeToken b s) := by
  show (fetchTokenOp s).outcome quiet = _
  rw [fetchTokenOp, h.restIn_eq]; rfl

theorem exec_fetchToken_nil {s : State} (h : StreamAt s []) : exec .fetchToken s = .next (raise .truncatedInput s) := by
  show (fetchTokenOp s).outcome quiet = _
  rw [fetchTokenOp, h.restIn_eq]; rfl

/-- Settles O21: a byte left is the token, and none left is a truncated input. -/
theorem fetchTokenReadsByte : Obligations.FetchTokenReadsByte := by
  unfold Obligations.FetchTokenReadsByte
  exact fun s => ⟨fun b bs h => exec_fetchToken_cons h, exec_fetchToken_nil⟩

theorem exec_endTest (s : State) : exec .endTest s = .next { s with ret := .bit (decide (s.ip = s.nreg)) } := rfl

/-- Settles O24: the bit handed back is the comparison of the cursor with the end of the input. -/
theorem endTestComparesCursor : Obligations.EndTestComparesCursor := by
  unfold Obligations.EndTestComparesCursor
  refine fun s => ⟨fun h => ?_, fun h => ?_⟩
  · rw [exec_endTest, decide_eq_true h]
  · rw [exec_endTest, decide_eq_false h]

/-! ### The offset -/

theorem exec_readOffset_cons {s : State} {b0 b1 : Byte} {rest : List Byte} (h : StreamAt s (b0 :: b1 :: rest)) :
    exec .readOffset s = (takeOffset (offsetOf b0 b1) s).outcome quiet := by
  show (readOffsetOp s).outcome quiet = _
  rw [readOffsetOp, h.restIn_eq]; rfl

theorem exec_readOffset_short {s : State} {bs : List Byte} (h : StreamAt s bs) (hlen : bs.length < 2) :
    exec .readOffset s = .next (raise .truncatedInput s) := by
  show (readOffsetOp s).outcome quiet = _
  rw [readOffsetOp, h.restIn_eq]
  match bs with
  | [] | [_] => rfl
  | _ :: _ :: _ => simp at hlen

/-- Settles O23: two bytes left are taken as an offset, which passes its check or raises its error; fewer are truncated. -/
theorem readOffsetChecks : Obligations.ReadOffsetChecks := by
  unfold Obligations.ReadOffsetChecks
  refine fun s => ⟨?whole, fun bs hlen h => exec_readOffset_short h hlen⟩
  case whole =>
    intro b0 b1 rest h v hv
    rw [← offsetOf_toNat b0 b1] at hv
    subst hv
    rw [exec_readOffset_cons h, BitVec.ofNat_toNat, BitVec.setWidth_eq]
    refine ⟨fun ⟨hpos, hback⟩ => ?_, fun hbad => ?_⟩
    · rw [takeOffset_ok hpos hback]; rfl
    · rw [takeOffset_invalid (hbad.imp_left (half_eq_zero _).2)]; rfl

/-! ### The lengths -/

theorem exec_readLitlen {s : State} {bs : List Byte} (h : StreamAt s bs) :
    exec .readLitlen s = (takeLitlen (litSel s.tok) bs s).outcome quiet := by
  show (readLitlenOp s).outcome quiet = _
  rw [readLitlenOp, h.restIn_eq, Res.bind_ok]

theorem exec_readMatchlen {s : State} {bs : List Byte} (h : StreamAt s bs) :
    exec .readMatchlen s = (takeMatchlen (matchSel s.tok) bs s).outcome quiet := by
  show (readMatchlenOp s).outcome quiet = _
  rw [readMatchlenOp, h.restIn_eq, Res.bind_ok]

/-- Settles O22: with the selector of `n` in the token the bytes left spell `n`, which fits the room or overflows. -/
theorem lengthReadsFollowTheToken : Obligations.LengthReadsFollowTheToken := by
  unfold Obligations.LengthReadsFollowTheToken
  intro n s rest h
  rw [← selOf_eq_min]
  refine ⟨fun (hsel : litSel s.tok = selOf n) => ?literalLength, fun (hsel : matchSel s.tok = selOf n) => ?matchLength⟩
  case literalLength =>
    rw [exec_readLitlen h, hsel]
    refine ⟨fun hfit => ?_, fun hover => ?_⟩
    · rw [takeLitlen_ok hfit]; rfl
    · obtain ⟨_, hu⟩ := takeLitlen_overflow_append (rest := rest) hover
      exact raises_of_err hu
  case matchLength =>
    rw [exec_readMatchlen h, hsel]
    refine ⟨fun hfit => ?_, fun hover => ?_⟩
    · rw [takeMatchlen_ok hfit]; rfl
    · obtain ⟨_, hu⟩ := takeMatchlen_overflow_append (rest := rest) hover
      exact raises_of_err hu

/-! ### Whole sequences -/

theorem exec_parseSequence (s : State) : exec .parseSequence s = (parseSequenceOp s).outcome giveTuple := rfl

/-- Settles O27: the machine's line at a token byte runs the sequence it decodes there, and is `PARSE_SEQUENCE` whatever it
decodes. -/
theorem parseSequenceRunsTheDecoded : Obligations.ParseSequenceRunsTheDecoded := by
  unfold Obligations.ParseSequenceRunsTheDecoded
  intro s bs rest i h hdecode
  have hline : sequenceStep s = exec i s := by rw [sequenceStep, h.withRest_eq, decode, hdecode]
  rw [exec_parseSequence, ← sequenceStep_eq_parse h, hline]

/-- After a sequence with a match the bytes left are those that followed it. -/
theorem streamAt_giveTuple_seqDone {s : State} {lits : List Byte} {off : Half} {mlen : Nat} {rest : List Byte}
    (h : StreamAt s (sequenceBytes lits off mlen ++ rest)) (vs : List Byte) :
    StreamAt (giveTuple (lits, some (off, mlen)) (seqDone lits vs off mlen s)) rest :=
  h.move rfl rfl rfl rfl (by simp only [giveTuple_some, seqDone, sequenceBytes_length]; omega)

/-- After a final sequence the input is used up. -/
theorem lastDone_ip {s : State} {x : BitVec 4} {lits : List Byte} (h : StreamAt s (finalBytes x lits)) :
    (lastDone x lits s).ip = s.nreg := by
  have hend := h.length_eq
  rw [finalBytes_length] at hend
  simp only [lastDone]; omega

/-- Settles O28: `PARSE_SEQUENCE` runs the sequence whose bytes are at `IP`, and that sequence passes its checks; LIM is
within OUT, so that its bytes have room. -/
theorem parseSequenceDelivers : Obligations.ParseSequenceDelivers := by
  unfold Obligations.ParseSequenceDelivers
  intro s lits off mlen rest hlits hlim
  have hsize := maxSize_lt_maxCsize s.cfg
  refine ⟨fun h hmin hpos hback hmatch => ?withMatch, fun x h => ?final⟩
  case withMatch =>
    obtain ⟨vs, hlen, hrun, -⟩ := runSeq_ok hmin (Nat.le_sub_of_add_le' hlits) hpos hback
      (Nat.le_sub_of_add_le' hmatch) (show s.op + lits.length + mlen ≤ maxCsize s.cfg by omega)
    rw [exec_parseSequence, parseSequenceOp_seq h, hrun]
    have hop : (seqDone lits vs off mlen s).op = s.op + lits.length + mlen := by
      simp only [seqDone, List.length_append]; omega
    exact ⟨_, rfl, rfl, rfl, hop, streamAt_giveTuple_seqDone h vs⟩
  case final =>
    rw [exec_parseSequence, parseSequenceOp_last h,
      runLast_ok (Nat.le_sub_of_add_le' hlits) (show s.op + lits.length ≤ maxCsize s.cfg by omega)]
    exact ⟨_, rfl, rfl, rfl, rfl, lastDone_ip h⟩

end Sys2Proof.Machine
end

section
/-! SUPPORT. The output writer and the sequences of the stream as instructions (R220 to R228): what each appends, the
errors of a sequence in the order of its checks, and the instruction a step decodes. -/

namespace Sys2Proof.Machine

/-! ### The output writer -/

theorem exec_copyLiterals_fits {s : State} {lits rest : List Byte} (h : StreamAt s (lits ++ rest))
    (hl : lits.length = s.litlen) (hfit : s.op + s.litlen ≤ maxCsize s.cfg) :
    exec .copyLiterals s = .next ({ s with ip := s.ip + s.litlen }.wrote lits) := by
  show (copyLiteralsOp s).outcome _ = _
  rw [copyLiteralsOp, h.restIn_eq, Res.bind_ok, if_neg (by simp [hl]), List.take_left' hl,
    takeLits_ok (by rw [hl]; exact hfit), hl]
  rfl

theorem exec_copyLiterals_short {s : State} {lits : List Byte} (h : StreamAt s lits) (hl : lits.length < s.litlen) :
    exec .copyLiterals s = .next (raise .truncatedInput s) := by
  show (copyLiteralsOp s).outcome _ = _
  rw [copyLiteralsOp, h.restIn_eq, Res.bind_ok, if_pos hl]; rfl

/-- Settles O25: the literals are at `IP` and fit, so they are taken whole; too few, and the test before the first byte
fails. -/
theorem copyLiteralsAllOrNothing : Obligations.CopyLiteralsAllOrNothing := by
  unfold Obligations.CopyLiteralsAllOrNothing
  exact fun s lits rest =>
    ⟨fun h hl hfit => ⟨_, exec_copyLiterals_fits h hl hfit, State.appended_wrote⟩, exec_copyLiterals_short⟩

/-- Settles O26: the bytes copied are appended, and each is read back where it was appended. -/
theorem copyMatchPeriodic : Obligations.CopyMatchPeriodic := by
  unfold Obligations.CopyMatchPeriodic
  intro s hpos hback hfit
  obtain ⟨vs, hlen, hcopy, hperiod⟩ := copyMatchOp_ok hpos hback hfit
  have hexec : exec .copyMatch s = .next (s.wrote vs) := by
    show (copyMatchOp s).outcome quiet = _
    rw [hcopy]; rfl
  refine ⟨_, vs, hexec, hlen, State.appended_wrote, fun i hi => ?_⟩
  rw [State.wrote_outAt, dif_pos (by omega), ← hperiod i (by omega)]
  simp only [Nat.add_sub_cancel_left]

/-! ### Sequences that pass the checks -/

/-- Settles O29: a sequence that passes the checks appends its literals and its match; the match bytes are those of
the copy, whose source lies below them. -/
theorem sequenceAppendsLiteralsAndMatch : Obligations.SequenceAppendsLiteralsAndMatch := by
  unfold Obligations.SequenceAppendsLiteralsAndMatch
  intro i lits off mlen s hi h4 hlits hpos hback hmatch hfit
  obtain ⟨vs, hlen, hrun, hperiod⟩ := runSeq_ok h4 hlits hpos hback hmatch hfit
  have hout : ∀ a, (giveTuple (lits, some (off, mlen)) (seqDone lits vs off mlen s)).outAt a =
      ((s.wrote lits).wrote vs).outAt a := State.outAt_congr (by rw [← State.wrote_append]; rfl) rfl
  refine ⟨_, vs, by rw [exec_of_isSeq hi, hrun]; rfl, hlen, ?frame, fun j hj => ?period⟩
  case frame =>
    rw [← selOf_eq_min, ← selOf_eq_min]
    exact State.appended_wrote (s := { s with
      tok := tokenByte (selOf lits.length) (selOf (mlen - 4)), litlen := lits.length, off := off, mlen := mlen
      ip := s.ip + 1 + extSize lits.length + lits.length + 2 + extSize (mlen - 4)
      ret := .tuple lits (some (off, mlen)) })
  case period =>
    have hmod := Nat.mod_lt j hpos
    have hsrc : s.op + lits.length - off.toNat + j % off.toNat < (s.wrote lits).op := by rw [State.wrote_op]; omega
    rw [hout, hout, State.wrote_outAt_below _ _ hsrc, ← hperiod j (by omega), State.wrote_outAt,
      dif_pos (by rw [State.wrote_op]; omega)]
    simp only [State.wrote_op, Nat.add_sub_cancel_left]

/-- Settles O30: a final sequence that passes the check appends its literals and ends the operation at the output's
length. -/
theorem finalSequenceEndsWithSuccess : Obligations.FinalSequenceEndsWithSuccess := by
  unfold Obligations.FinalSequenceEndsWithSuccess
  intro i x lits s hi hlits hfit
  refine ⟨_, by rw [exec_of_isLast hi, runLast_ok hlits hfit]; rfl, ?_⟩
  rw [← selOf_eq_min]
  exact State.appended_wrote (s := { s with
    tok := tokenByte (selOf lits.length) x.toNat, litlen := lits.length
    ip := s.ip + 1 + extSize lits.length + lits.length, ret := .tuple lits none
    outLen := s.op + lits.length, status := .done, ctl := .rest })

/-! ### The errors of a sequence -/

/-- A sequence whose literals exceed the room. -/
theorem runSeq_literals_overflow {lits : List Byte} {off : Half} {mlen : Nat} {s : State}
    (h : s.lim - s.op < lits.length) : ∃ u, runSeq lits off mlen s = .err .lengthOverflow u := by
  obtain ⟨u, hu⟩ := takeLitlen_overflow
    (s := takeToken (tokenByte (selOf lits.length) (selOf (mlen - 4))) s) (n := lits.length) h
  exact ⟨_, by rw [runSeq, hu, Res.bind_err]⟩

/-- A final sequence whose literals exceed the room. -/
theorem runLast_literals_overflow {x : BitVec 4} {lits : List Byte} {s : State} (h : s.lim - s.op < lits.length) :
    ∃ u, runLast x lits s = .err .lengthOverflow u := by
  obtain ⟨u, hu⟩ := takeLitlen_overflow (s := takeToken (tokenByte (selOf lits.length) x.toNat) s) (n := lits.length) h
  exact ⟨_, by rw [runLast, hu, Res.bind_err]⟩

/-- A sequence whose literals are in OUT goes on with its offset. -/
theorem runSeq_after_literals {lits : List Byte} (off : Half) (mlen : Nat) {s : State}
    (hlits : lits.length ≤ s.lim - s.op) (hfit : s.op + lits.length ≤ maxCsize s.cfg) :
    ∃ u : State, u.op = s.op + lits.length ∧ u.lim = s.lim ∧ runSeq lits off mlen s =
      (takeOffset off u).bind fun _ s =>
        (takeMatchlen (selOf (mlen - 4)) (extBytes (mlen - 4)) s).bind fun _ s =>
          (copyMatchOp s).bind fun _ s => .ok (lits, some (s.off, s.mlen)) s := by
  rw [runSeq, takeLitlen_self (s := takeToken _ s) hlits, Res.bind_ok, takeLits_ok (by exact hfit), Res.bind_ok]
  exact ⟨_, by rfl, by rfl, rfl⟩

/-- Settles O31: the literals are checked first, the offset against the output after them, then the match length
against the room that is left. -/
theorem sequenceErrorsInOrder : Obligations.SequenceErrorsInOrder := by
  unfold Obligations.SequenceErrorsInOrder
  intro i lits s hfit
  refine ⟨fun off mlen hi => ⟨?literals, ?offset, ?matchLength⟩, fun x hi hover => ?final⟩
  case literals =>
    intro hover
    obtain ⟨_, hu⟩ := runSeq_literals_overflow (off := off) (mlen := mlen) hover
    rw [exec_of_isSeq hi]; exact raises_of_err hu
  case offset =>
    intro hlits hbad
    obtain ⟨u, hop, -, hrun⟩ := runSeq_after_literals off mlen hlits hfit
    rw [exec_of_isSeq hi, hrun, takeOffset_invalid (by rw [hop]; exact hbad.imp_left (half_eq_zero off).2)]
    exact raises_of_err rfl
  case matchLength =>
    intro hlits hpos hback h4 hover
    obtain ⟨u, hop, hlim, hrun⟩ := runSeq_after_literals off mlen hlits hfit
    rw [exec_of_isSeq hi, hrun, takeOffset_ok hpos (by rw [hop]; exact hback), Res.bind_ok]
    obtain ⟨_, hw⟩ := takeMatchlen_overflow (n := mlen - 4) (s := { u with off := off, ip := u.ip + 2 })
      (show u.lim - u.op < mlen - 4 + 4 by rw [hop, hlim]; omega)
    rw [hw]
    exact raises_of_err rfl
  case final =>
    obtain ⟨_, hu⟩ := runLast_literals_overflow (x := x) hover
    rw [exec_of_isLast hi]; exact raises_of_err hu

/-! ### The instruction a step decodes -/

/-- A field of the stream whose element is decoded. -/
theorem fieldStep_decoded {c : Ctx} {after : Instr → State → State} {s : State} {bs rest : List Byte} {i : Instr}
    (h : StreamAt s bs) (hd : decode c bs = .ok (i, rest)) : fieldStep c after s = andThen (exec i s) (after i) := by
  rw [fieldStep, h.withRest_eq, hd]

/-- Settles O38: the move of the host is the command its value decodes to, and each line of the decompressor that
stands at a token byte or at a field runs what it decodes there. -/
theorem stepRunsDecodedInstruction : Obligations.StepRunsDecodedInstruction := by
  unfold Obligations.StepRunsDecodedInstruction
  refine ⟨?command, fun s bs hb hi h => ?line⟩
  case command =>
    rintro s _ b rest i hhost hv rfl hd
    rw [decode, if_pos hv] at hd
    cases hd
    rw [step_eq_hostTurn hhost nofun, hostTurn, hostWrite, if_pos hv]
  case line =>
    rw [step_eq_engineStep hb hi]
    refine ⟨fun hc => ⟨fun i rest hd => ?_, fun e hd => ?_⟩, fun i rest hc hd => ?_, fun i rest hc hd => ?_,
      fun i rest n hc hd => ?_, fun i rest hc hg hd => ?_⟩
    · rw [engineStep_at_sequence hc, sequenceStep, h.withRest_eq, hd]
    · rw [engineStep_at_sequence hc, sequenceStep, h.withRest_eq, hd]
    · rw [engineStep_at_litExt hc, fieldStep_decoded h hd]; rfl
    · rw [engineStep_at_matchExt hc, fieldStep_decoded h hd]; rfl
    · rw [engineStep_at_literals_succ hc, fieldStep_decoded h hd]
    · rw [engineStep_at_readOffset hc, if_pos hg, fieldStep_decoded h hd]

end Sys2Proof.Machine
end

section
/-! SUPPORT. Whole decompressions (R224, R230, R272): what DECOMPRESS and DECOMPRESS_INTO answer, by the reference
reading of the input. -/

namespace Sys2Proof.Machine

/-- Within the contract of R251 the answer is the reference reading of the input. -/
theorem Loaded.answers_decompress_iff {s : State} {bs : List Byte} {a : Answer} (h : Loaded s bs) (hs : Ready s) :
    Answers .decompress s a ↔ (bs.length ≤ maxCsize s.cfg ∧ s.outLimit ≤ s.cfg.maxSize) ∧ a = expand s.outLimit bs := by
  obtain ⟨hlen, hrun⟩ := h
  rw [Machine.answers_decompress_iff hs, hlen, hrun]

/-- Settles O54: whatever the grain, a decompression finishes with the reference reading of its input. -/
theorem decompressMatchesReference : Obligations.DecompressMatchesReference := by
  unfold Obligations.DecompressMatchesReference
  exact fun s bs hs h hin hout => (h.answers_decompress_iff hs).2 ⟨⟨hin, hout⟩, rfl⟩

/-- The two commands that decompress have one meaning (R258). -/
theorem exec_decompressInto (s : State) : exec .decompressInto s = exec .decompress s := rfl

theorem answers_decompressInto_iff {s : State} {a : Answer} :
    Answers .decompressInto s a ↔ Answers .decompress s a := by
  simp only [Answers, exec_decompressInto]

/-- Settles O57: the command is DECOMPRESS, whose answer the reference reading gives from the input and the limit
alone. -/
theorem sizeHintHasNoEffect : Obligations.SizeHintHasNoEffect := by
  unfold Obligations.SizeHintHasNoEffect
  intro s hint a hs
  have hin : ({ s with sizeHint := hint } : State).inRun 0 s.inLen = s.inRun 0 s.inLen :=
    State.inRun_congr fun _ _ => rfl
  rw [answers_decompressInto_iff, answers_decompress_iff hs,
    answers_decompress_iff (s := { s with sizeHint := hint }) hs, hin]

/-- The reference reading at an invalid offset, whatever follows it. -/
theorem expandEnd_invalidOffset {limit fuel : Nat} {t : Byte} {acc rest : List Byte} {off : Half}
    (hbad : off.toNat = 0 ∨ acc.length < off.toNat) :
    expandEnd limit fuel t acc (offsetBytes off ++ rest) = .error .invalidOffset := by
  rw [offsetBytes, List.cons_append, List.singleton_append, expandEnd, offsetOf_offsetBytes,
    if_pos (hbad.imp_left (half_eq_zero off).2)]

/-- Settles O59: the literals are there and fit the limit, so the first check that fails is the one of the offset. -/
theorem craftedOffsetIsInvalid : Obligations.CraftedOffsetIsInvalid := by
  unfold Obligations.CraftedOffsetIsInvalid
  intro s lits off mlen rest hs h hin hout hlits hbad
  refine (h.answers_decompress_iff hs).2 ⟨⟨h.1 ▸ hin, hout⟩, ?_⟩
  rw [expand, sequenceBytes, List.cons_append, List.append_assoc, List.append_assoc, List.append_assoc,
    expandFrom_token rfl (selOf_le _) (by simpa using hlits), expandEnd_invalidOffset (by simpa using hbad)]

end Sys2Proof.Machine
end

section
/-! SUPPORT. Prefixes of an accepted stream (R232): what the reference reading makes of a stream that is cut in the
literals of a sequence, in its offset or match length, or after it. -/

namespace Sys2Proof.Machine

theorem copyBack_length (n off : Nat) (acc : List Byte) : (copyBack n off acc).length = acc.length + n := by
  induction n generalizing acc with
  | zero => rfl
  | succ n ih => rw [copyBack, ih, List.length_append, List.length_singleton]; omega

theorem prefix_copyBack (n off : Nat) (acc : List Byte) : acc <+: copyBack n off acc := by
  induction n generalizing acc with
  | zero => exact List.prefix_rfl
  | succ n ih => rw [copyBack]; exact (List.prefix_append _ _).trans (ih _)

/-! ### Accepted streams, sequence by sequence -/

section
variable {limit fuel : Nat} {acc out bs : List Byte}

/-- The reference reading accepts literals that are there and fit the limit, and goes on after them. -/
theorem expandLitlen_ok_inv {t : Byte} (h : expandLitlen limit fuel t acc bs = .ok out) :
    ∃ lits rest : List Byte, litSel t = selOf lits.length ∧ bs = extBytes lits.length ++ (lits ++ rest) ∧
      lits.length ≤ limit - acc.length ∧ expandEnd limit fuel t (acc ++ lits) rest = .ok out := by
  rw [expandLitlen] at h
  cases hscan : scanLength (litSel t) 0 (limit - acc.length) bs with
  | overflow u => rw [hscan] at h; cases h
  | truncated u => rw [hscan] at h; cases h
  | value l u =>
    obtain ⟨hfit, -, hread⟩ := scanLength_value hscan
    obtain ⟨hsel, hbs⟩ := takeLength_unique (litSel_le t) hread
    rw [hscan] at h
    simp only [expandLits] at h
    split at h
    · cases h
    · have hlen : ((bs.drop u).take l).length = l := by rw [List.length_take]; omega
      refine ⟨(bs.drop u).take l, (bs.drop u).drop l, by rw [hlen, hsel], ?_, by rw [hlen]; exact hfit, h⟩
      rw [hlen, List.take_append_drop]; exact hbs

/-- After the literals it accepts the end of the stream, or a valid offset and a match that fits the limit. -/
theorem expandEnd_ok_inv {t : Byte} (h : expandEnd limit fuel t acc bs = .ok out) :
    bs = [] ∧ out = acc ∨ ∃ (off : Half) (n : Nat) (rest : List Byte), bs = offsetBytes off ++ (extBytes n ++ rest) ∧
      matchSel t = selOf n ∧ 1 ≤ off.toNat ∧ off.toNat ≤ acc.length ∧ n + 4 ≤ limit - acc.length ∧
      expandFrom limit fuel rest (copyBack (n + 4) off.toNat acc) = .ok out := by
  match bs with
  | [] => cases h; exact .inl ⟨rfl, rfl⟩
  | [_] => cases h
  | b0 :: b1 :: cs =>
    rw [expandEnd] at h
    split at h
    · cases h
    · rename_i hvalid
      rw [half_eq_zero] at hvalid
      rw [expandMatchlen] at h
      cases hscan : scanLength (matchSel t) 4 (limit - acc.length) cs with
      | overflow u => rw [hscan] at h; cases h
      | truncated u => rw [hscan] at h; cases h
      | value n v =>
        obtain ⟨hfit, -, hread⟩ := scanLength_value hscan
        obtain ⟨hsel, hcs⟩ := takeLength_unique (matchSel_le t) hread
        rw [hscan] at h
        exact .inr ⟨offsetOf b0 b1, n, cs.drop v, by rw [offsetBytes_offsetOf, ← hcs]; rfl, hsel.symm, by omega,
          by omega, hfit, h⟩

/-- How the reference reading accepts bytes with the output `out`, the bytes `acc` already made: a final sequence that
fits the limit, or a sequence with a match that passes the checks and then the bytes after it. -/
inductive Accepted (limit fuel : Nat) (acc out : List Byte) : List Byte → Prop
  | final (x : BitVec 4) (lits : List Byte) (fits : lits.length ≤ limit - acc.length) (made : out = acc ++ lits) :
      Accepted limit fuel acc out (finalBytes x lits)
  | sequence (lits : List Byte) (off : Half) (m : Nat) (rest : List Byte) (long : 4 ≤ m) (offPos : 1 ≤ off.toNat)
      (offBack : off.toNat ≤ acc.length + lits.length) (fits : acc.length + lits.length + m ≤ limit)
      (goesOn : expandFrom limit fuel rest (copyBack m off.toNat (acc ++ lits)) = .ok out) :
      Accepted limit fuel acc out (sequenceBytes lits off m ++ rest)

theorem accepted_of_expandFrom (h : expandFrom limit (fuel + 1) bs acc = .ok out) :
    Accepted limit fuel acc out bs := by
  cases bs with
  | nil => cases h
  | cons t bs =>
    rw [expandFrom_cons] at h
    obtain ⟨lits, tail, hlit, rfl, hfit, h⟩ := expandLitlen_ok_inv h
    rcases expandEnd_ok_inv h with ⟨rfl, rfl⟩ | ⟨off, n, rest, rfl, hmatch, hpos, hback, hroom, h⟩
    · have ht : tokenByte (selOf lits.length) (BitVec.ofNat 4 (matchSel t)).toNat = t := by
        rw [BitVec.toNat_ofNat, Nat.mod_eq_of_lt (Nat.lt_succ_of_le (matchSel_le t)), ← hlit, tokenByte_sels]
      have := Accepted.final (fuel := fuel) (BitVec.ofNat 4 (matchSel t)) lits hfit (rfl : acc ++ lits = _)
      rw [finalBytes, ht] at this
      rw [List.append_nil]; exact this
    · rw [List.length_append] at hback hroom
      have ht : tokenByte (selOf lits.length) (selOf (n + 4 - 4)) = t := by
        rw [Nat.add_sub_cancel, ← hlit, ← hmatch, tokenByte_sels]
      have := Accepted.sequence lits off (n + 4) rest (Nat.le_add_left 4 n) hpos hback (by omega) h
      rw [sequenceBytes, ht, Nat.add_sub_cancel] at this
      simpa only [List.cons_append, List.append_assoc] using this

/-- What was made before is the beginning of the output. -/
theorem prefix_of_expandFrom (h : expandFrom limit fuel bs acc = .ok out) : acc <+: out := by
  induction fuel generalizing bs acc with
  | zero => cases h
  | succ fuel ih =>
    cases accepted_of_expandFrom h with
    | final x lits fits made => exact ⟨lits, made.symm⟩
    | sequence lits off m rest long offPos offBack fits goesOn =>
      refine (List.prefix_append acc lits).trans ((prefix_copyBack _ _ _).trans (ih goesOn))

/-! ### A stream cut inside a sequence -/

theorem expandFrom_nil : expandFrom limit fuel [] acc = .error .truncatedInput := by cases fuel <;> rfl

/-- The extension bytes of a length that fits, cut short. -/
theorem scanLength_extBytes_cut {n bias room k : Nat} (hfit : n + bias ≤ room) (hk : k < extSize n) :
    ∃ u, scanLength (selOf n) bias room ((extBytes n).take k) = .truncated u := by
  by_cases h : n < 15
  · rw [extSize, if_pos h] at hk; omega
  · rw [extSize, if_neg h] at hk
    have hcut : (extBytes n).take k = List.replicate k 255#8 ++ [] := by
      rw [extBytes, if_neg h, List.take_append_of_le_length (by rw [List.length_replicate]; omega), List.take_replicate,
        Nat.min_eq_left (by omega), List.append_nil]
    rw [hcut, selOf_eq_fifteen.2 (by omega), scanLength, if_neg (by omega), if_pos rfl,
      scanExt_replicate _ _ _ _ _ _ (by omega)]
    exact ⟨_, rfl⟩

/-- A stream cut before the end of the literals of its first sequence. -/
theorem expandFrom_take_literals {m k : Nat} {lits : List Byte} (rest : List Byte) (hm : m ≤ 15)
    (hfit : lits.length ≤ limit - acc.length) (hk : k < 1 + extSize lits.length + lits.length) :
    expandFrom limit fuel ((tokenByte (selOf lits.length) m :: (extBytes lits.length ++ (lits ++ rest))).take k) acc =
      .error .truncatedInput := by
  cases fuel with
  | zero => rfl
  | succ fuel =>
    cases k with
    | zero => rfl
    | succ k =>
      rw [List.take_succ_cons, expandFrom_cons, expandLitlen, litSel_tokenByte (selOf_le _) hm]
      by_cases hext : k < extSize lits.length
      · obtain ⟨u, hu⟩ := scanLength_extBytes_cut (n := lits.length) (bias := 0) (room := limit - acc.length)
          (by omega) hext
        rw [List.take_append_of_le_length (by rw [extBytes_length]; omega), hu]
      · obtain ⟨j, rfl⟩ := Nat.exists_eq_add_of_le (Nat.le_of_not_lt hext)
        rw [← extBytes_length, List.take_length_add_append, scanLength_extBytes _ _ _ _ (by omega)]
        simp only
        rw [← extBytes_length, List.drop_left, expandLits, if_pos (by rw [List.length_take]; omega)]

/-- A stream cut after the literals of its first sequence and before the end of its match length. -/
theorem expandEnd_take_match {l n k : Nat} {off : Half} (rest : List Byte) (ho : 1 ≤ off.toNat)
    (hback : off.toNat ≤ acc.length) (hfit : acc.length + (n + 4) ≤ limit) (h0 : 0 < k) (hk : k < 2 + extSize n) :
    expandEnd limit fuel (tokenByte l (selOf n)) acc ((offsetBytes off ++ (extBytes n ++ rest)).take k) =
      .error .truncatedInput := by
  match k with
  | 1 => rfl
  | k + 2 =>
    have hoff : off ≠ 0#16 := mt (half_eq_zero off).1 (by omega)
    obtain ⟨u, hu⟩ := scanLength_extBytes_cut (n := n) (k := k) (bias := 4) (room := limit - acc.length) (by omega)
      (by omega)
    rw [offsetBytes, List.cons_append, List.singleton_append, List.take_succ_cons, List.take_succ_cons,
      List.take_append_of_le_length (by rw [extBytes_length]; omega), expandEnd, offsetOf_offsetBytes,
      if_neg (not_or.2 ⟨hoff, Nat.not_lt.2 hback⟩), expandMatchlen, matchSel_tokenByte (selOf_le _), hu]

/-- A stream cut at or after the end of the literals of its first sequence. -/
theorem expandFrom_take_after_literals {m : Nat} {lits rest : List Byte} (k : Nat) (hm : m ≤ 15)
    (hfit : acc.length + lits.length ≤ limit) :
    expandFrom limit (fuel + 1) ((tokenByte (selOf lits.length) m :: (extBytes lits.length ++ (lits ++ rest))).take
      (1 + extSize lits.length + lits.length + k)) acc =
      expandEnd limit fuel (tokenByte (selOf lits.length) m) (acc ++ lits) (rest.take k) := by
  rw [← expandFrom_token rfl hm hfit, show 1 + extSize lits.length + lits.length + k =
    (extBytes lits.length).length + (lits.length + k) + 1 by rw [extBytes_length]; omega, List.take_succ_cons,
    List.take_length_add_append, List.take_length_add_append]

end

/-! ### Where the literals of a stream's sequences end -/

theorem literalEndsFrom_finalBytes (fuel pos made : Nat) (x : BitVec 4) (lits : List Byte) :
    literalEndsFrom fuel pos made (finalBytes x lits) = [] := by
  cases fuel with
  | zero => rfl
  | succ fuel =>
    rw [literalEndsFrom, decodeSequence_last]
    rcases isLast_cases (isLast_lastInstr (tokenByte (selOf lits.length) x.toNat) lits) with h | h <;> rw [h] <;> rfl

theorem literalEndsFrom_sequenceBytes (fuel pos made : Nat) (lits : List Byte) (off : Half) {m : Nat} (h4 : 4 ≤ m)
    (rest : List Byte) : literalEndsFrom (fuel + 1) pos made (sequenceBytes lits off m ++ rest) =
      (pos + (1 + extSize lits.length + lits.length), made + lits.length) ::
        literalEndsFrom fuel (pos + (sequenceBytes lits off m).length) (made + lits.length + m) rest := by
  have hfields := isSeq_seqInstr (tokenByte (selOf lits.length) (selOf (m - 4))) lits off m
  rw [literalEndsFrom, decodeSequence_seq, Nat.sub_add_cancel h4]
  simp only [show seqFields _ = _ from hfields]
  rw [List.length_append, Nat.add_sub_cancel, Nat.add_assoc pos, Nat.add_assoc pos]

/-- Literals end after the token byte of their sequence. -/
theorem pos_lt_of_mem_literalEndsFrom {fuel pos made p n : Nat} {bs : List Byte}
    (h : (p, n) ∈ literalEndsFrom fuel pos made bs) : pos < p := by
  induction fuel generalizing pos made bs with
  | zero => cases h
  | succ fuel ih =>
    rw [literalEndsFrom] at h
    split at h
    · cases h
    · split at h
      · cases h
      · rcases List.mem_cons.1 h with h | h
        · cases h; omega
        · exact (Nat.le_add_right _ _).trans_lt (ih h)

/-! ### The answer for the first bytes -/

/-- R232: the answer for the first `k` bytes of a stream accepted with the output `out`, where `ends` says where its
literals end. -/
def AnswersCut (ends : List (Nat × Nat)) (k : Nat) (out : List Byte) (a : Answer) : Prop :=
  (∀ n, (k, n) ∈ ends → a = .ok (out.take n)) ∧ ((∀ n, (k, n) ∉ ends) → a = .error .truncatedInput)

theorem AnswersCut.of_truncated {ends : List (Nat × Nat)} {k : Nat} {out : List Byte} {a : Answer}
    (hends : ∀ n, (k, n) ∉ ends) (ha : a = .error .truncatedInput) : AnswersCut ends k out a :=
  ⟨fun n hn => absurd hn (hends n), fun _ => ha⟩

theorem AnswersCut.cons_self {ends : List (Nat × Nat)} {k n : Nat} {out : List Byte} {a : Answer}
    (hends : ∀ n, (k, n) ∉ ends) (ha : a = .ok (out.take n)) : AnswersCut ((k, n) :: ends) k out a := by
  refine ⟨fun n' hn' => ?_, fun h => absurd (List.mem_cons_self ..) (h n)⟩
  rcases List.mem_cons.1 hn' with hn' | hn'
  · cases hn'; exact ha
  · exact absurd hn' (hends n')

theorem AnswersCut.cons_of_ne {ends : List (Nat × Nat)} {k p n : Nat} {out : List Byte} {a : Answer} (hp : k ≠ p)
    (h : AnswersCut ends k out a) : AnswersCut ((p, n) :: ends) k out a := by
  have hmem : ∀ n', (k, n') ∈ (p, n) :: ends ↔ (k, n') ∈ ends := fun n' => by simp [hp]
  simpa only [AnswersCut, hmem] using h

theorem not_mem_literalEndsFrom {fuel pos made p : Nat} {bs : List Byte} (h : p ≤ pos) (n : Nat) :
    (p, n) ∉ literalEndsFrom fuel pos made bs := fun hn => absurd (pos_lt_of_mem_literalEndsFrom hn) (Nat.not_lt.2 h)

/-- A stream cut inside a sequence that passes the checks: the end of its literals is the one place at which it is
accepted. -/
theorem expandFrom_take_sequence {limit fuel k m pos : Nat} {lits acc out : List Byte} {off : Half}
    {ends : List (Nat × Nat)} (rest : List Byte) (offPos : 1 ≤ off.toNat)
    (offBack : off.toNat ≤ acc.length + lits.length) (long : 4 ≤ m)
    (fits : acc.length + lits.length + m ≤ limit) (hout : acc ++ lits <+: out)
    (hk : k < (sequenceBytes lits off m).length) (hf : k < fuel) (hends : ∀ n, (pos + k, n) ∉ ends) :
    AnswersCut ((pos + (1 + extSize lits.length + lits.length), acc.length + lits.length) :: ends) (pos + k) out
      (expandFrom limit fuel ((sequenceBytes lits off m ++ rest).take k) acc) := by
  have hsel := selOf_le (m - 4)
  have hlits : (acc ++ lits).length = acc.length + lits.length := List.length_append
  have hform : sequenceBytes lits off m ++ rest = tokenByte (selOf lits.length) (selOf (m - 4)) ::
      (extBytes lits.length ++ (lits ++ (offsetBytes off ++ (extBytes (m - 4) ++ rest)))) := by
    simp only [sequenceBytes, List.cons_append, List.append_assoc]
  rw [sequenceBytes_length] at hk
  rw [hform]
  by_cases hcut : k < 1 + extSize lits.length + lits.length
  · exact .cons_of_ne (by omega) (.of_truncated hends (expandFrom_take_literals _ hsel (by omega) hcut))
  · obtain ⟨fuel, rfl⟩ := Nat.exists_eq_add_of_lt hf
    obtain ⟨j, rfl⟩ := Nat.exists_eq_add_of_le (Nat.le_of_not_lt hcut)
    rw [expandFrom_take_after_literals _ hsel (by omega)]
    by_cases h0 : j = 0
    · subst h0
      refine .cons_self hends ?_
      rw [← hlits, ← List.prefix_iff_eq_take.1 hout]; rfl
    · exact .cons_of_ne (by omega)
        (.of_truncated hends (expandEnd_take_match _ offPos (by omega) (by omega) (by omega) (by omega)))

/-- The first bytes of an accepted stream, with whatever fuel is enough for them. -/
theorem expandFrom_take {limit fuel fuel' k : Nat} {bs acc out : List Byte} (pos : Nat)
    (h : expandFrom limit fuel bs acc = .ok out) (hk : k < bs.length) (hf : k < fuel') :
    AnswersCut (literalEndsFrom fuel pos acc.length bs) (pos + k) out (expandFrom limit fuel' (bs.take k) acc) := by
  induction fuel generalizing bs acc fuel' k pos with
  | zero => cases h
  | succ fuel ih =>
    cases accepted_of_expandFrom h with
    | final x lits fits made =>
      rw [finalBytes_length] at hk
      refine .of_truncated (by rw [literalEndsFrom_finalBytes]; exact fun n => List.not_mem_nil) ?_
      have hcut := expandFrom_take_literals (fuel := fuel') (k := k) [] (Nat.le_of_lt_succ x.isLt) fits (by omega)
      rwa [List.append_nil] at hcut
    | sequence lits off m rest long offPos offBack fits goesOn =>
      rw [literalEndsFrom_sequenceBytes _ _ _ _ _ long]
      by_cases hcut : k < (sequenceBytes lits off m).length
      · have hout := (prefix_copyBack _ _ _).trans (prefix_of_expandFrom goesOn)
        exact expandFrom_take_sequence rest offPos offBack long fits hout hcut hf (not_mem_literalEndsFrom (by omega))
      · obtain ⟨j, rfl⟩ := Nat.exists_eq_add_of_le (Nat.le_of_not_lt hcut)
        obtain ⟨fuel', rfl⟩ : ∃ f, fuel' = f + 1 := ⟨fuel' - 1, by omega⟩
        have hsize := sequenceBytes_length lits off m
        rw [List.length_append] at hk
        have hnext := ih (fuel' := fuel') (k := j) (pos + (sequenceBytes lits off m).length) goesOn (by omega)
          (by omega)
        rw [copyBack_length, List.length_append] at hnext
        refine .cons_of_ne (by omega) ?_
        rw [List.take_length_add_append, expandFrom_sequenceBytes long offPos offBack fits, ← Nat.add_assoc]
        exact hnext

/-- Settles O58: of both streams the machine answers the reference reading, and the reading of the cut one follows the
sequences of the whole. -/
theorem truncationOfAcceptedStream : Obligations.TruncationOfAcceptedStream := by
  unfold Obligations.TruncationOfAcceptedStream
  intro s s' bs out k hs hs' h h' hk hcfg hlimit hanswer
  obtain ⟨⟨hin, hout⟩, haccept⟩ := (h.answers_decompress_iff hs).1 hanswer
  have hin' : (bs.take k).length ≤ maxCsize s.cfg := by rw [List.length_take]; omega
  have hprefix := expandFrom_take 0 haccept.symm hk (show k < (bs.take k).length + 1 by rw [List.length_take]; omega)
  rw [Nat.zero_add] at hprefix
  simp only [h'.answers_decompress_iff hs', hcfg, hlimit]
  exact ⟨fun n hn => ⟨⟨hin', hout⟩, (hprefix.1 n hn).symm⟩, fun hn => ⟨⟨hin', hout⟩, (hprefix.2 hn).symm⟩⟩

end Sys2Proof.Machine
end

section
/-! SUPPORT. A decompression ends (R225, R231): a line ends it, consumes bytes, or is followed by a later line of R205
before the next token byte. -/

namespace Sys2Proof.Machine

/-- The operation has ended, with success or with an error. -/
def Over (s : State) : Prop := s.status = .done ∨ s.status = .error

/-! ### What a line leaves to do -/

/-- How many lines of R205 that consume no byte stand at most between a line and the next token byte; 16 for the lines
that are no line of a decompression. -/
def Ctl.linesToToken : Ctl → Nat
  | .sequence | .fetchToken => 0
  | .copyMatch => 1
  | .matchExt => 2
  | .readMatchlen => 3
  | .readOffset => 4
  | .endTest => 5
  | .literals _ => 6
  | .copyLiterals => 7
  | .litExt => 8
  | .readLitlen => 9
  | .rest | .scan | .lookahead | .emit => 16

/-- The lines of a decompression. -/
abbrev Ctl.decompresses (c : Ctl) : Prop := c.linesToToken < 16

theorem Ctl.decompresses_iff {c : Ctl} : c.decompresses ↔ c ≠ .rest ∧ ¬ c.compresses := by
  cases c <;> simp [decompresses, linesToToken, compresses]

/-- What a line of the decompressor comes to: the end of the operation, a later line, or a byte consumed. -/
inductive DecMove (s t : State) : Prop
  | ended (h : Over t)
  | later (h : t.ctl.linesToToken < s.ctl.linesToToken)
  | consumed (h : s.ip < t.ip) (hc : t.ctl.decompresses)

theorem DecMove.goesOn {c next : Ctl} {s t : State} (hc : s.ctl = c) (ht : t.ctl = next)
    (h : next.linesToToken < c.linesToToken) : DecMove s t := .later (by rwa [ht, hc])

theorem over_raise (e : ErrKind) (s : State) : Over (raise e s) := .inr rfl

/-- An operation, then what the sequencer does after it: its error is raised, or its result leads on. -/
theorem decMove_andThen {α : Type} {r : Res α} {d : α → State → State} {f : State → State} {s t : State}
    (hr : r.All (DecFrame s)) (hb : s.status = .busy) (hd : ∀ a u, (d a u).status = u.status)
    (hf : ∀ a u, r = .ok a u → DecMove s (f (d a u))) (h : andThen (r.outcome d) f = .next t) : DecMove s t := by
  cases r with
  | ok a u =>
    rw [Res.outcome_ok, andThen_busy rfl ((hd a u).trans (hr.status.trans hb))] at h
    cases h; exact hf a u rfl
  | err e u => cases h; exact .ended (over_raise e u)
  | fault f => cases h

/-- A line that executes an operation of R205 and goes on to a later line. -/
theorem decMove_opStep {α : Type} {i : Instr} {c next : Ctl} {r : Res α} {s t : State} (hr : r.All (DecFrame s))
    (hb : s.status = .busy) (hc : s.ctl = c) (hexec : exec i s = r.outcome fun _ u => u)
    (hnext : next.linesToToken < c.linesToToken) (h : opStep i next s = .next t) : DecMove s t := by
  rw [opStep, hexec] at h
  exact decMove_andThen hr hb (fun _ _ => rfl) (fun _ _ _ => .goesOn hc rfl hnext) h

/-! ### The token byte -/

/-- The token byte is consumed. -/
theorem fetchTokenOp_ip {s t : State} {a : Unit} (h : fetchTokenOp s = .ok a t) : t.ip = s.ip + 1 := by
  rw [fetchTokenOp, restIn] at h
  split at h
  · rw [Res.bind_ok] at h
    split at h
    · cases h
    · cases h; rfl
  · cases h

theorem decMove_fetchToken {s t : State} (hb : s.status = .busy) (h : opStep .fetchToken .readLitlen s = .next t) :
    DecMove s t :=
  decMove_andThen (r := fetchTokenOp s) (f := fun s => { s with ctl := .readLitlen }) (decFrame_fetchToken s) hb
    (fun _ _ => rfl) (fun _ u hu => .consumed (show s.ip < u.ip by rw [fetchTokenOp_ip hu]; omega)
      (show Ctl.readLitlen.decompresses by decide)) h

/-- What is left of `PARSE_SEQUENCE` after the token byte keeps the decompressor's frame. -/
theorem decFrame_litlenRest (s : State) : Res.All (DecFrame s) (litlenRest s) := by
  refine decFrame_isFrame.bind (decFrame_readLitlen s) fun _ t => ?_
  refine decFrame_isFrame.bind (decFrame_copyLiterals t) fun lits t => ?_
  rw [endRest]
  split
  · exact decFrame_isFrame.refl t
  · refine decFrame_isFrame.bind (decFrame_readOffset t) fun _ t => ?_
    refine decFrame_isFrame.bind (decFrame_readMatchlen t) fun _ t => ?_
    exact decFrame_isFrame.bind (decFrame_copyMatch t) fun _ t => decFrame_isFrame.refl t

/-- A whole sequence consumes its token byte at least. -/
theorem parseSequenceOp_ip {s t : State} {a : List Byte × Option (Half × Nat)} (h : parseSequenceOp s = .ok a t) :
    s.ip < t.ip := by
  rw [parseSequenceOp_eq_bind, Res.bind_eq_ok] at h
  obtain ⟨_, u, hfetch, hrest⟩ := h
  have hframe := decFrame_litlenRest u
  rw [hrest] at hframe
  have := hframe.ip
  rw [fetchTokenOp_ip hfetch] at this; omega

/-- The line at a token byte, a whole sequence a step. -/
theorem sequenceStep_over_or_next {s t : State} (h : sequenceStep s = .next t) :
    Over t ∨ t.ctl = s.ctl ∧ s.ip < t.ip := by
  obtain ⟨bs, hbs, -⟩ := withRest_inv h
  rw [sequenceStep_eq_parse hbs] at h
  have hframe := decFrame_parseSequence s
  cases hp : parseSequenceOp s with
  | ok a u =>
    rw [hp] at h hframe
    obtain ⟨lits, _ | m⟩ := a
    · cases h; exact .inl (.inl rfl)
    · have hip : s.ip < u.ip := parseSequenceOp_ip hp
      cases h; exact .inr ⟨hframe.ctl, hip⟩
  | err e u => rw [hp] at h; cases h; exact .inl (over_raise e u)
  | fault f => rw [hp] at h; cases h

/-! ### The lines inside a sequence -/

theorem decMove_lenHead {sel bias : Nat} {c ext next : Ctl} {done : State → State} {s t : State} (hc : s.ctl = c)
    (hdone : ∀ u, (done u).ctl = next) (hext : ext.linesToToken < c.linesToToken)
    (hnext : next.linesToToken < c.linesToToken) (h : lenHead sel bias ext done s = .next t) : DecMove s t := by
  rw [lenHead] at h
  split at h
  · cases h; exact .ended (over_raise _ _)
  · split at h
    · cases h; exact .goesOn hc rfl hext
    · cases h; exact .goesOn hc (hdone _) hnext

theorem lenextOp_inv {b : Byte} {s t : State} {n : Nat} (h : lenextOp b s = .ok n t) : t = s.addExt b := by
  by_cases hover : s.lenAcc + b.toNat + s.lenBias > room s
  · rw [lenextOp_overflow hover] at h; cases h
  · rw [lenextOp_ok hover] at h; cases h; rfl

/-- An extension byte is consumed. -/
theorem decMove_extStep {done : State → State} {next : Ctl} {s t : State} (hb : s.status = .busy)
    (hc : s.ctl.decompresses) (hip : ∀ u, (done u).ip = u.ip) (hdone : ∀ u, (done u).ctl = next)
    (hnext : next.decompresses) (h : fieldStep .lenext (afterExt done) s = .next t) : DecMove s t := by
  obtain ⟨bs, -, h⟩ := withRest_inv h
  cases bs with
  | nil => cases h; exact .ended (over_raise _ _)
  | cons b bs =>
    simp only [decode, exec_lenext] at h
    refine decMove_andThen (d := giveNum) (decFrame_lenext b s) hb (fun _ _ => rfl) (fun n u hu => ?_) h
    rw [lenextOp_inv hu, afterExt_lenext]
    split
    · exact .consumed (Nat.lt_succ_self s.ip) hc
    · exact .consumed (by rw [hip]; exact Nat.lt_succ_self s.ip) (by rw [hdone]; exact hnext)

theorem decMove_literalsHead {s t : State} (hc : s.ctl = .copyLiterals) (h : literalsHead s = .next t) :
    DecMove s t := by
  obtain ⟨bs, -, h⟩ := withRest_inv h
  split at h
  · cases h; exact .ended (over_raise _ _)
  · cases h; exact .goesOn hc rfl (Nat.lt_succ_self 6)

/-- A literal byte is consumed. -/
theorem decMove_literalStep {n : Nat} {s t : State} (hb : s.status = .busy)
    (h : fieldStep .literal (fun _ s => { s with ctl := .literals n }) s = .next t) : DecMove s t := by
  obtain ⟨bs, -, h⟩ := withRest_inv h
  cases bs with
  | nil => cases h; exact .ended (over_raise _ _)
  | cons b bs =>
    refine decMove_andThen (r := takeLits [b] s) (decFrame_takeLits [b] s) hb (fun _ _ => rfl) (fun _ u hu => ?_) h
    rw [takeLits_inv hu]
    exact .consumed (Nat.lt_succ_self s.ip) (by simp [Ctl.linesToToken])

theorem decMove_offsetStep {s t : State} (hb : s.status = .busy) (hc : s.ctl = .readOffset)
    (h : fieldStep .offset (fun _ s => { s with ctl := .readMatchlen }) s = .next t) : DecMove s t := by
  obtain ⟨bs, -, h⟩ := withRest_inv h
  match bs with
  | [] | [_] => cases h; exact .ended (over_raise _ _)
  | b0 :: b1 :: bs =>
    exact decMove_andThen (r := takeOffset (offsetOf b0 b1) s) (decFrame_takeOffset _ s) hb (fun _ _ => rfl)
      (fun _ u _ => .goesOn (next := .readMatchlen) hc rfl (by decide)) h

/-- R224: every line of the decompressor. -/
theorem engineStep_decMove {s t : State} (hb : s.status = .busy) (hc : s.ctl.decompresses)
    (h : engineStep s = .next t) : DecMove s t := by
  cases hl : s.ctl with
  | rest | scan | lookahead | emit => rw [hl] at hc; exact absurd hc (by decide)
  | sequence =>
    rw [engineStep_at_sequence hl] at h
    rcases sequenceStep_over_or_next h with hover | ⟨hctl, hip⟩
    · exact .ended hover
    · exact .consumed hip (hctl ▸ hc)
  | fetchToken => rw [engineStep_at_fetchToken hl] at h; exact decMove_fetchToken hb h
  | readLitlen =>
    rw [engineStep_at_readLitlen hl] at h
    split at h
    · exact decMove_lenHead (next := .copyLiterals) hl (fun _ => rfl) (by decide) (by decide) h
    · exact decMove_opStep (decFrame_readLitlen s) hb hl rfl (by decide) h
  | litExt =>
    rw [engineStep_at_litExt hl] at h
    exact decMove_extStep (done := endLitlen) hb hc (fun _ => rfl) (fun _ => rfl) (by decide) h
  | copyLiterals =>
    rw [engineStep_at_copyLiterals hl] at h
    split at h
    · exact decMove_literalsHead hl h
    · exact decMove_opStep (decFrame_copyLiterals s) hb hl rfl (by decide) h
  | literals n =>
    cases n with
    | zero => rw [engineStep_at_literals_zero hl] at h; cases h; exact .goesOn hl rfl (Nat.lt_succ_self 5)
    | succ n => rw [engineStep_at_literals_succ hl] at h; exact decMove_literalStep hb h
  | endTest =>
    rw [engineStep_endTest_busy hb hl, afterEndTest] at h
    split at h
    · cases h; exact .ended (.inl rfl)
    · cases h; exact .goesOn (next := .readOffset) hl rfl (by decide)
  | readOffset =>
    rw [engineStep_at_readOffset hl] at h
    split at h
    · exact decMove_offsetStep hb hl h
    · exact decMove_opStep (decFrame_readOffset s) hb hl rfl (by decide) h
  | readMatchlen =>
    rw [engineStep_at_readMatchlen hl] at h
    split at h
    · exact decMove_lenHead (next := .copyMatch) hl (fun _ => rfl) (by decide) (by decide) h
    · exact decMove_opStep (decFrame_readMatchlen s) hb hl rfl (by decide) h
  | matchExt =>
    rw [engineStep_at_matchExt hl] at h
    exact decMove_extStep (done := endMatchlen) hb hc (fun _ => rfl) (fun _ => rfl) (by decide) h
  | copyMatch =>
    rw [engineStep_at_copyMatch hl] at h
    exact decMove_opStep (decFrame_copyMatch s) hb hl rfl (by cases s.grain <;> decide) h

/-! ### The run -/

/-- Steps that lessen a measure come to the end of the operation within it. -/
theorem steps_to_over {P : State → Prop} {measure : State → Nat}
    (hstep : ∀ s, P s → ∃ t, step s = .next t ∧ t.host = s.host ∧ (Over t ∨ P t ∧ measure t < measure s)) {s : State}
    (hs : P s) : ∃ n t, n ≤ measure s + 1 ∧ steps n s = .next t ∧ Over t ∧ t.host = s.host := by
  generalize hk : measure s = k
  induction k using Nat.strong_induction_on generalizing s with
  | _ k ih =>
    obtain ⟨t, ht, hhost, hover | ⟨hP, hless⟩⟩ := hstep s hs
    · exact ⟨1, t, by omega, by rw [steps, ht]; rfl, hover, hhost⟩
    · obtain ⟨n, u, hn, hu, hover, hhost'⟩ := ih _ (hk ▸ hless) hP rfl
      exact ⟨n + 1, u, by omega, by rw [steps, ht]; exact hu, hover, hhost'.trans hhost⟩

/-- A decompression at work, the host making no move. -/
structure AtWork (s : State) : Prop where
  inv : Invariant s
  idle : HostIdle s
  line : s.ctl.decompresses

/-- The state of a decompression holds at each of its lines. -/
theorem AtWork.decompressing {s : State} (h : AtWork s) : Decompressing s := by
  have hl := h.inv.line
  have hc := h.line
  unfold AtLine at hl
  cases hctl : s.ctl <;> simp only [hctl] at hl hc
  case rest | scan | lookahead | emit => exact absurd hc (by decide)
  case litExt | copyLiterals | literals | readMatchlen | matchExt | copyMatch => exact hl.1
  all_goals exact hl

/-- In lines that consume no byte, of which fewer than 16 stand between two bytes consumed. -/
def State.linesToEnd (s : State) : Nat := 16 * (s.nreg - s.ip) + s.ctl.linesToToken

/-- A step of a decompression is a line of it, after which it is over, or still at work and nearer to its end. -/
theorem AtWork.step_next {s : State} (h : AtWork s) : ∃ t, engineStep s = .next t ∧ step s = .next t ∧
    t.host = s.host ∧ t.nreg = s.nreg ∧ (Over t ∨ AtWork t ∧ t.linesToEnd < s.linesToEnd) := by
  have hline : s.ctl.linesToToken < 16 := h.line
  obtain ⟨hrest, hcomp⟩ := Ctl.decompresses_iff.1 hline
  have hb := h.inv.busy.2 hrest
  obtain ⟨t, ht, hinv⟩ := sound_decompressor h.inv hb hcomp
  obtain ⟨u, hframe, hu⟩ := engineStep_decLine hcomp ht
  have hhost : t.host = s.host := by rw [hu]; exact hframe.host
  have hnreg : t.nreg = s.nreg := by rw [hu]; exact hframe.nreg
  have hip : s.ip ≤ t.ip := by rw [hu]; exact hframe.ip
  have hwork (hc : t.ctl.decompresses) : AtWork t := ⟨hinv, by rw [HostIdle, hhost]; exact h.idle, hc⟩
  refine ⟨t, ht, (step_eq_engineStep hb h.idle).trans ht, hhost, hnreg, ?_⟩
  simp only [State.linesToEnd, hnreg]
  cases engineStep_decMove hb hline ht with
  | ended hover => exact .inl hover
  | later hlater => exact .inr ⟨hwork (hlater.trans hline), by omega⟩
  | consumed hless hc =>
    have hcursor := (hwork hc).decompressing.cursor
    have htoken : t.ctl.linesToToken < 16 := hc
    exact .inr ⟨hwork hc, by omega⟩

/-- A whole sequence a step, every step consumes a byte. -/
theorem AtWork.step_next_sequence {s : State} (h : AtWork s) (hc : s.ctl = .sequence) : ∃ t, step s = .next t ∧
    t.host = s.host ∧ (Over t ∨ (AtWork t ∧ t.ctl = .sequence) ∧ t.nreg - t.ip < s.nreg - s.ip) := by
  obtain ⟨t, hline, ht, hhost, hnreg, hover | ⟨hwork, -⟩⟩ := h.step_next
  · exact ⟨t, ht, hhost, .inl hover⟩
  · have hcursor := hwork.decompressing.cursor
    rw [engineStep_at_sequence hc] at hline
    refine ⟨t, ht, hhost, (sequenceStep_over_or_next hline).imp_right fun ⟨hctl, hip⟩ => ⟨⟨hwork, hctl.trans hc⟩, ?_⟩⟩
    omega

/-- Settles O48: in bytes left to consume and lines left before the next token byte every line comes nearer to the
end; a whole sequence a step, in bytes alone. -/
theorem decompressEnds : Obligations.DecompressEnds := by
  unfold Obligations.DecompressEnds
  intro s hinv hidle hb hcomp
  have hs : AtWork s := ⟨hinv, hidle, Ctl.decompresses_iff.2 ⟨hinv.busy.1 hb, hcomp⟩⟩
  refine ⟨?ends, fun hc => ?bound⟩
  case ends =>
    obtain ⟨n, t, -, hn, hover, hhost⟩ := steps_to_over (measure := State.linesToEnd) (fun s h => by
      obtain ⟨t, -, ht, hhost, -, hnext⟩ := AtWork.step_next h
      exact ⟨t, ht, hhost, hnext⟩) hs
    exact ⟨t, ⟨n, hn⟩, hover, hhost⟩
  case bound =>
    exact steps_to_over (P := fun s => AtWork s ∧ s.ctl = .sequence) (measure := fun s => s.nreg - s.ip)
      (fun _ ⟨h, hc⟩ => h.step_next_sequence hc) ⟨hs, hc⟩

end Sys2Proof.Machine
end

section
/-! SUPPORT. The host commands as instructions (R251 to R254): NOP, the starts, and a command written while BUSY. -/

namespace Sys2Proof.Machine

/-- Settles O2: NOP answers its state, and a write of 0 to CMD is NOP. -/
theorem nopChangesNothing : Obligations.NopChangesNothing := by
  unfold Obligations.NopChangesNothing
  exact fun s => ⟨rfl, fun rest hhost => step_eq_hostTurn hhost nofun⟩

/-! ### Starts -/

section
variable {legal : Prop} [Decidable legal] (begin_ : State → State) {s : State}

theorem startWhen_busy (hb : s.status = .busy) : startWhen legal begin_ s = .next s := if_pos hb

theorem startWhen_legal (hb : s.status ≠ .busy) (hl : legal) : startWhen legal begin_ s = .next (begin_ s) := by
  rw [startWhen, if_neg hb, if_pos hl]

theorem startWhen_illegal (hb : s.status ≠ .busy) (hl : ¬ legal) :
    startWhen legal begin_ s = .refused .illegalStart := by
  rw [startWhen, if_neg hb, if_neg hl]

end

theorem exec_compress_legal {s : State} (hb : s.status ≠ .busy)
    (hl : s.inLen ≤ s.cfg.maxSize ∧ s.outLimit ≤ s.cfg.maxSize) : exec .compress s = .next (beginCompress s) :=
  startWhen_legal beginCompress hb hl

/-- Settles O3: outside BUSY each starting command is its engine's head inside the precondition, and refused outside. -/
theorem startEventOfCommands : Obligations.StartEventOfCommands := by
  unfold Obligations.StartEventOfCommands
  intro s hb
  refine ⟨exec_compress_legal hb, ?_, startWhen_illegal beginCompress hb, fun hl => ?_⟩
  · rintro hl i (rfl | rfl) <;> exact startWhen_legal beginDecompress hb hl
  · exact ⟨startWhen_illegal beginDecompress hb hl, startWhen_illegal beginDecompress hb hl⟩

/-- R253: whatever `CMD` is written, the command changes nothing while BUSY. -/
theorem exec_decodeCommand_busy {s : State} (hb : s.status = .busy) (op : BitVec 2) :
    exec (decodeCommand op) s = .next s := by
  rw [decodeCommand]
  split
  · rfl
  · exact startWhen_busy beginCompress hb
  · exact startWhen_busy beginDecompress hb
  · exact startWhen_busy beginDecompress hb

/-- Settles O4: a write of CMD executes the command it names, which has no effect while BUSY. -/
theorem commandWhileBusyIgnored : Obligations.CommandWhileBusyIgnored := by
  unfold Obligations.CommandWhileBusyIgnored
  intro s v rest hb hv hhost
  refine ⟨?_, exec_decodeCommand_busy hb _⟩
  rw [step_eq_hostTurn hhost nofun, hostTurn, hostWrite, if_pos hv]
  exact exec_decodeCommand_busy (s := { s with host := rest }) hb _

end Sys2Proof.Machine
end

section
/-! SUPPORT. A compression depends on nothing that ran before (R312, R313): two that agree on the input, the registers of
the loop and what they have emitted go on in step, whatever else their states hold, and in every configuration. -/

namespace Sys2Proof.Machine

/-! ### Two compressions side by side -/

/-- An operation runs at line `c` with no error so far, and `l` are the moves the host has left. -/
structure Standing (c : Ctl) (l : List HostMove) (s : State) : Prop where
  ctl : s.ctl = c
  busy : s.status = .busy
  noErr : s.err = none
  host : s.host = l

/-- Two compressions at line `c` agree on all that a compression reads before it writes it; where `pending` holds, on the
match in `OFF` and `MLEN` too. -/
structure Twins (c : Ctl) (l l' : List HostMove) (pending : Prop) (s t : State) : Prop where
  left : Standing c l s
  right : Standing c l' t
  cfg : t.cfg = s.cfg
  ip : t.ip = s.ip
  op : t.op = s.op
  nreg : t.nreg = s.nreg
  anchor : t.anchor = s.anchor
  table : t.ht = s.ht
  input : ∀ a < s.nreg, t.inAt a = s.inAt a
  output : ∀ a < s.op, t.outAt a = s.outAt a
  pendingMatch : pending → t.off = s.off ∧ t.mlen = s.mlen

/-- Two operations stay in bounds with the same result, in states as `P` says, or both leave the bounds. Neither raises a
decode error. -/
inductive Res.Both {α : Type} (P : α → State → State → Prop) : Res α → Res α → Prop
  | ok {a : α} {s t : State} (h : P a s t) : Both P (.ok a s) (.ok a t)
  | fault (f g : Fault) : Both P (.fault f) (.fault g)

theorem Res.Both.bind {α β : Type} {P : α → State → State → Prop} {Q : β → State → State → Prop} {r r' : Res α}
    {f g : α → State → Res β} (h : r.Both P r') (hf : ∀ a s t, P a s t → (f a s).Both Q (g a t)) :
    (r.bind f).Both Q (r'.bind g) := by
  cases h with
  | ok h => exact hf _ _ _ h
  | fault f g => exact .fault f g

/-- Two operations with the same result, after which the compressions still agree. -/
abbrev Res.Twin {α : Type} (c : Ctl) (l l' : List HostMove) (pending : Prop) (r r' : Res α) : Prop :=
  r.Both (fun _ => Twins c l l' pending) r'

section
variable {c : Ctl} {l l' : List HostMove} {m : Prop} {s t : State}

theorem Twins.refl (h : Standing c l s) : Twins c l l m s s :=
  ⟨h, h, rfl, rfl, rfl, rfl, rfl, rfl, fun _ _ => rfl, fun _ _ => rfl, fun _ => ⟨rfl, rfl⟩⟩

theorem Twins.imp {n : Prop} (h : Twins c l l' m s t) (hnm : n → m) : Twins c l l' n s t :=
  { h with pendingMatch := fun hn => h.pendingMatch (hnm hn) }

theorem Standing.update (h : Standing c l s) {u : State} (hu : u = { u with
    ctl := s.ctl, status := s.status, err := s.err, host := s.host }) : Standing c l u := by
  rw [hu]; exact ⟨h.ctl, h.busy, h.noErr, h.host⟩

/-- The finder's own registers and the result handed back are written before they are read. -/
theorem Twins.scratch (h : Twins c l l' m s t) {u v : State}
    (hu : u = { s with seq4 := u.seq4, hidx := u.hidx, cand := u.cand, ret := u.ret })
    (hv : v = { t with seq4 := v.seq4, hidx := v.hidx, cand := v.cand, ret := v.ret }) : Twins c l l' m u v := by
  rw [hu, hv]
  exact { h with left := h.left.update rfl, right := h.right.update rfl }

theorem Twins.inRun (h : Twins c l l' m s t) {a n : Nat} (hn : a + n ≤ s.nreg) : s.inRun a n = t.inRun a n :=
  State.inRun_congr fun i hi => (h.input (a + i) (by omega)).symm

/-- The same bytes emitted. -/
theorem Twins.wrote (h : Twins c l l' m s t) (vs : List Byte) : Twins c l l' m (s.wrote vs) (t.wrote vs) :=
  { h with
    left := h.left.update rfl
    right := h.right.update rfl
    op := by rw [State.wrote_op, State.wrote_op, h.op]
    output := fun a ha => by
      rw [State.wrote_op] at ha
      simp only [State.wrote_outAt, h.op]
      split
      · rfl
      · exact h.output a (by omega) }

theorem Twins.bucket (h : Twins c l l' m s t) (i : Nat) : t.bucket i = s.bucket i := by
  rw [State.bucket, State.bucket, h.table]

/-! ### The operations -/

theorem Twins.readIn (h : Twins c l l' m s t) (a : Nat) : (readIn a s).Twin c l l' m (readIn a t) := by
  rw [Machine.readIn, Machine.readIn, h.nreg, h.cfg]
  split
  · rw [h.input a (by omega)]; exact .ok h
  · exact .fault _ _

theorem Twins.takeIn (h : Twins c l l' m s t) (a n : Nat) : (takeIn a n s).Twin c l l' m (takeIn a n t) := by
  rw [Machine.takeIn, Machine.takeIn, h.nreg, h.cfg]
  split
  · rw [h.inRun (by omega)]; exact .ok h
  · exact .fault _ _

theorem Twins.append (h : Twins c l l' m s t) (v : Byte) : (append v s).Twin c l l' m (append v t) := by
  have hfits : t.op < maxCsize t.cfg ↔ s.op < maxCsize s.cfg := by rw [h.op, h.cfg]
  by_cases hop : s.op < maxCsize s.cfg
  · rw [append_eq_wrote hop, append_eq_wrote (hfits.2 hop)]; exact .ok (h.wrote [v])
  · rw [Machine.append, Machine.append, if_neg hop, if_neg (mt hfits.1 hop)]; exact .fault _ _

theorem Twins.appendAll (h : Twins c l l' m s t) (vs : List Byte) :
    (appendAll vs s).Twin c l l' m (appendAll vs t) := by
  induction vs generalizing s t with
  | nil => exact .ok h
  | cons v vs ih => exact (h.append v).bind fun _ _ _ h => ih h

theorem Twins.htLookupInsert (h : Twins c l l' m s t) (i : Nat) {p q : Nat} (hq : q = p) :
    (htLookupInsertOp i p s).Twin c l l' m (htLookupInsertOp i q t) := by
  subst hq
  have hbelow : i < 2 ^ t.cfg.hashLog ↔ i < 2 ^ s.cfg.hashLog := by rw [h.cfg]
  rw [htLookupInsertOp, htLookupInsertOp, h.bucket]
  by_cases hi : i < 2 ^ s.cfg.hashLog
  · rw [if_pos hi, if_pos (hbelow.2 hi)]
    exact .ok { h with
      left := h.left.update rfl
      right := h.right.update rfl
      table := by simp only [h.table, h.cfg] }
  · rw [if_neg hi, if_neg (mt hbelow.1 hi)]; exact .fault _ _

theorem Twins.matchVerify (h : Twins c l l' m s t) (d p : Nat) :
    (matchVerifyOp d p s).Twin c l l' m (matchVerifyOp d p t) := by
  rw [matchVerifyOp, matchVerifyOp]
  split
  · exact .ok h
  · exact (h.takeIn d 4).bind fun _ _ _ h => (h.takeIn p 4).bind fun _ _ _ h => .ok h

theorem Twins.extendLoop (h : Twins c l l' m s t) (d p fuel n : Nat) :
    (extendLoop d p fuel n s).Twin c l l' m (extendLoop d p fuel n t) := by
  induction fuel generalizing n s t with
  | zero => exact .ok h
  | succ fuel ih =>
    rw [Machine.extendLoop, Machine.extendLoop, h.nreg]
    split
    · refine (h.readIn _).bind fun x _ _ h => (h.readIn _).bind fun y _ _ h => ?_
      split
      · exact ih h _
      · exact .ok h
    · exact .ok h

theorem Twins.matchExtend (h : Twins c l l' m s t) (d p : Nat) :
    (matchExtendOp d p s).Twin c l l' m (matchExtendOp d p t) := by
  rw [matchExtendOp, matchExtendOp, h.nreg]; exact h.extendLoop d p _ 4

/-- A candidate taken puts the same match into `OFF` and `MLEN`, whatever they held. -/
theorem Twins.take {n : Prop} (h : Twins c l l' m s t) (d k : Nat) : Twins c l l' n
    { s with off := BitVec.ofNat 16 (s.ip - d), mlen := k } { t with off := BitVec.ofNat 16 (t.ip - d), mlen := k } :=
  { h with
    left := h.left.update rfl
    right := h.right.update rfl
    pendingMatch := fun _ => ⟨by rw [h.ip], rfl⟩ }

theorem Twins.tryCandidates {best : Nat} (h : Twins c l l' (best ≠ 0) s t) (cs : List Nat) :
    (tryCandidates cs best s).Both (fun found => Twins c l l' (found = true)) (tryCandidates cs best t) := by
  induction cs generalizing best s t with
  | nil => exact .ok (h.imp fun hb => by simpa using hb)
  | cons d cs ih =>
    rw [Machine.tryCandidates, Machine.tryCandidates, h.ip]
    refine (h.matchVerify d s.ip).bind fun same s t h => ?_
    split
    · rw [h.ip]
      refine (h.matchExtend d s.ip).bind fun k s t h => ?_
      split
      · exact ih (h.take d k)
      · exact ih h
    · exact ih h

/-- The finder reads nothing of `OFF` and `MLEN`; with a match found it has written them. -/
theorem Twins.findMatch (h : Twins c l l' m s t) :
    (findMatchOp s).Both (fun found => Twins c l l' (found = true)) (findMatchOp t) := by
  rw [findMatchOp, findMatchOp, h.cfg]
  generalize hash4 s.cfg = i
  rw [findMatchWith, findMatchWith, h.ip]
  refine (h.takeIn s.ip 4).bind fun bs s t h => ?_
  have hregs : Twins c l l' m { s with seq4 := le32 bs, hidx := i (le32 bs) }
      { t with seq4 := le32 bs, hidx := i (le32 bs) } := h.scratch rfl rfl
  refine (hregs.htLookupInsert _ h.ip).bind fun cand s t h => ?_
  have hcand : Twins c l l' (0 ≠ 0) { s with cand := cand } { t with cand := cand } :=
    (h.scratch rfl rfl).imp (absurd rfl)
  exact hcand.tryCandidates cand

theorem Twins.backLoop (h : Twins c l l' m s t) (off fuel b : Nat) :
    (backLoop off fuel b s).Twin c l l' m (backLoop off fuel b t) := by
  induction fuel generalizing b s t with
  | zero => exact .ok h
  | succ fuel ih =>
    rw [Machine.backLoop, Machine.backLoop]
    split
    · refine (h.readIn _).bind fun x _ _ h => (h.readIn _).bind fun y _ _ h => ?_
      split
      · exact ih h _
      · exact .ok h
    · exact .ok h

theorem Twins.matchStart (h : Twins c l l' True s t) : (matchStart s).Twin c l l' True (matchStart t) := by
  rw [Machine.matchStart, Machine.matchStart, h.cfg, h.ip, h.anchor, (h.pendingMatch trivial).1]
  split
  · exact h.backLoop _ _ _
  · exact .ok h

theorem Twins.insertFrom (h : Twins c l l' m s t) (n p : Nat) :
    (insertFrom n p s).Twin c l l' m (insertFrom n p t) := by
  induction n generalizing p s t with
  | zero => exact .ok h
  | succ n ih =>
    rw [Machine.insertFrom, Machine.insertFrom, h.cfg, h.nreg]
    split
    · refine (h.takeIn p 4).bind fun bs s t h => ?_
      rw [h.cfg]
      exact (h.htLookupInsert _ rfl).bind fun _ _ _ h => ih h _
    · exact .ok h

theorem Twins.insertInside (h : Twins c l l' True s t) : (insertInside s).Twin c l l' True (insertInside t) := by
  rw [Machine.insertInside, Machine.insertInside, h.cfg, h.ip, (h.pendingMatch trivial).2]
  split
  · split <;> exact h.insertFrom _ _
  · exact .ok h

theorem Twins.emitSeq (h : Twins c l l' m s t) (a b : Nat) (off : Half) (mlen : Nat) :
    (emitSeqOp a b off mlen s).Twin c l l' m (emitSeqOp a b off mlen t) :=
  (h.append _).bind fun _ _ _ h => (h.appendAll _).bind fun _ _ _ h => (h.takeIn _ _).bind fun _ _ _ h =>
    (h.appendAll _).bind fun _ _ _ h => (h.appendAll _).bind fun _ _ _ h => h.appendAll _

theorem Twins.emitLast (h : Twins c l l' m s t) (a : Nat) : (emitLastOp a s).Twin c l l' m (emitLastOp a t) := by
  rw [emitLastOp, emitLastOp, h.nreg]
  refine (h.append _).bind fun _ s t h => ?_
  rw [h.nreg]
  refine (h.appendAll _).bind fun _ s t h => ?_
  rw [h.nreg]
  exact (h.takeIn _ _).bind fun _ _ _ h => h.appendAll _

/-! ### The lines -/

/-- What a line of each makes of the two: they agree again at a line of the loop, both end with what they have emitted,
or both stop. -/
inductive Lockstep (l l' : List HostMove) : Host.Outcome State Fault Refusal → Host.Outcome State Fault Refusal → Prop
  | line {c : Ctl} {s t : State} (hc : c.compresses) (h : Twins c l l' (c ≠ .scan) s t) :
      Lockstep l l' (.next s) (.next t)
  | ended {c : Ctl} {m : Prop} {s t : State} (h : Twins c l l' m s t) :
      Lockstep l l' (.next (finish s)) (.next (finish t))
  | stopped (f g : Fault) : Lockstep l l' (.fault f) (.fault g)

/-- To the next line, the cursor, ANCHOR and the match moved alike. -/
theorem Twins.goto (h : Twins c l l' m s t) {d : Ctl} {n : Prop} {u v : State}
    (hu : u = { s with ctl := d, ip := u.ip, anchor := u.anchor, off := u.off, mlen := u.mlen })
    (hv : v = { t with ctl := d, ip := v.ip, anchor := v.anchor, off := v.off, mlen := v.mlen })
    (hip : v.ip = u.ip) (hanchor : v.anchor = u.anchor) (hm : n → v.off = u.off ∧ v.mlen = u.mlen) :
    Twins d l l' n u v := by
  rw [hu, hv]
  exact { h with
    left := ⟨rfl, h.left.busy, h.left.noErr, h.left.host⟩
    right := ⟨rfl, h.right.busy, h.right.noErr, h.right.host⟩
    ip := hip
    anchor := hanchor
    pendingMatch := hm }

/-- The same operation, then what the sequencer does after it. -/
theorem Res.Both.lockstep {α : Type} {r r' : Res α} {n : α → Prop} {d : α → State → State} {f g : State → State}
    (h : r.Both (fun a => Twins c l l' (n a)) r') (hd : ∀ a u, (d a u).status = u.status)
    (hf : ∀ a u v, Twins c l l' (n a) u v → Lockstep l l' (.next (f (d a u))) (.next (g (d a v)))) :
    Lockstep l l' (andThen (r.outcome d) f) (andThen (r'.outcome d) g) := by
  cases h with
  | ok h =>
    rw [Res.outcome_ok, Res.outcome_ok, andThen_busy rfl ((hd _ _).trans h.left.busy),
      andThen_busy rfl ((hd _ _).trans h.right.busy)]
    exact hf _ _ _ h
  | fault f g => exact .stopped f g

theorem Twins.afterFind {found : Bool} (h : Twins .scan l l' (found = true) s t) :
    Lockstep l l' (.next (afterFind (giveBit found s))) (.next (afterFind (giveBit found t))) := by
  have hgive := h.scratch (u := giveBit found s) (v := giveBit found t) rfl rfl
  cases found with
  | true =>
    show Lockstep l l' (.next { giveBit true s with ctl := if s.cfg.lazy then .lookahead else .emit })
      (.next { giveBit true t with ctl := if t.cfg.lazy then .lookahead else .emit })
    rw [h.cfg]
    exact .line (c := if s.cfg.lazy then .lookahead else .emit) (by cases s.cfg.lazy <;> decide)
      (hgive.goto rfl rfl h.ip h.anchor fun _ => h.pendingMatch rfl)
  | false =>
    show Lockstep l l' (.next { giveBit false s with ip := s.ip + s.cfg.scanStep })
      (.next { giveBit false t with ip := t.ip + t.cfg.scanStep })
    have hip : t.ip + t.cfg.scanStep = s.ip + s.cfg.scanStep := by rw [h.ip, h.cfg]
    exact .line (.inl rfl)
      (hgive.goto (by rw [← h.left.ctl]; rfl) (by rw [← h.right.ctl]; rfl) hip h.anchor (absurd rfl))

theorem Twins.lastStep (h : Twins c l l' m s t) : Lockstep l l' (lastStep s) (lastStep t) := by
  rw [Machine.lastStep, Machine.lastStep, h.nreg, h.cfg, h.anchor]
  split
  · exact (h.appendAll _).lockstep (fun _ _ => rfl) fun _ _ _ h => .ended h
  · exact (h.emitLast _).lockstep (d := quiet) (fun _ _ => rfl) fun _ _ _ h => .ended h

theorem Twins.scanStep (h : Twins .scan l l' m s t) : Lockstep l l' (scanStep s) (scanStep t) := by
  rw [Machine.scanStep, Machine.scanStep, h.ip, h.cfg, h.nreg]
  split
  · exact h.findMatch.lockstep (d := giveBit) (fun _ _ => rfl) fun _ _ _ h => h.afterFind
  · exact h.lastStep

/-- The match of the one and of the other, held against what the finder gave each at the next position. -/
theorem Twins.afterLookahead (h : Twins c l l' True s t) {found : Bool} {u v : State}
    (hnext : Twins .lookahead l l' (found = true) u v) :
    Lockstep l l' (.next (afterLookahead s (giveBit found u))) (.next (afterLookahead t (giveBit found v))) := by
  obtain ⟨hoff, hmlen⟩ := h.pendingMatch trivial
  have hnext := hnext.scratch (u := giveBit found u) (v := giveBit found v) rfl rfl
  have hlonger : ((giveBit found v).ret = .bit true ∧ t.mlen < (giveBit found v).mlen) ↔
      (giveBit found u).ret = .bit true ∧ s.mlen < (giveBit found u).mlen := by
    refine and_congr_right fun hret => ?_
    rw [hmlen, (hnext.pendingMatch (Ret.bit.inj hret)).2]
  rw [Machine.afterLookahead, Machine.afterLookahead]
  by_cases hl : (giveBit found u).ret = .bit true ∧ s.mlen < (giveBit found u).mlen
  · rw [if_pos hl, if_pos (hlonger.2 hl)]
    exact .line (.inr (.inl rfl)) (hnext.imp fun _ => Ret.bit.inj hl.1)
  · rw [if_neg hl, if_neg (mt hlonger.1 hl)]
    exact .line (.inr (.inr rfl)) (hnext.goto rfl rfl h.ip hnext.anchor fun _ => ⟨hoff, hmlen⟩)

theorem Twins.lookaheadStep (h : Twins .lookahead l l' True s t) :
    Lockstep l l' (lookaheadStep s) (lookaheadStep t) := by
  have hstarts : t.ip + 1 + t.cfg.mflimit ≤ t.nreg ↔ s.ip + 1 + s.cfg.mflimit ≤ s.nreg := by rw [h.ip, h.cfg, h.nreg]
  rw [Machine.lookaheadStep, Machine.lookaheadStep]
  by_cases hm : s.ip + 1 + s.cfg.mflimit ≤ s.nreg
  · have hnext : Twins .lookahead l l' True { s with ip := s.ip + 1 } { t with ip := t.ip + 1 } :=
      h.goto (by rw [← h.left.ctl]) (by rw [← h.right.ctl]) (congrArg (· + 1) h.ip) h.anchor h.pendingMatch
    rw [if_pos hm, if_pos (hstarts.2 hm)]
    exact hnext.findMatch.lockstep (d := giveBit) (fun _ _ => rfl) fun _ _ _ => h.afterLookahead
  · rw [if_neg hm, if_neg (mt hstarts.1 hm)]
    exact .line (.inr (.inr rfl)) (h.goto rfl rfl h.ip h.anchor fun _ => h.pendingMatch trivial)

theorem Twins.emitEnd (h : Twins c l l' True s t) : Lockstep l l' (emitEnd s) (emitEnd t) := by
  have hins := h.insertInside
  rw [Machine.emitEnd, Machine.emitEnd]
  generalize Machine.insertInside s = r, Machine.insertInside t = r' at hins
  cases hins with
  | @ok _ u v h =>
    have hip : v.ip + v.mlen = u.ip + u.mlen := by rw [h.ip, (h.pendingMatch trivial).2]
    exact .line (.inl rfl) (h.goto rfl rfl hip hip (absurd rfl))
  | fault f g => exact .stopped f g

theorem exec_emitSeq (a b : Nat) (off : Half) (mlen : Nat) (s : State) :
    exec (.emitSeq a b off mlen) s = (emitSeqOp a b off mlen s).outcome quiet := rfl

theorem Twins.emitStep (h : Twins c l l' True s t) : Lockstep l l' (emitStep s) (emitStep t) := by
  obtain ⟨hoff, hmlen⟩ := h.pendingMatch trivial
  have hstart := h.matchStart
  rw [Machine.emitStep, Machine.emitStep]
  generalize Machine.matchStart s = r, Machine.matchStart t = r' at hstart
  cases hstart with
  | @ok b _ _ _ =>
    have hemit := h.emitSeq s.anchor b s.off (s.mlen + (s.ip - b))
    simp only [exec_emitSeq, h.anchor, hoff, hmlen, h.ip]
    generalize emitSeqOp s.anchor b s.off (s.mlen + (s.ip - b)) s = r,
      emitSeqOp s.anchor b s.off (s.mlen + (s.ip - b)) t = r' at hemit
    cases hemit with
    | ok h => exact h.emitEnd
    | fault f g => exact .stopped f g
  | fault f g => exact .stopped f g

/-- R176: from where two compressions agree, their next lines keep them in step. -/
theorem Twins.engineStep (hc : c.compresses) (h : Twins c l l' (c ≠ .scan) s t) :
    Lockstep l l' (engineStep s) (engineStep t) := by
  rcases hc with rfl | rfl | rfl
  · rw [engineStep_at_scan h.left.ctl, engineStep_at_scan h.right.ctl]; exact h.scanStep
  · rw [engineStep_at_lookahead h.left.ctl, engineStep_at_lookahead h.right.ctl]
    exact (h.imp fun _ => nofun).lookaheadStep
  · rw [engineStep_at_emit h.left.ctl, engineStep_at_emit h.right.ctl]
    exact (h.imp fun _ => nofun).emitStep

end

/-! ### The answers -/

/-- What `finish` answers (R255): the bytes up to `OP`, on which the two agree. -/
theorem Twins.outRun {c : Ctl} {l l' : List HostMove} {m : Prop} {s t : State} (h : Twins c l l' m s t) :
    t.outRun 0 t.op = s.outRun 0 s.op := by
  rw [h.op]
  exact State.outRun_congr fun i hi => h.output _ (by omega)

/-- Whatever end the one comes to, the other comes to an end with the same answer. -/
theorem Twins.finishes {l l' : List HostMove} (hl : l = [] ∨ l = [.wait]) (hl' : l' = [] ∨ l' = [.wait]) {n : Nat}
    {c : Ctl} {s t u : State} {a : Answer} (hc : c.compresses) (h : Twins c l l' (c ≠ .scan) s t)
    (hn : steps n s = .next u) (hu : Ended u a) : Finishes t a := by
  induction n generalizing c s t with
  | zero => cases hn; exact absurd h.left.busy hu.not_busy
  | succ n ih =>
    have hq : Quiet s := by rw [Quiet, h.left.host]; exact hl
    have hq' : Quiet t := by rw [Quiet, h.right.host]; exact hl'
    have hnext := h.engineStep hc
    have hstep := step_eq_engineStep h.right.busy hq'.hostIdle
    rw [steps, step_eq_engineStep h.left.busy hq.hostIdle] at hn
    generalize Machine.engineStep s = o, Machine.engineStep t = o' at hnext hn hstep
    cases hnext with
    | line hc' h' => exact .line h.right.busy hstep (ih hc' h' hn)
    | @ended _ _ w w' h' =>
      have hfin : Finishes (finish w) (.ok (w.outRun 0 w.op)) :=
        finishes_finish (by rw [Quiet, h'.left.host]; exact hl) h'.left.noErr
      rw [hfin.unique hn hu, ← h'.outRun]
      exact .line h.right.busy hstep (finishes_finish (by rw [Quiet, h'.right.host]; exact hl') h'.right.noErr)
    | stopped => cases hn

theorem Loaded.inAt_eq {s t : State} {bs : List Byte} (h : Loaded s bs) (h' : Loaded t bs) {a : Nat}
    (ha : a < s.inLen) : t.inAt a = s.inAt a := by
  have hlt : a < (t.inRun 0 bs.length).length := by rw [State.inRun_length, ← h.1]; exact ha
  have hbyte := List.getElem_of_eq (h'.2.trans h.2.symm) hlt
  rwa [State.inRun_getElem, State.inRun_getElem, Nat.zero_add] at hbyte

theorem twins_beginCompress {s t : State} {bs : List Byte} (hl : Loaded s bs) (hl' : Loaded t bs)
    (hcfg : s.cfg = t.cfg) : Twins .scan s.host t.host False (beginCompress s) (beginCompress t) where
  left := ⟨rfl, rfl, rfl, rfl⟩
  right := ⟨rfl, rfl, rfl, rfl⟩
  cfg := hcfg.symm
  ip := rfl
  op := rfl
  nreg := hl'.1.trans hl.1.symm
  anchor := rfl
  table := rfl
  input := fun _ => hl.inAt_eq hl'
  output := fun a ha => absurd ha (Nat.not_lt_zero a)
  pendingMatch := False.elim

/-- An answer of COMPRESS in one state is its answer in every state that holds the same input under the same limit. -/
theorem answers_compress_of_loaded {s t : State} {bs : List Byte} {a : Answer} (hs : Ready s) (ht : Ready t)
    (hl : Loaded s bs) (hl' : Loaded t bs) (hcfg : s.cfg = t.cfg) (hlimit : s.outLimit = t.outLimit)
    (h : Answers .compress s a) : Answers .compress t a := by
  have hlegal := legal_of_answers_compress hs h
  obtain ⟨u, v, hexec, ⟨n, hn⟩, hv⟩ := h
  rw [exec_compress_legal hs.1 hlegal] at hexec
  cases hexec
  have htwins := (twins_beginCompress hl hl' hcfg).imp (n := Ctl.scan ≠ .scan) (absurd rfl)
  obtain ⟨w, hw, hend⟩ := (htwins.finishes hs.2 ht.2 (.inl rfl) hn hv).reaches
  rw [hcfg, hlimit, hl.1, ← hl'.1] at hlegal
  exact ⟨_, w, exec_compress_legal ht.1 hlegal, hw, hend⟩

/-- A decompression is the reference reading of its input under its limit. -/
theorem answers_decompress_congr {s t : State} {bs : List Byte} {a : Answer} (hs : Ready s) (ht : Ready t)
    (hl : Loaded s bs) (hl' : Loaded t bs) (hcfg : s.cfg = t.cfg) (hlimit : s.outLimit = t.outLimit) :
    Answers .decompress s a ↔ Answers .decompress t a := by
  rw [hl.answers_decompress_iff hs, hl'.answers_decompress_iff ht, hcfg, hlimit]

/-- Settles O56: two compressions of the same input go on in step, and a decompression answers the reference reading of
its input, whatever else the states hold. -/
theorem answerIndependentOfHistory : Obligations.AnswerIndependentOfHistory := by
  unfold Obligations.AnswerIndependentOfHistory
  rintro s t bs i a hs ht hl hl' hcfg hlimit - (rfl | rfl | rfl)
  · exact ⟨answers_compress_of_loaded hs ht hl hl' hcfg hlimit,
      answers_compress_of_loaded ht hs hl' hl hcfg.symm hlimit.symm⟩
  · exact answers_decompress_congr hs ht hl hl' hcfg hlimit
  · rw [answers_decompressInto_iff, answers_decompressInto_iff]
    exact answers_decompress_congr hs ht hl hl' hcfg hlimit

end Sys2Proof.Machine
end

section
/-! SUPPORT. How the line of either engine leaves the flags (R255, R280, R281): the operation goes on, ends by `finish`,
or, in a decompression, by `raise`. -/

namespace Sys2Proof.Machine

/-- What a line leaves of an operation: it goes on, or it is ended by `finish` or, where errors are possible, by `raise`. -/
inductive LineEnd (errors : Prop) : State → Prop
  | goesOn {t : State} (h : t.status = .busy) : LineEnd errors t
  | finished (u : State) : LineEnd errors (finish u)
  | raised (h : errors) (e : ErrKind) (u : State) : LineEnd errors (raise e u)

theorem LineEnd.mono {p q : Prop} {t : State} (h : LineEnd p t) (hpq : p → q) : LineEnd q t := by
  cases h with
  | goesOn h => exact .goesOn h
  | finished u => exact .finished u
  | raised h e u => exact .raised (hpq h) e u

/-! ### The compressor -/

theorem Lockstep.lineEnd {l l' : List HostMove} {t : State} {o : Host.Outcome State Fault Refusal}
    (h : Lockstep l l' (.next t) o) : LineEnd False t := by
  cases h with
  | line _ h => exact .goesOn h.left.busy
  | ended => exact .finished _

/-- A compression in step with itself: its lines raise no error (R275). -/
theorem lineEnd_compressor {s t : State} (hb : s.status = .busy) (he : s.err = none) (hc : s.ctl.compresses)
    (h : engineStep s = .next t) : LineEnd False t := by
  have hself : Twins s.ctl s.host s.host (s.ctl ≠ .scan) s s := .refl ⟨rfl, hb, he, rfl⟩
  have hstep := hself.engineStep hc
  rw [h] at hstep
  exact hstep.lineEnd

/-! ### The decompressor -/

section
variable {s t : State}

/-- An operation of R205 as an instruction, its result delivered as `d` does. -/
theorem lineEnd_outcome {α : Type} {r : Res α} {d : α → State → State} (hb : s.status = .busy)
    (hr : r.All (DecFrame s)) (h : r.outcome d = .next t) (hd : ∀ a u, u.status = .busy → LineEnd True (d a u)) :
    LineEnd True t := by
  obtain ⟨u, hu, ⟨a, rfl⟩ | ⟨e, rfl⟩⟩ := hr.outcome h
  · exact hd a u (hu.status.trans hb)
  · exact .raised trivial e u

theorem lineEnd_andThen {o : Host.Outcome State Fault Refusal} {f : State → State} (h : andThen o f = .next t)
    (ho : ∀ u, o = .next u → LineEnd True u) (hf : ∀ u, u.status = .busy → LineEnd True (f u)) :
    LineEnd True t := by
  cases o with
  | next u =>
    rw [andThen] at h
    split at h
    next hb => cases h; exact hf u hb
    next => cases h; exact ho _ rfl
  | fault r => cases h
  | refused r => cases h

theorem lineEnd_opStep {α : Type} {i : Instr} {next : Ctl} {r : Res α} (hb : s.status = .busy)
    (hr : r.All (DecFrame s)) (hexec : exec i s = r.outcome fun _ u => u) (h : opStep i next s = .next t) :
    LineEnd True t :=
  lineEnd_andThen h (fun _ hu => lineEnd_outcome hb hr (hexec.symm.trans hu) fun _ _ hu => .goesOn hu)
    fun _ hu => .goesOn hu

theorem lineEnd_sequenceStep (hb : s.status = .busy) (h : sequenceStep s = .next t) : LineEnd True t := by
  obtain ⟨bs, hbs, -⟩ := withRest_inv h
  rw [sequenceStep_eq_parse hbs] at h
  refine lineEnd_outcome hb (decFrame_parseSequence s) h ?_
  rintro ⟨lits, _ | m⟩ u hu
  · exact .finished _
  · exact .goesOn hu

/-- The elements of the stream: the extension bytes, the literals, the offset. -/
theorem lineEnd_element {c : Ctx} {bs rest : List Byte} {i : Instr} (hb : s.status = .busy)
    (hc : c = .lenext ∨ c = .literal ∨ c = .offset) (hd : decode c bs = .ok (i, rest)) (h : exec i s = .next t) :
    LineEnd True t := by
  rcases hc with rfl | rfl | rfl
  · cases bs with
    | nil => cases hd
    | cons b bs =>
      cases hd
      rw [exec_lenext] at h
      exact lineEnd_outcome hb (decFrame_lenext b s) h fun _ _ hu => .goesOn hu
  · cases bs with
    | nil => cases hd
    | cons b bs =>
      cases hd
      exact lineEnd_outcome (d := quiet) hb (decFrame_takeLits [b] s) h fun _ _ hu => .goesOn hu
  · match bs with
    | [] => cases hd
    | [_] => cases hd
    | b0 :: b1 :: bs =>
      cases hd
      exact lineEnd_outcome (d := quiet) hb (decFrame_takeOffset (offsetOf b0 b1) s) h fun _ _ hu => .goesOn hu

theorem lineEnd_fieldStep {c : Ctx} {after : Instr → State → State} (hb : s.status = .busy)
    (hc : c = .lenext ∨ c = .literal ∨ c = .offset) (h : fieldStep c after s = .next t)
    (hafter : ∀ i u, (after i u).status = u.status) : LineEnd True t := by
  obtain ⟨bs, -, h⟩ := withRest_inv h
  cases hd : decode c bs with
  | ok p =>
    rw [hd] at h
    exact lineEnd_andThen h (fun _ => lineEnd_element hb hc hd) fun u hu => .goesOn ((hafter p.1 u).trans hu)
  | error r =>
    rw [hd] at h
    cases h
    exact .raised trivial _ _

theorem lineEnd_lenHead {sel bias : Nat} {ext : Ctl} {done : State → State} (hb : s.status = .busy)
    (h : lenHead sel bias ext done s = .next t) (hdone : ∀ u, (done u).status = u.status) : LineEnd True t := by
  rw [lenHead] at h
  split at h
  · cases h; exact .raised trivial _ _
  · split at h
    · cases h; exact .goesOn hb
    · cases h; exact .goesOn ((hdone _).trans hb)

theorem lineEnd_literalsHead (hb : s.status = .busy) (h : literalsHead s = .next t) : LineEnd True t := by
  obtain ⟨bs, -, h⟩ := withRest_inv h
  split at h
  · cases h; exact .raised trivial _ _
  · cases h; exact .goesOn hb

theorem afterExt_status {done : State → State} (hdone : ∀ u, (done u).status = u.status) (i : Instr) (u : State) :
    (afterExt done i u).status = u.status := by
  rw [afterExt]
  split
  · rfl
  · exact hdone u

theorem lineEnd_endTest (hb : s.status = .busy) (hc : s.ctl = .endTest) (h : engineStep s = .next t) :
    LineEnd True t := by
  rw [engineStep_endTest_busy hb hc, afterEndTest] at h
  split at h
  · cases h; exact .finished _
  · cases h; exact .goesOn hb

/-- Every line of the decompressor. -/
theorem lineEnd_decompressor (hb : s.status = .busy) (hc : s.ctl.decompresses) (h : engineStep s = .next t) :
    LineEnd True t := by
  cases hl : s.ctl with
  | rest | scan | lookahead | emit => rw [hl] at hc; exact absurd hc (by decide)
  | sequence => exact lineEnd_sequenceStep hb ((engineStep_at_sequence hl).symm.trans h)
  | fetchToken => exact lineEnd_opStep hb (decFrame_fetchToken s) rfl ((engineStep_at_fetchToken hl).symm.trans h)
  | readLitlen =>
    rw [engineStep_at_readLitlen hl] at h
    split at h
    · exact lineEnd_lenHead hb h fun _ => rfl
    · exact lineEnd_opStep hb (decFrame_readLitlen s) rfl h
  | litExt =>
    rw [engineStep_at_litExt hl] at h
    exact lineEnd_fieldStep hb (.inl rfl) h (afterExt_status fun _ => rfl)
  | copyLiterals =>
    rw [engineStep_at_copyLiterals hl] at h
    split at h
    · exact lineEnd_literalsHead hb h
    · exact lineEnd_opStep hb (decFrame_copyLiterals s) rfl h
  | literals n =>
    cases n with
    | zero => rw [engineStep_at_literals_zero hl] at h; cases h; exact .goesOn hb
    | succ n =>
      rw [engineStep_at_literals_succ hl] at h
      exact lineEnd_fieldStep hb (.inr (.inl rfl)) h fun _ _ => rfl
  | endTest => exact lineEnd_endTest hb hl h
  | readOffset =>
    rw [engineStep_at_readOffset hl] at h
    split at h
    · exact lineEnd_fieldStep hb (.inr (.inr rfl)) h fun _ _ => rfl
    · exact lineEnd_opStep hb (decFrame_readOffset s) rfl h
  | readMatchlen =>
    rw [engineStep_at_readMatchlen hl] at h
    split at h
    · exact lineEnd_lenHead hb h fun _ => rfl
    · exact lineEnd_opStep hb (decFrame_readMatchlen s) rfl h
  | matchExt =>
    rw [engineStep_at_matchExt hl] at h
    exact lineEnd_fieldStep hb (.inl rfl) h (afterExt_status fun _ => rfl)
  | copyMatch => exact lineEnd_opStep hb (decFrame_copyMatch s) rfl ((engineStep_at_copyMatch hl).symm.trans h)

end

/-! ### Either engine -/

theorem Invariant.lineEnd {s t : State} (h : Invariant s) (hb : s.status = .busy) (hline : engineStep s = .next t) :
    LineEnd (¬ s.ctl.compresses) t := by
  by_cases hc : s.ctl.compresses
  · exact (lineEnd_compressor hb (h.running hb).noErr hc hline).mono False.elim
  · exact (lineEnd_decompressor hb (Ctl.decompresses_iff.2 ⟨h.busy.1 hb, hc⟩) hline).mono fun _ => hc

/-- Settles O46: a line goes on, finishes or raises, and the invariant, which it keeps, says the flags of each. -/
theorem operationEndsOnlySo : Obligations.OperationEndsOnlySo := by
  unfold Obligations.OperationEndsOnlySo
  intro s t hinv hidle hb h
  rw [step_eq_engineStep hb hidle] at h
  have hs := hinv.running hb
  have ht := engineStep_keeps_invariant hinv hb h
  cases hinv.lineEnd hb h with
  | goesOn hbt =>
    have hrun := ht.running hbt
    exact .inl ⟨hbt, hrun.noErr.trans hs.noErr.symm, hrun.noResult.trans hs.noResult.symm⟩
  | finished u =>
    have herr : u.err = none := by simpa using ht.error
    exact .inr (.inl ⟨rfl, herr, rfl, rfl⟩)
  | raised hc e u => exact .inr (.inr ⟨rfl, ⟨e, rfl⟩, rfl, rfl, hc⟩)

end Sys2Proof.Machine
end

section
/-! SUPPORT. Which error `PARSE_SEQUENCE` reports (R277, R278): the first check that fails, in the literal length, at the
offset, or in the match length after a valid offset. -/

namespace Sys2Proof.Machine

/-- A literal length that raises an error is the error of the sequence: nothing else of it is looked at. -/
theorem parseSequence_raises_of_litlen {s : State} {t : Byte} {bs : List Byte} {e : ErrKind} (h : StreamAt s (t :: bs))
    (hlen : ∃ u, takeLen (litSel t) 0 (s.lim - s.op) bs (takeToken t s) = .err e u) :
    Raises (exec .parseSequence s) e := by
  obtain ⟨u, hu⟩ := hlen
  have hlit : takeLitlen (litSel t) bs (takeToken t s) = .err e u := by
    rw [takeLitlen, show room (takeToken t s) = s.lim - s.op from rfl, hu, Res.bind_err]
  rw [exec_parseSequence, parseSequenceOp_token h, hlit, Res.bind_err]
  exact raises_of_err rfl

/-- The literals of the sequence at the cursor are whole and fit, and `rest` follows them. -/
structure LiteralsFit (s : State) (t : Byte) (lits rest : List Byte) : Prop where
  selector : litSel t = selOf lits.length
  fits : lits.length ≤ s.lim - s.op
  bound : s.op + lits.length ≤ maxCsize s.cfg
  stream : StreamAt s (t :: (extBytes lits.length ++ lits ++ rest))

/-- One byte where the offset should be: the sequence is cut there. -/
theorem LiteralsFit.raises_of_one_byte {s : State} {t b : Byte} {lits : List Byte} (h : LiteralsFit s t lits [b]) :
    Raises (exec .parseSequence s) .truncatedInput := by
  obtain ⟨u, -, -, -, hstream, -, hrun⟩ :=
    parseSequenceOp_literals h.selector h.stream h.fits h.bound (List.cons_ne_nil _ _)
  rw [exec_parseSequence, hrun, readOffsetOp, hstream.restIn_eq]
  exact raises_of_err rfl

/-- Two bytes after the literals: they are the offset, checked against the output that holds the literals, and the match
length is read only after that. -/
theorem LiteralsFit.parse_offset {s : State} {t b0 b1 : Byte} {lits rest : List Byte}
    (h : LiteralsFit s t lits (b0 :: b1 :: rest)) :
    ∃ u : State, u.tok = t ∧ u.op = s.op + lits.length ∧ u.lim = s.lim ∧ StreamAt u (b0 :: b1 :: rest) ∧
      parseSequenceOp s = (takeOffset (offsetOf b0 b1) u).bind fun _ v => matchlenRest lits v := by
  obtain ⟨u, htok, hop, hlim, hstream, -, hrun⟩ :=
    parseSequenceOp_literals h.selector h.stream h.fits h.bound (List.cons_ne_nil _ _)
  refine ⟨u, htok, hop, hlim, hstream, ?_⟩
  rw [hrun, readOffsetOp, hstream.restIn_eq, Res.bind_ok]
  rfl

/-- An invalid offset is the error of the sequence: the match length is not looked at. -/
theorem LiteralsFit.raises_of_offset {s : State} {t b0 b1 : Byte} {lits rest : List Byte}
    (h : LiteralsFit s t lits (b0 :: b1 :: rest))
    (hbad : b0.toNat + 256 * b1.toNat = 0 ∨ s.op + lits.length < b0.toNat + 256 * b1.toNat) :
    Raises (exec .parseSequence s) .invalidOffset := by
  obtain ⟨u, -, hop, -, -, hrun⟩ := h.parse_offset
  rw [← offsetOf_toNat, ← hop] at hbad
  rw [exec_parseSequence, hrun, takeOffset_invalid (hbad.imp_left (half_eq_zero _).2)]
  exact raises_of_err rfl

/-- After a valid offset a match length that raises an error is the error of the sequence. -/
theorem LiteralsFit.raises_of_matchlen {s : State} {t b0 b1 : Byte} {lits rest : List Byte} {e : ErrKind}
    (h : LiteralsFit s t lits (b0 :: b1 :: rest)) (hpos : 1 ≤ b0.toNat + 256 * b1.toNat)
    (hback : b0.toNat + 256 * b1.toNat ≤ s.op + lits.length)
    (hlen : ∀ v : State, ∃ w, takeLen (matchSel t) 4 (s.lim - (s.op + lits.length)) rest v = .err e w) :
    Raises (exec .parseSequence s) e := by
  obtain ⟨u, htok, hop, hlim, hstream, hrun⟩ := h.parse_offset
  rw [← offsetOf_toNat] at hpos hback
  rw [exec_parseSequence, hrun, takeOffset_ok hpos (hop ▸ hback), Res.bind_ok]
  generalize hv : ({ u with off := offsetOf b0 b1, ip := u.ip + 2 } : State) = v
  have hrest : StreamAt v rest := by subst hv; exact hstream.move (xs := [b0, b1]) rfl rfl rfl rfl rfl
  have hsel : matchSel v.tok = matchSel t := by subst hv; exact congrArg matchSel htok
  have hroom : room v = s.lim - (s.op + lits.length) := by subst hv; rw [← hop, ← hlim]; rfl
  obtain ⟨w, hw⟩ := hlen v
  rw [matchlenRest, readMatchlenOp, hrest.restIn_eq, Res.bind_ok, takeMatchlen, hsel, hroom, hw]
  exact raises_of_err rfl

/-- Settles O33: the first check that fails in the order of R277 is, row by row, the room against the literal length, the
offset, the bytes of the offset, or the room and then the end of the bytes along a chain of 255. -/
theorem errorPriority : Obligations.ErrorPriority := by
  unfold Obligations.ErrorPriority
  intro s t rest
  have chain : ∀ k, litSel t = 15 → StreamAt s (t :: List.replicate k 255#8) →
      (s.lim - s.op < 15 + 255 * k → Raises (exec .parseSequence s) .lengthOverflow) ∧
      (15 + 255 * k ≤ s.lim - s.op → Raises (exec .parseSequence s) .truncatedInput) := fun k hsel h =>
    ⟨fun hover => parseSequence_raises_of_litlen h (hsel ▸ takeLen_chain_overflow hover),
      fun hfit => parseSequence_raises_of_litlen h (hsel ▸ takeLen_chain_truncated hfit)⟩
  refine ⟨?literals, ?selector, ?offset, ?oneByte, chain, ?matchChain⟩
  case literals =>
    intro n hsel h hover _
    obtain ⟨_, hu⟩ := takeLen_overflow (bias := 0) (rest := rest) (s := takeToken t s) hover
    exact parseSequence_raises_of_litlen h ⟨_, hsel ▸ hu⟩
  case selector => exact fun hsel h hover => (chain 0 hsel h).1 hover
  case offset => exact fun lits b0 b1 hsel hroom hbound h => (LiteralsFit.mk hsel hroom hbound h).raises_of_offset
  case oneByte => exact fun lits b0 hsel hroom hbound h => (LiteralsFit.mk hsel hroom hbound h).raises_of_one_byte
  case matchChain =>
    intro lits b0 b1 k hsel hmatch hroom hbound h hpos hback
    have hlits := LiteralsFit.mk hsel hroom hbound h
    exact ⟨fun hover => hlits.raises_of_matchlen hpos hback fun _ => hmatch ▸ takeLen_chain_overflow hover,
      fun hfit => hlits.raises_of_matchlen hpos hback fun _ => hmatch ▸ takeLen_chain_truncated hfit⟩

end Sys2Proof.Machine
end

section
/-! SUPPORT. Reset, the idle machine and the hazards of the host's port (R45, R310, R311, R317): what the host is refused
while an operation runs, and that nothing moves while none does. -/

namespace Sys2Proof.Machine

/-! ### The host's port while BUSY -/

theorem unlessBusy_busy {s : State} (hb : s.status = .busy) (o : Host.Outcome State Fault Refusal) :
    unlessBusy s o = .refused .hostAccessWhileBusy := if_pos hb

/-- R31: `STATUS` is read at any time. -/
theorem hostRead_status (s : State) : hostRead .status s = .next { s with hostData := some s.status.code.toNat } := rfl

theorem hostRead_busy {s : State} {r : CReg} (hb : s.status = .busy) (hr : r ≠ .status) :
    hostRead r s = .refused .hostAccessWhileBusy := by
  rw [hostRead, if_neg hr, unlessBusy_busy hb]

/-- `CMD` alone is written while BUSY (R253): a read-only register does not even ignore the write. -/
theorem hostWrite_busy {s : State} {r : CReg} (hb : s.status = .busy) (hr : r ≠ .cmd) (v : Nat) :
    hostWrite r v s = .refused .hostAccessWhileBusy := by
  cases r with
  | cmd => exact absurd rfl hr
  | status | err | outLen | inLen | outLimit | sizeHint => exact unlessBusy_busy hb _

/-- Settles O6: each access is one turn of the host, refused by its guard, which a read of `STATUS` does not have. -/
theorem hostAccessWhileBusyRefused : Obligations.HostAccessWhileBusyRefused := by
  unfold Obligations.HostAccessWhileBusyRefused
  intro s rest hb
  have hb' : ({ s with host := rest } : State).status = .busy := hb
  refine ⟨fun h => ?_, fun r hr h => ?_, fun r v hr h => ?_, fun p b h => ?_, fun p h => ?_⟩ <;>
    rw [step_eq_hostTurn h nofun, hostTurn]
  · rw [hostRead_status, hb', Status.code_toNat]
  · exact hostRead_busy hb' hr
  · exact hostWrite_busy hb' hr v
  · exact unlessBusy_busy hb' _
  · exact unlessBusy_busy hb' _

/-! ### Reset and the idle machine -/

/-- R310: a reset is made in any STATUS. -/
theorem step_reset {s : State} {rest : List HostMove} (h : s.host = .reset :: rest) :
    step s = .next (hostReset { s with host := rest }) := step_eq_hostTurn h nofun

/-- R311: with no operation and no move of the host, nothing happens, however long. -/
theorem steps_idle {s : State} (h : s.host = []) (hb : s.status ≠ .busy) (n : Nat) : steps n s = .next s := by
  induction n with
  | zero => rfl
  | succ n ih => rw [steps, step_idle h hb]; exact ih

/-- Settles O1: `State.resetIn`, and `hostReset` with it, writes the registers so; an idle machine takes no step of its
own. -/
theorem resetSetsHostRegisters : Obligations.ResetSetsHostRegisters := by
  unfold Obligations.ResetSetsHostRegisters
  refine ⟨?inConfig, rfl, ?move, fun s hb => ⟨fun h => steps_idle h hb, fun _ h => step_wait_idle h hb⟩⟩
  case inConfig =>
    rintro c _ rfl
    exact ⟨rfl, rfl, rfl, rfl, rfl, rfl⟩
  case move =>
    exact fun s rest h => ⟨_, step_reset h, rfl, rfl, rfl, rfl, rfl, rfl, rfl, rfl, rfl⟩

end Sys2Proof.Machine
end
